-- ==== Sys2Proof/Word.lean ====
section
/-!
DEFINITION. The value types of the engine (spec/00_scope.md rule R11): bytes, Keycodes, the two lines, what an end of
a line may do to it, and what a line may read as.
-/

namespace Sys2Proof

/-- R11: "A byte is 8 bits, b[7:0], bit 0 the least significant". -/
abbrev Byte := BitVec 8

/-- R11, R77: a Keycode is 16 bits, `k[15:0]`. -/
abbrev Keycode := BitVec 16

/-- R11: "Lines are named clk and dat". -/
inductive Line where
  | clk
  | dat
  deriving DecidableEq, Repr, Inhabited

/-- R21, R40: the two driver states an end has; there is no third ("the device never drives a line high"). -/
inductive Drive where
  | rel
  | drvLow
  deriving DecidableEq, Repr, Inhabited

/-- R11: a line level is `HIGH` (=1) or `LOW` (=0). -/
inductive Level where
  | low
  | high
  deriving DecidableEq, Repr, Inhabited

/-- R80 to R83: the two directions a scan-code sequence is built for. -/
inductive Direction where
  | press
  | release
  deriving DecidableEq, Repr, Inhabited

end Sys2Proof
end

