-- ==== Sys2Proof/Machine/Flags.lean ====
section
/-!
DEFINITION. The single-bit computations of the engine (spec/30_encoding.md rules R72, R76): the odd-parity bit and its
running accumulator, the shift register of `transmit` and the bit assembly of `receive`.
-/

namespace Sys2Proof.Machine

/-- R72, R122: the accumulator's starting value. -/
def parStart : Bool := true

/-- R72, R124: `par <- par ^ v`. -/
def parStep (par v : Bool) : Bool := par ^^ v

/-- R72: `P(b) = 1 ^ b[0] ^ ... ^ b[7]`. -/
def parity (b : Byte) : Bool :=
  true ^^ b.getLsbD 0 ^^ b.getLsbD 1 ^^ b.getLsbD 2 ^^ b.getLsbD 3 ^^ b.getLsbD 4 ^^ b.getLsbD 5 ^^ b.getLsbD 6
    ^^ b.getLsbD 7

/-- R124: `v <- sh[0]`, the bit a data cell presents. -/
def shiftBit (sh : Byte) : Bool := sh.getLsbD 0

/-- R124: `sh <- sh >> 1`, a logical shift, 0 enters at bit 7. -/
def shiftNext (sh : Byte) : Byte := sh >>> 1

/-- R76, R143: `rx[i] <- s`. -/
def rxInsert (rx : Byte) (i : Nat) (v : Bool) : Byte :=
  if v then rx ||| ((1 : Byte) <<< i) else rx &&& ~~~((1 : Byte) <<< i)

/-- R71: the eleven bit values of the frame of `b`, cell 0 first. -/
def frameCells (b : Byte) : List Bool :=
  [false, b.getLsbD 0, b.getLsbD 1, b.getLsbD 2, b.getLsbD 3, b.getLsbD 4, b.getLsbD 5, b.getLsbD 6, b.getLsbD 7,
    parity b, true]

end Sys2Proof.Machine
end

