-- ==== Sys2Proof/Config.lean ====
section
/-!
DEFINITION. What the spec fixes by value (spec/00_scope.md rule R8), what it leaves to the implementation as a named
parameter (rules R9, R10), and the free values: what the world outside the engine does where no script says it.
-/

namespace Sys2Proof

/-! ### Fixed by the source (R8) -/

/-- R8: capacity of the Pressed-Key Registry. -/
def nSlots : Nat := 6
/-- R8: clock half-period in microseconds; no rule depends on the value (R290). -/
def tHalf : Nat := 20
/-- R8: full clock period, twice the half-period. -/
def tFull : Nat := 2 * tHalf
/-- R8: acknowledgment window in microseconds. Only that it is finite may be used, so no definition reads it. -/
def tAckWin : Nat := 2000
/-- R8: bound of the start-bit wait in microseconds. Only that it is finite may be used, so no definition reads it. -/
def tStart : Nat := 500000
/-- R8: bits of a frame. -/
def frameBits : Nat := 11
/-- R8: the break-code byte. -/
def breakCode : Byte := 0xF0
/-- R8: the extended-key lead byte, also the Keycode high byte that selects it. -/
def extByte : Byte := 0xE0
/-- R8: the Keycode high byte that selects a hardcoded sequence. -/
def specialHi : Byte := 0xFF
/-- R8: the Keycode high byte of a one-byte scan code. -/
def plainHi : Byte := 0x00
/-- R8: first identity byte of get-device-id. -/
def id0 : Byte := 0xAB
/-- R8: second identity byte of get-device-id. -/
def id1 : Byte := 0x83
/-- R8: Print Screen press sequence. -/
def seqPrtscPressBytes : List Byte := [0xE0, 0x12, 0xE0, 0x7C]
/-- R8: Print Screen release sequence. -/
def seqPrtscReleaseBytes : List Byte := [0xE0, 0xF0, 0x7C, 0xE0, 0xF0, 0x12]
/-- R8: Pause press sequence. -/
def seqPausePressBytes : List Byte := [0xE1, 0x14, 0x77, 0xE1, 0xF0, 0x14, 0xF0, 0x77]
/-- R83: Pause has no release sequence; the spec reads this as the empty list (D20). -/
def seqPauseReleaseBytes : List Byte := []
/-- R8: Keycode of key A. -/
def keyA : Keycode := 0x001C

/-! ### Parameters of an implementation (R9, R10) -/

/-- The parameters the spec names and leaves open. One value of this type is one implementation; the machine's state
carries it unchanged, so that a statement about every state is a statement about every implementation. -/
structure Config where
  cmdReset : Byte
  cmdResend : Byte
  cmdSetDefaults : Byte
  cmdDisable : Byte
  cmdEnable : Byte
  cmdSetTypematic : Byte
  cmdGetId : Byte
  cmdSetScancodeSet : Byte
  cmdEcho : Byte
  cmdSetLeds : Byte
  ackByte : Byte
  batOk : Byte
  keyNone : Keycode
  selPrtsc : Byte
  selPause : Byte
  enabledReset : Bool
  ack2OnTimeout : Bool
  tSu : Nat
  tRxLead : Nat
  tGap : Nat
  fSys : Nat
  syncStages : Nat
  deriving DecidableEq, Repr, Inhabited

/-- R9, R10: the default of every parameter. `enabledReset`, `selPrtsc`, `selPause`, `fSys` and `syncStages` have no
default in the spec: 0x01, 0x02 and `false` are the values its test vectors use (log entries 1, 2, 3). -/
def Config.default : Config where
  cmdReset := 0xFF
  cmdResend := 0xFE
  cmdSetDefaults := 0xF6
  cmdDisable := 0xF5
  cmdEnable := 0xF4
  cmdSetTypematic := 0xF3
  cmdGetId := 0xF2
  cmdSetScancodeSet := 0xF0
  cmdEcho := 0xEE
  cmdSetLeds := 0xED
  ackByte := 0xFA
  batOk := 0xAA
  keyNone := 0x0000
  selPrtsc := 0x01
  selPause := 0x02
  enabledReset := false
  ack2OnTimeout := true
  tSu := 0
  tRxLead := 0
  tGap := 0
  fSys := 0
  syncStages := 0

/-- The ten command codes, in the order of the table of R86. -/
def Config.commandCodes (c : Config) : List Byte :=
  [c.cmdReset, c.cmdResend, c.cmdSetDefaults, c.cmdDisable, c.cmdEnable, c.cmdSetTypematic, c.cmdGetId,
    c.cmdSetScancodeSet, c.cmdEcho, c.cmdSetLeds]

/-- The only laws the spec gives of the parameters: R9, the ten command codes are pairwise distinct; R10, the two
selectors are distinct and neither special Keycode is `KEY_NONE`. -/
def Config.wf (c : Config) : Bool :=
  decide c.commandCodes.Nodup && decide (c.selPrtsc ≠ c.selPause)
    && decide (specialHi ++ c.selPrtsc ≠ c.keyNone) && decide (specialHi ++ c.selPause ≠ c.keyNone)

/-! ### The world outside the engine -/

/-- What the engine's inputs are at one step: the host's two driver states (R40), how many unmet samples a bounded wait
entered now takes before its bound runs out (R62: any number, always finite, U15), the reset input (R260) and the
client's request port (R250). -/
structure Pins where
  hclk : Drive
  hdat : Drive
  bound : Nat
  rst : Bool
  reqValid : Bool
  reqOp : BitVec 2
  reqKey : Keycode
  deriving DecidableEq, Repr, Inhabited

/-- A quiet world: the host drives nothing, no reset, no request, and a bounded wait runs out at its first unmet
sample. -/
def Pins.quiet : Pins :=
  { hclk := .rel, hdat := .rel, bound := 0, rst := false, reqValid := false, reqOp := 0, reqKey := 0 }

/-- Free value (U7, U15): what the inputs are at the n-th step that no script describes. It has no body, so
nothing can be proved of it. -/
opaque Config.freePins : Nat → Pins

end Sys2Proof
end

