-- ==== Sys2Proof/Machine/Bits.lean ====
section
/-!
DEFINITION. Bit fields and byte order: the two halves of a Keycode, the coding of a bit on a line, and the
little-endian layout in which the opcode table numbers the bits of a word.
-/

namespace Sys2Proof.Machine

/-- R11, R55: `hi(k) = k[15:8]`. -/
def hi (k : Keycode) : Byte := k.extractLsb' 8 8

/-- R11, R55: `lo(k) = k[7:0]`. -/
def lo (k : Keycode) : Byte := k.extractLsb' 0 8

/-- R77: the Keycode with the given high and low byte. -/
def mkKey (h l : Byte) : Keycode := h ++ l

/-- R74: writing bit value 1 on a line is not driving it, writing 0 is driving it low. -/
def driveOfBit (v : Bool) : Drive := if v then .rel else .drvLow

/-- R74: a sampled `HIGH` is bit value 1, a sampled `LOW` is 0. -/
def bitOfLevel (l : Level) : Bool :=
  match l with
  | .high => true
  | .low => false

/-- The `n` bytes of a number, byte 0 holding bits 7..0: the opcode table's numbering of an instruction's bits. -/
def bytesOfNat : Nat → Nat → List Byte
  | 0, _ => []
  | n + 1, w => BitVec.ofNat 8 w :: bytesOfNat n (w / 256)

/-- The number whose bytes, byte 0 first, are the list. -/
def natOfBytes : List Byte → Nat
  | [] => 0
  | b :: bs => b.toNat + 256 * natOfBytes bs

/-- Byte `n` of a list; an operand byte the opcode table gives no bits is zero. -/
def byteAt (bs : List Byte) (n : Nat) : Byte := bs.getD n 0

end Sys2Proof.Machine
end

