-- ==== Sys2Proof/Syntax.lean ====
section
/-!
DEFINITION. The operation set as syntax: one constructor per row of spec/opcode_table.json (rule R13: the analogue of
an instruction is an operation; the analogue of an opcode is a command byte, a Keycode's high byte or a request code).
-/

namespace Sys2Proof

/-- The formats of R70 and the labels of the table's format column. Which format a word has is known from where it
stands (the host's line, the client's port, the sequencer), never from its bits: R87, "a byte received as a parameter
is never decoded". `param8` is HOSTCMD8 in the place of a parameter byte. -/
inductive Format where
  | hostCmd8
  | param8
  | resp8
  | frameD2H
  | frameH2D
  | keycode16
  | byteSeq
  | req18
  | opId4
  | pseudo
  deriving DecidableEq, Repr, Inhabited

/-- One constructor per row of the opcode table, in the table's order. -/
inductive Instr where
  -- HOSTCMD8 (R85 to R87)
  | reset
  | resend
  | setDefaults
  | disableReporting
  | enableReporting
  | setTypematicRate
  | getDeviceId
  | setScanCodeSet
  | echo
  | setResetLeds
  | unknownCommand (cmd : Byte)
  | parameterByte (v : Byte)
  -- RESP8 (R88)
  | ackReply
  | selfTestPassed
  | identityByte0
  | identityByte1
  | echoReply
  -- FRAME_D2H, FRAME_H2D (R71, R73)
  | frameDeviceToHost (b : Byte)
  | frameHostToDevice (b : Byte) (p : Bool)
  -- KEYCODE16 (R78, R79)
  | keycodePlain (l : Byte)
  | keycodeExtended (l : Byte)
  | keycodeSpecialPrtsc
  | keycodeSpecialPause
  | keycodeNone
  | keycodeReserved (k : Keycode)
  -- BYTESEQ (R80 to R83)
  | seqPlainPress (l : Byte)
  | seqExtendedPress (l : Byte)
  | seqPlainRelease (l : Byte)
  | seqExtendedRelease (l : Byte)
  | seqPrtscPress
  | seqPrtscRelease
  | seqPausePress
  | seqPauseRelease
  -- REQ18 (R89)
  | poll
  | press (k : Keycode)
  | release (k : Keycode)
  | releaseAll
  -- OPID4 (R90)
  | opPoll
  | opPress (k : Keycode)
  | opRelease (k : Keycode)
  | opReleaseAll
  | opHandleCommand (cmd : Byte)
  | opAck
  | opTransmit (b : Byte)
  | opReceive
  | opLineRelease (l : Line)
  | opAssertLow (l : Line)
  | opLineRead (l : Line)
  | opDelay (t : Nat)
  -- PSEUDO (R92)
  | opSendUntilOk (b : Byte)
  | opSendSequence (bs : List Byte)
  | opClockCycle
  deriving DecidableEq, Repr

/-- A word as it stands somewhere: its format and its bytes, byte 0 the least significant. -/
structure TableWord where
  fmt : Format
  bytes : List Byte
  deriving DecidableEq, Repr

end Sys2Proof
end

