-- ==== Sys2Proof/Machine/Operands.lean ====
section
/-!
DEFINITION. Operand forms: the classes of a Keycode (R78, R79), the scan-code sequence built from it (R80 to R84), and
the command code table (R86).
-/

namespace Sys2Proof.Machine

/-- R78, R79: the classes of a 16-bit Keycode. -/
inductive KeyClass where
  | none
  | plain
  | extended
  | prtsc
  | pause
  | reserved
  deriving DecidableEq, Repr

/-- R78: the class of a Keycode. `KEY_NONE` is tested first, since it "takes precedence over PLAIN". -/
def classify (c : Config) (k : Keycode) : KeyClass :=
  if k = c.keyNone then .none
  else if hi k = specialHi then
    if lo k = c.selPrtsc then .prtsc else if lo k = c.selPause then .pause else .reserved
  else if hi k = plainHi then .plain
  else if hi k = extByte then .extended
  else .reserved

/-- R79: `wf(k)` holds when k is in class `PLAIN`, `EXTENDED`, `SPECIAL_PRTSC` or `SPECIAL_PAUSE`. -/
def wfKey (c : Config) (k : Keycode) : Bool :=
  match classify c k with
  | .plain | .extended | .prtsc | .pause => true
  | .none | .reserved => false

/-- R80 to R83: the bytes of a Keycode in a direction. A reserved value and the sentinel are no keys; nothing ever asks
for their sequence (R194 K0 and K1, R199 K10 and K11). -/
def seqOf (c : Config) (k : Keycode) (d : Direction) : List Byte :=
  match classify c k, d with
  | .plain, .press => [lo k]
  | .plain, .release => [breakCode, lo k]
  | .extended, .press => [extByte, lo k]
  | .extended, .release => [extByte, breakCode, lo k]
  | .prtsc, .press => seqPrtscPressBytes
  | .prtsc, .release => seqPrtscReleaseBytes
  | .pause, .press => seqPausePressBytes
  | .pause, .release => seqPauseReleaseBytes
  | .none, _ => []
  | .reserved, _ => []

/-- R86, R160: the instruction a command byte stands for, by match of the whole byte; every byte not listed is
`unknown-command` (R87). -/
def commandOf (c : Config) (cmd : Byte) : Instr :=
  if cmd = c.cmdReset then .reset
  else if cmd = c.cmdResend then .resend
  else if cmd = c.cmdSetDefaults then .setDefaults
  else if cmd = c.cmdDisable then .disableReporting
  else if cmd = c.cmdEnable then .enableReporting
  else if cmd = c.cmdSetTypematic then .setTypematicRate
  else if cmd = c.cmdGetId then .getDeviceId
  else if cmd = c.cmdSetScancodeSet then .setScanCodeSet
  else if cmd = c.cmdEcho then .echo
  else if cmd = c.cmdSetLeds then .setResetLeds
  else .unknownCommand cmd

/-- R87: the byte is none of the ten command codes. -/
def isUnknown (c : Config) (cmd : Byte) : Bool := !c.commandCodes.contains cmd

end Sys2Proof.Machine
end

