-- ==== Sys2Proof/Machine/State.lean ====
section
/-!
DEFINITION. The state of the machine as plain data: the persistent state of R20 (line drivers, registry, flag), the
control state `ctl` of R30 with the transients of R33 and R34 inside its frames, the client's port (R250), the host's
drivers and the other inputs (R40), and the record of what the engine put out (R12, R36).
-/

namespace Sys2Proof.Machine

/-! ### Results (R36, R231) -/

/-- R231, the complete taxonomy. R234: the last four are names of conditions, not values an operation returns. -/
inductive ResultCode where
  | ok
  | collisionClock
  | collisionData
  | timeout
  | unknownCommand
  | tableFull
  | alreadyPressed
  | notPressed
  deriving DecidableEq, Repr

/-- What an operation returns: nothing, the 0/1 of `press` and `release` or the Bool of `poll`, a level, a result code,
or `receive`'s `Ok(byte)`. -/
inductive Ret where
  | unit
  | bit (v : Bool)
  | level (v : Level)
  | code (r : ResultCode)
  | byte (b : Byte)
  deriving DecidableEq, Repr

/-! ### The registry (R23) -/

/-- The six slots, each 16 bits: a Keycode or the sentinel `KEY_NONE`. -/
structure Registry where
  slot0 : Keycode
  slot1 : Keycode
  slot2 : Keycode
  slot3 : Keycode
  slot4 : Keycode
  slot5 : Keycode
  deriving DecidableEq, Repr

/-! ### Control state (R30): a stack of frames (operation, step label, locals) -/

/-- The four events of a clock cycle (R75): `clk` low, wait, `clk` released, wait. -/
inductive CyclePhase where
  | fall
  | low
  | rise
  | high
  deriving DecidableEq, Repr

/-- The events of a transmitted bit cell (R123 to R126): data, set-up delay, clock cycle. -/
inductive CellPhase where
  | data
  | setup
  | cycle (p : CyclePhase)
  deriving DecidableEq, Repr

/-- The bus events of `transmit` (R121 to R127), each the call of a line primitive (R31). `left` is what is left of the
acknowledgment window, in unmet samples. -/
inductive TxBus where
  | t0
  | t1
  | t3 (c : CellPhase)
  | t4 (c : CellPhase)
  | t5 (c : CellPhase)
  | t6 (c : CellPhase)
  | t7Low (left : Nat)
  | t7High (left : Nat)
  deriving DecidableEq, Repr

/-- The steps of `transmit` (R121 to R128); `t7` enters the window, `fail` returns a Collision. -/
inductive TxLabel where
  | bus (e : TxBus)
  | t2
  | t7
  | t8
  | fail (r : ResultCode)
  deriving DecidableEq, Repr

/-- R33: the locals of `transmit`, with the byte it was called for. -/
structure TxLocals where
  b : Byte
  sh : Byte
  par : Bool
  i : Nat
  deriving DecidableEq, Repr

/-- The events of a read cycle (R143). -/
inductive ReadPhase where
  | fall
  | low
  | rise
  | sample
  | high
  deriving DecidableEq, Repr

/-- The bus events of `receive` (R141 to R147), each the call of a line primitive (R31). `left` is what is left of the
start-bit wait, in unmet samples. -/
inductive RxBus where
  | rx0 (left : Nat)
  | rx1
  | rx1Lead
  | rx3 (p : ReadPhase)
  | rx4 (p : CyclePhase)
  | rx5 (p : CyclePhase)
  | rx6Assert
  | rx6 (p : CyclePhase)
  | rx6Release
  deriving DecidableEq, Repr

/-- The steps of `receive` (R141 to R148); `rx0` enters the start-bit wait, `rx0Out` returns its Timeout. -/
inductive RxLabel where
  | rx0
  | bus (e : RxBus)
  | rx0Out
  | rx2
  | rx7
  deriving DecidableEq, Repr

/-- R33: the locals of `receive`; `par` is computed and never used (R144). -/
structure RxLocals where
  rx : Byte
  par : Bool
  i : Nat
  deriving DecidableEq, Repr

/-- One action of a command's body (R163 to R176): `call ack()`, `call send_until_ok(b)`, `call receive()` for the
parameter byte, a write of `enabled`, `emit log_unknown(cmd)`. -/
inductive HandlerAction where
  | ack
  | send (b : Byte)
  | receiveParam
  | setEnabled (v : Bool)
  | logUnknown
  deriving DecidableEq, Repr

/-- The steps of `handle_command`: H0, or what is left of the body H0 went to. -/
inductive HandlerLabel where
  | h0
  | body (acts : List HandlerAction)
  deriving DecidableEq, Repr

/-- A0/S0 (call `transmit`) or A2/S2 (return); A1/S1, the test, is made as `transmit` returns (R161, R162). -/
inductive RetryLabel where
  | s0
  | s2
  deriving DecidableEq, Repr

/-- The steps of `send_sequence` (R190); `j` is the index into the sequence, `l3Send` the `transmit` call of L3. -/
inductive LoopLabel where
  | l0
  | l1
  | l2 (j : Nat)
  | l3 (j : Nat)
  | l3Send (j : Nat)
  deriving DecidableEq, Repr

/-- The steps of `press` and `release`: K1 to K3 or K10, K11; the loop K4 or K12; the slot write K5 or K13; the return
K6 or K14. -/
inductive KeyLabel where
  | entry
  | loop (l : LoopLabel)
  | write
  | finish
  deriving DecidableEq, Repr

/-- The bus events of `poll` (R221, R222), each a call of `line_read`; `p0Wait` is the clock-release wait of P0. -/
inductive PollBus where
  | p0
  | p0Wait
  | p1
  deriving DecidableEq, Repr

/-- The steps of `poll` (R221 to R223); `out v` is the return of `v`. -/
inductive PollLabel where
  | bus (e : PollBus)
  | p2
  | p3 (b : Byte)
  | out (v : Bool)
  deriving DecidableEq, Repr

/-- R30: a frame (operation, step, locals). `releaseAll n` has slots n-1 down to 0 still to visit; `clockCycle none` has
made its four events and returns. -/
inductive Frame where
  | poll (l : PollLabel)
  | press (k : Keycode) (seq : List Byte) (l : KeyLabel)
  | release (k : Keycode) (seq : List Byte) (l : KeyLabel)
  | releaseAll (n : Nat)
  | handleCommand (cmd : Byte) (l : HandlerLabel)
  | ack (l : RetryLabel)
  | transmit (v : TxLocals) (l : TxLabel)
  | receive (v : RxLocals) (l : RxLabel)
  | lineRelease (l : Line)
  | assertLow (l : Line)
  | lineRead (l : Line)
  | delay (t : Nat)
  | sendUntilOk (b : Byte) (l : RetryLabel)
  | sendSequence (seq : List Byte) (l : LoopLabel)
  | clockCycle (p : Option CyclePhase)
  deriving DecidableEq, Repr

/-! ### What the engine puts out -/

/-- The record of bus events and emitted events (R12, R62): a drive with the wire levels right after it, a sample, a
delay, `log_unknown` (R176), and every return with the frame that returned. -/
inductive Event where
  | drove (l : Line) (d : Drive) (clk dat : Level)
  | sampled (l : Line) (v : Level)
  | delayed (t : Nat)
  | logUnknown (b : Byte)
  | returned (f : Frame) (r : Ret)
  deriving DecidableEq, Repr

/-! ### The state -/

/-- Everything the spec gives the machine. `busy` (R250) is `ctl ≠ []` and is not stored a second time. -/
structure State where
  /-- the implementation's parameters (R9, R10), never written -/
  cfg : Config
  /-- R21: the device's driver of the clock line -/
  drvClk : Drive
  /-- R21: the device's driver of the data line -/
  drvDat : Drive
  /-- R23: the Pressed-Key Registry -/
  slots : Registry
  /-- R26: the Reporting Enabled flag; `enabled_o` shows it -/
  enabled : Bool
  /-- R30: the sequencer's stack, top frame first; empty exactly when the engine is idle -/
  ctl : List Frame
  /-- the result of the operation that returned last (R12: what `call` binds) -/
  ret : Ret
  /-- R250: `done`, set for the step after an external operation has returned -/
  done : Bool
  /-- R250: `result` -/
  result : Bool
  /-- the inputs at this step: the host's drivers (R40), `rst` (R260), the request port (R250), the bound of a bounded
  wait entered now (R62) -/
  env : Pins
  /-- the inputs at the steps to come, as far as they are described -/
  script : List Pins
  /-- how many steps beyond the script have taken a free value -/
  envCount : Nat
  /-- a word presented to the idle sequencer other than through the request port (log entry 6) -/
  inject : Option TableWord
  /-- what the engine has put out, newest first -/
  events : List Event
  deriving DecidableEq, Repr

/-- The reasons to stop with a fault: there are none. spec/93_implementation_defined.md: "There is no behaviour the
spec treats as `fault`: the hardware has no trap" (R230). Nothing raises one; that is safe. -/
inductive Fault where
  deriving DecidableEq, Repr

/-- The reasons an instruction has no meaning. -/
inductive Refusal where
  /-- an instruction without a meaning yet; no arm of `exec` says it. Safe. -/
  | notModelled (mnemonic : String)
  /-- raised by `press`, `op.press` and a reserved Keycode under the request code PRESS: R79, R207, U1, "a model refuses
  `press` … of such a value (the operation has no meaning: toward unprovable)". Safe. -/
  | reservedKeycode (k : Keycode)
  /-- raised by the external operations while an operation is in progress: R32, U9, "a request made while the engine is
  busy is outside the source; the model refuses it". A request at the port of a busy engine is not raised as this: it
  is not accepted and has no effect (R250). Safe. -/
  | engineBusy
  /-- raised by the step when a word presented to the idle sequencer is no instruction of its format. Safe. -/
  | undecodable (w : TableWord)
  deriving DecidableEq, Repr

/-- R261: an empty registry. -/
def Registry.empty (c : Config) : Registry :=
  { slot0 := c.keyNone, slot1 := c.keyNone, slot2 := c.keyNone, slot3 := c.keyNone, slot4 := c.keyNone,
    slot5 := c.keyNone }

/-- R261: the engine right after reset, for any parameters: registry empty, flag at `ENABLED_RESET`, lines released,
idle, nothing transmitted (R262). The host's drivers are not the engine's; the model starts them released (log
entry 7). -/
def State.resetWith (c : Config) : State where
  cfg := c
  drvClk := .rel
  drvDat := .rel
  slots := Registry.empty c
  enabled := c.enabledReset
  ctl := []
  ret := .unit
  done := false
  result := false
  env := Pins.quiet
  script := []
  envCount := 0
  inject := none
  events := []

/-- The machine right after reset with the default parameters. -/
def State.reset : State := State.resetWith Config.default

end Sys2Proof.Machine
end

