-- ==== Sys2Proof/Machine/Phases.lean ====
section
/-!
DEFINITION. The bus events of the operations, in order: at each event the line primitive that is called (R31: `transmit`
and `receive` call all four, `poll` calls `line_read` only, R106) and, once it has returned, the step that follows. The
clock cycle (R75), the bit cells of `transmit` (spec/41_transmit.md), the read cycles of `receive`
(spec/42_receive.md), the tests of `poll` (spec/45_poll.md).
-/

namespace Sys2Proof.Machine

/-- R103: `BusDrive(l, d)` is `line_release(l)` for `REL` and `assert_low(l)` for `DRV_LOW`. -/
def busDrive (l : Line) (d : Drive) : Frame :=
  match d with
  | .rel => .lineRelease l
  | .drvLow => .assertLow l

/-! ### The clock cycle (R75) -/

/-- R75: `clk` driven low, half a period, `clk` released, half a period. -/
def CyclePhase.primitive (p : CyclePhase) : Frame :=
  match p with
  | .fall => .assertLow .clk
  | .low => .delay tHalf
  | .rise => .lineRelease .clk
  | .high => .delay tHalf

/-- The phase after a phase; after the last the cycle is over. -/
def CyclePhase.succ (p : CyclePhase) : Option CyclePhase :=
  match p with
  | .fall => some .low
  | .low => some .rise
  | .rise => some .high
  | .high => none

/-! ### `transmit` -/

/-- R123 to R126: a bit cell that presents the bit value `v`: `dat`, `delay(T_SU)`, then the clock cycle. -/
def CellPhase.primitive (c : Config) (v : Bool) (p : CellPhase) : Frame :=
  match p with
  | .data => busDrive .dat (driveOfBit v)
  | .setup => .delay c.tSu
  | .cycle q => q.primitive

/-- The event after an event of a bit cell; after the last the cell is over. -/
def CellPhase.succ (p : CellPhase) : Option CellPhase :=
  match p with
  | .data => some .setup
  | .setup => some (.cycle .fall)
  | .cycle q => q.succ.map .cycle

/-- R124: the locals after a data cell, `par <- par ^ v; sh <- sh >> 1`, and the next index. -/
def TxLocals.next (v : TxLocals) : TxLocals :=
  { v with sh := shiftNext v.sh, par := parStep v.par (shiftBit v.sh), i := v.i + 1 }

/-- Where a data cell goes when it has ended: the next data cell, after the eighth the parity cell. The counter is left at
8 then, which nothing reads: DESIGN CHOICE (log entry 31). -/
def TxLocals.afterCell (v : TxLocals) : Frame :=
  if v.i < 7 then .transmit v.next (.bus (.t4 .data)) else .transmit v.next (.bus (.t5 .data))

/-- The primitive each bus event of `transmit` calls. -/
def TxBus.primitive (c : Config) (v : TxLocals) (e : TxBus) : Frame :=
  match e with
  -- R121: the idle check, clock first
  | .t0 => .lineRead .clk
  | .t1 => .lineRead .dat
  -- R123: start = 0
  | .t3 p => p.primitive c false
  -- R124: d0..d7
  | .t4 p => p.primitive c (shiftBit v.sh)
  -- R125: parity
  | .t5 p => p.primitive c v.par
  -- R126: stop = 1
  | .t6 p => p.primitive c true
  -- R127: the acknowledgment window
  | .t7Low _ => .lineRead .clk
  | .t7High _ => .lineRead .clk

/-- R62, R127: the wait with `left` unmet samples to spend, after one of them: the next sample, or expired. -/
def spend (left : Nat) (again : Nat → TxLabel) : TxLabel :=
  match left with
  | 0 => .t8
  | n + 1 => again n

/-- What follows a bus event of `transmit` whose primitive has returned `r`. -/
def TxBus.deliver (v : TxLocals) (r : Ret) (e : TxBus) : Frame :=
  match e with
  | .t0 => if r = .level .low then .transmit v (.fail .collisionClock) else .transmit v (.bus .t1)
  | .t1 => if r = .level .low then .transmit v (.fail .collisionData) else .transmit v .t2
  | .t3 p =>
    match p.succ with
    | some q => .transmit v (.bus (.t3 q))
    | none => .transmit v (.bus (.t4 .data))
  | .t4 p =>
    match p.succ with
    | some q => .transmit v (.bus (.t4 q))
    | none => v.afterCell
  | .t5 p =>
    match p.succ with
    | some q => .transmit v (.bus (.t5 q))
    | none => .transmit v (.bus (.t6 .data))
  | .t6 p =>
    match p.succ with
    | some q => .transmit v (.bus (.t6 q))
    | none => .transmit v .t7
  -- R127: one budget for the whole pulse, low, then high again
  | .t7Low left =>
    if r = .level .low then .transmit v (.bus (.t7High left))
    else .transmit v (spend left (fun n => .bus (.t7Low n)))
  | .t7High left =>
    if r = .level .high then .transmit v .t8 else .transmit v (spend left (fun n => .bus (.t7High n)))

/-! ### `receive` -/

/-- R143: `clk` low, half a period, `clk` released, the sample, half a period. -/
def ReadPhase.primitive (p : ReadPhase) : Frame :=
  match p with
  | .fall => .assertLow .clk
  | .low => .delay tHalf
  | .rise => .lineRelease .clk
  | .sample => .lineRead .dat
  | .high => .delay tHalf

/-- R143: the locals after a sample, `rx[i] <- s; par <- par ^ s`. -/
def RxLocals.take (v : RxLocals) (bit : Bool) : RxLocals :=
  { v with rx := rxInsert v.rx v.i bit, par := parStep v.par bit }

/-- Where a read cycle goes when it has ended: the next one, after the eighth the parity pulse. The counter is left at 8
then, which nothing reads: DESIGN CHOICE (log entry 31). -/
def RxLocals.afterRead (v : RxLocals) : Frame :=
  if v.i < 7 then .receive { v with i := v.i + 1 } (.bus (.rx3 .fall))
  else .receive { v with i := v.i + 1 } (.bus (.rx4 .fall))

/-- The primitive each bus event of `receive` calls. -/
def RxBus.primitive (c : Config) (e : RxBus) : Frame :=
  match e with
  -- R141: the start-bit wait, bounded
  | .rx0 _ => .lineRead .dat
  -- R142: the clock-high wait, unbounded
  | .rx1 => .lineRead .clk
  | .rx1Lead => .delay c.tRxLead
  -- R143: eight read cycles
  | .rx3 p => p.primitive
  -- R145, R146: the parity and the stop pulse, no sample
  | .rx4 p => p.primitive
  | .rx5 p => p.primitive
  -- R147: the acknowledgment
  | .rx6Assert => .assertLow .dat
  | .rx6 p => p.primitive
  | .rx6Release => .lineRelease .dat

/-- What follows a bus event of `receive` whose primitive has returned `r`. -/
def RxBus.deliver (v : RxLocals) (r : Ret) (e : RxBus) : Frame :=
  match e with
  | .rx0 left =>
    if r = .level .low then .receive v (.bus .rx1)
    else
      match left with
      | 0 => .receive v .rx0Out
      | n + 1 => .receive v (.bus (.rx0 n))
  | .rx1 => if r = .level .high then .receive v (.bus .rx1Lead) else .receive v (.bus .rx1)
  | .rx1Lead => .receive v .rx2
  | .rx3 .fall => .receive v (.bus (.rx3 .low))
  | .rx3 .low => .receive v (.bus (.rx3 .rise))
  | .rx3 .rise => .receive v (.bus (.rx3 .sample))
  | .rx3 .sample => .receive (v.take (decide (r = .level .high))) (.bus (.rx3 .high))
  | .rx3 .high => v.afterRead
  | .rx4 p =>
    match p.succ with
    | some q => .receive v (.bus (.rx4 q))
    | none => .receive v (.bus (.rx5 .fall))
  | .rx5 p =>
    match p.succ with
    | some q => .receive v (.bus (.rx5 q))
    | none => .receive v (.bus .rx6Assert)
  | .rx6Assert => .receive v (.bus (.rx6 .fall))
  | .rx6 p =>
    match p.succ with
    | some q => .receive v (.bus (.rx6 q))
    | none => .receive v (.bus .rx6Release)
  | .rx6Release => .receive v .rx7

/-! ### `poll` -/

/-- The line each test of `poll` reads: the clock, then the data (R221, R222). -/
def PollBus.primitive (e : PollBus) : Frame :=
  match e with
  | .p0 => .lineRead .clk
  | .p0Wait => .lineRead .clk
  | .p1 => .lineRead .dat

/-- What follows a test of `poll` whose `line_read` has returned `r`: the clock-release wait, unbounded, then the data
test, made on every call. -/
def PollBus.deliver (r : Ret) (e : PollBus) : PollLabel :=
  match e with
  | .p0 => if r = .level .high then .bus .p1 else .bus .p0Wait
  | .p0Wait => if r = .level .high then .bus .p1 else .bus .p0Wait
  | .p1 => if r = .level .low then .p2 else .out false

end Sys2Proof.Machine
end

