-- ==== Sys2Proof/Machine/Ops.lean ====
section
/-!
DEFINITION. The named operations over the state: the wire and the line primitives (R41, R101 to R105), the registry
(R193), time and the inputs (R62), the stack of frames with call and return (R30, R12), and what stands here for taking
an exception and returning from one: a result code handed to the caller (R230), the abandonment of a key sequence
(R239) and its restart (R240).
-/

namespace Sys2Proof.Machine

/-! ### The wire (R41) -/

/-- R41: LOW if either end drives the line low, else HIGH. -/
def wireLevel (dev host : Drive) : Level :=
  match dev, host with
  | .rel, .rel => .high
  | .rel, .drvLow => .low
  | .drvLow, .rel => .low
  | .drvLow, .drvLow => .low

/-- The device's driver of a line. -/
def State.drv (s : State) (l : Line) : Drive :=
  match l with
  | .clk => s.drvClk
  | .dat => s.drvDat

/-- The host's driver of a line (R40). -/
def State.hdrv (s : State) (l : Line) : Drive :=
  match l with
  | .clk => s.env.hclk
  | .dat => s.env.hdat

/-- R41: the wire level of a line; also the input pin `l_i` (R100). -/
def State.level (s : State) (l : Line) : Level := wireLevel (s.drv l) (s.hdrv l)

/-- R100: the output pin `l_low_o`, 1 exactly when the device drives the line low. -/
def State.lowO (s : State) (l : Line) : Bool := decide (s.drv l = .drvLow)

/-- R36: the output `enabled_o`. -/
def State.enabledO (s : State) : Bool := s.enabled

/-- R250: `busy`; R30: the stack is empty exactly when the engine is idle. -/
def State.busy (s : State) : Bool := !s.ctl.isEmpty

/-! ### Output record -/

/-- R12: `emit e`. -/
def State.emit (s : State) (e : Event) : State := { s with events := e :: s.events }

/-! ### Line primitives -/

/-- Write the device's driver of a line. -/
def State.setDrv (s : State) (l : Line) (d : Drive) : State :=
  match l with
  | .clk => { s with drvClk := d }
  | .dat => { s with drvDat := d }

/-- R103: `BusDrive(l, d)`, which is `line_release` (R101) for `REL` and `assert_low` (R102) for `DRV_LOW`. It takes
effect on the wire at once (R62). -/
def State.drive (s : State) (l : Line) (d : Drive) : State :=
  let s' := s.setDrv l d
  s'.emit (.drove l d (s'.level .clk) (s'.level .dat))

/-- R104: `BusSample(l)` as an event; the value is `s.level l`, no state but the record changes (R61). -/
def State.sample (s : State) (l : Line) : State := s.emit (.sampled l (s.level l))

/-- R105: `delay(t)`: engine state unchanged. That the host may act meanwhile is `passTime`. -/
def State.wait (s : State) (t : Nat) : State := s.emit (.delayed t)

/-! ### Time and the inputs (R62) -/

/-- The inputs of the next step: the next described ones, or a free value. -/
def State.passTime (s : State) : State :=
  match s.script with
  | p :: ps => { s with env := p, script := ps }
  | [] => { s with env := Config.freePins s.envCount, envCount := s.envCount + 1 }

/-! ### The registry (R23, R193) -/

/-- Read slot `i`, i in 0..5. -/
def Registry.get (r : Registry) (i : Nat) : Keycode :=
  match i with
  | 0 => r.slot0
  | 1 => r.slot1
  | 2 => r.slot2
  | 3 => r.slot3
  | 4 => r.slot4
  | _ => r.slot5

/-- Write slot `i`, i in 0..5. -/
def Registry.set (r : Registry) (i : Nat) (k : Keycode) : Registry :=
  match i with
  | 0 => { r with slot0 := k }
  | 1 => { r with slot1 := k }
  | 2 => { r with slot2 := k }
  | 3 => { r with slot3 := k }
  | 4 => { r with slot4 := k }
  | _ => { r with slot5 := k }

/-- The least i in 0..5 with `slot[i] = k`, or none: R193 `find(k)`. -/
def Registry.find (r : Registry) (k : Keycode) : Option Nat :=
  if r.slot0 = k then some 0
  else if r.slot1 = k then some 1
  else if r.slot2 = k then some 2
  else if r.slot3 = k then some 3
  else if r.slot4 = k then some 4
  else if r.slot5 = k then some 5
  else none

/-- R193: `free()`, the least i with `slot[i] = KEY_NONE`, or none. -/
def Registry.free (r : Registry) (c : Config) : Option Nat := r.find c.keyNone

/-- The six slots in order. -/
def Registry.toList (r : Registry) : List Keycode := [r.slot0, r.slot1, r.slot2, r.slot3, r.slot4, r.slot5]

/-- R194 K2, K3: why a `press` of a key does nothing, if it does nothing; presence is tested before capacity (D27). -/
def pressCheck (c : Config) (r : Registry) (k : Keycode) : Option ResultCode :=
  if r.find k ≠ none then some .alreadyPressed
  else if r.free c = none then some .tableFull
  else none

/-- R199 K10, K11: why a `release` of a key does nothing, if it does nothing. -/
def releaseCheck (c : Config) (r : Registry) (k : Keycode) : Option ResultCode :=
  if k = c.keyNone then some .notPressed
  else if r.find k = none then some .notPressed
  else none

/-- R194 K5: `slot[free()] <- k`. -/
def State.record (s : State) (k : Keycode) : State :=
  match s.slots.free s.cfg with
  | some i => { s with slots := s.slots.set i k }
  | none => s

/-- R199 K13: `slot[find(k)] <- KEY_NONE`. -/
def State.clear (s : State) (k : Keycode) : State :=
  match s.slots.find k with
  | some i => { s with slots := s.slots.set i s.cfg.keyNone }
  | none => s

/-! ### Abandonment and restart (R239, R240): what stands for taking a trap and for returning from it -/

/-- R239: where a key sequence goes when the host intervenes: to L0. Nothing is saved, the index is dropped. -/
def abandon : LoopLabel := .l0

/-- R240: where the sequence goes when `poll` at L0 has found nothing to service: to L1, byte 0. -/
def restart : LoopLabel := .l1

/-- R190: what the loop does with the result of what it called: `poll` at L0 (true: L0 again; false: L1), `transmit` at
L3 (`Ok`: L4, L2 with the next index; anything else: L0). -/
def LoopLabel.deliver (l : LoopLabel) (r : Ret) : LoopLabel :=
  match l with
  | .l0 => if r = .bit true then abandon else restart
  | .l3Send j => if r = .code .ok then .l2 (j + 1) else abandon
  | .l1 => .l1
  | .l2 j => .l2 j
  | .l3 j => .l3 j

/-! ### Frames: call, goto, return (R12, R30) -/

/-- The locals of a `transmit(b)` at its entry (R33). DESIGN CHOICE (log entry 31): `sh`, `par` and `i` hold 0, 0 and 0
until they are assigned (R122, R124); the spec gives them no value before that. -/
def TxLocals.atEntry (b : Byte) : TxLocals := { b := b, sh := 0, par := false, i := 0 }

/-- The locals of a `receive()` at its entry (R33). DESIGN CHOICE (log entry 31): `rx`, `par` and `i` hold 0, 0 and 0 until
they are assigned (R143); the spec gives them no value before that. -/
def RxLocals.atEntry : RxLocals := { rx := 0, par := false, i := 0 }

/-- A `transmit(b)` at T0. -/
def Frame.newTransmit (b : Byte) : Frame := .transmit (TxLocals.atEntry b) (.bus .t0)

/-- A `poll()` at P0. -/
def Frame.newPoll : Frame := .poll (.bus .p0)

/-- A `receive()` at RX0. -/
def Frame.newReceive : Frame := .receive RxLocals.atEntry .rx0

/-- A `press(k)` at K1; the sequence is computed once, at entry (R65, D22). -/
def Frame.newPress (c : Config) (k : Keycode) : Frame := .press k (seqOf c k .press) .entry

/-- A `release(k)` at K10; the sequence is computed once, at entry (R65, D22). -/
def Frame.newRelease (c : Config) (k : Keycode) : Frame := .release k (seqOf c k .release) .entry

/-- R13: the four operations reachable from outside the block. -/
def Frame.external (f : Frame) : Bool :=
  match f with
  | .poll _ => true
  | .press _ _ _ => true
  | .release _ _ _ => true
  | .releaseAll _ => true
  | _ => false

/-- R90: the operation id of a frame; a pseudo-operation has none. -/
def Frame.opid (f : Frame) : Option Nat :=
  match f with
  | .poll _ => some 1
  | .press _ _ _ => some 2
  | .release _ _ _ => some 3
  | .releaseAll _ => some 4
  | .handleCommand _ _ => some 5
  | .ack _ => some 6
  | .transmit _ _ => some 7
  | .receive _ _ => some 8
  | .lineRelease _ => some 9
  | .assertLow _ => some 10
  | .lineRead _ => some 11
  | .delay _ => some 12
  | .sendUntilOk _ _ => none
  | .sendSequence _ _ => none
  | .clockCycle _ => none

/-- R161 A1, R162 S1: `Ok` ends the loop, everything else (a Collision, or the Timeout `transmit` never returns, R129)
goes back to A0 or S0. -/
def RetryLabel.deliver (l : RetryLabel) (r : Ret) : RetryLabel :=
  match l with
  | .s0 => if r = .code .ok then .s2 else .s0
  | .s2 => .s2

/-- What is left of a command's body when what its first action called has returned `r`: R161, R162, and R173, where a
Timeout of the parameter `receive` ends the command unless `ACK2_ON_TIMEOUT`. -/
def deliverBody (c : Config) (acts : List HandlerAction) (r : Ret) : List HandlerAction :=
  match acts with
  | .ack :: rest => rest
  | .send b :: rest => if r = .code .ok then rest else .send b :: rest
  | .receiveParam :: rest => if r = .code .timeout && !c.ack2OnTimeout then [] else rest
  | .setEnabled v :: rest => .setEnabled v :: rest
  | .logUnknown :: rest => .logUnknown :: rest
  | [] => []

/-- R12, R230: the caller's frame after the operation it called has returned `r`. -/
def Frame.deliver (c : Config) (r : Ret) (f : Frame) : Frame :=
  match f with
  | .transmit v (.bus e) => e.deliver v r
  | .receive v (.bus e) => e.deliver v r
  | .clockCycle (some p) => .clockCycle p.succ
  | .poll (.bus e) => .poll (e.deliver r)
  | .poll .p2 =>
    match r with
    | .byte b => .poll (.p3 b)
    | _ => .poll (.out false)
  | .poll (.p3 _) => .poll (.out true)
  | .press k q (.loop l) => .press k q (.loop (l.deliver r))
  | .release k q (.loop l) => .release k q (.loop (l.deliver r))
  | .sendSequence q l => .sendSequence q (l.deliver r)
  | .handleCommand cmd (.body acts) => .handleCommand cmd (.body (deliverBody c acts r))
  | .ack l => .ack (l.deliver r)
  | .sendUntilOk b l => .sendUntilOk b (l.deliver r)
  | f => f

/-- `goto`: the running frame becomes `f` on top of its callers. -/
def State.goto (s : State) (f : Frame) (callers : List Frame) : State := { s with ctl := f :: callers }

/-- `call`: the running frame waits as `f` and `callee` runs on top of it. -/
def State.callFrom (s : State) (callee f : Frame) (callers : List Frame) : State :=
  { s with ctl := callee :: f :: callers }

/-- R36, R250: the `result` output for a returned value. -/
def resultBit (r : Ret) : Bool :=
  match r with
  | .bit v => v
  | _ => false

/-- `return r`: the running frame `f` is popped and its caller goes on; if it has none the engine is idle, and if it
was an external operation `done` pulses with `result` valid (R250). -/
def State.returnFrom (s : State) (f : Frame) (r : Ret) (callers : List Frame) : State :=
  match callers with
  | g :: gs => { s.emit (.returned f r) with ctl := g.deliver s.cfg r :: gs, ret := r }
  | [] =>
    { s.emit (.returned f r) with
      ctl := [], ret := r, done := f.external, result := if f.external then resultBit r else s.result }

/-! ### Reset (R260 to R263) -/

/-- R261, R263: while `rst` is asserted the operation in progress is abandoned without a result and the engine is in
its reset state. The parameters, the inputs and the record of what was put out are not the engine's. -/
def State.hardReset (s : State) : State :=
  { s with
    drvClk := .rel, drvDat := .rel, slots := Registry.empty s.cfg, enabled := s.cfg.enabledReset, ctl := [],
    ret := .unit, done := false, result := false, inject := none }

/-- An idle engine with no request: time passes, the `done` pulse ends. -/
def State.idle (s : State) : State := ({ s with done := false }).passTime

end Sys2Proof.Machine
end

