-- ==== Sys2Proof/Machine/Command.lean ====
section
/-!
DEFINITION. The Command Protocol (spec/43_command_protocol.md rules R160 to R176): the body of every command as a list
of actions, the dispatch, `ack` and `send_until_ok`.
-/

namespace Sys2Proof.Machine

/-- R163: `ack()`, `send_until_ok(BAT_OK)`, then `enabled <- true`. -/
def bodyReset (c : Config) : List HandlerAction := [.ack, .send c.batOk, .setEnabled true]

/-- R164: ack only. -/
def bodyResend : List HandlerAction := [.ack]

/-- R165: ack only. -/
def bodySetDefaults : List HandlerAction := [.ack]

/-- R166: `enabled <- false`, then ack. -/
def bodyDisable : List HandlerAction := [.setEnabled false, .ack]

/-- R167: `enabled <- true`, then ack. -/
def bodyEnable : List HandlerAction := [.setEnabled true, .ack]

/-- R173: ack; receive and discard one parameter byte; ack again. -/
def bodyParam : List HandlerAction := [.ack, .receiveParam, .ack]

/-- R173, after its `receive` has returned a byte: the byte is discarded, ack again. -/
def bodyAfterParam : List HandlerAction := [.ack]

/-- R169: ack; the two identity bytes. -/
def bodyGetId : List HandlerAction := [.ack, .send id0, .send id1]

/-- R171: the command byte itself, no ack. -/
def bodyEcho (cmd : Byte) : List HandlerAction := [.send cmd]

/-- R176: log, no ack. -/
def bodyUnknown : List HandlerAction := [.logUnknown]

/-- R160, H0: the body a command byte goes to, by match of the whole byte. -/
def handlerBody (c : Config) (cmd : Byte) : List HandlerAction :=
  if cmd = c.cmdReset then bodyReset c
  else if cmd = c.cmdResend then bodyResend
  else if cmd = c.cmdSetDefaults then bodySetDefaults
  else if cmd = c.cmdDisable then bodyDisable
  else if cmd = c.cmdEnable then bodyEnable
  else if cmd = c.cmdSetTypematic then bodyParam
  else if cmd = c.cmdGetId then bodyGetId
  else if cmd = c.cmdSetScancodeSet then bodyParam
  else if cmd = c.cmdEcho then bodyEcho cmd
  else if cmd = c.cmdSetLeds then bodyParam
  else bodyUnknown

/-- One step of `handle_command`. DESIGN CHOICE (log entry 30): a `send_until_ok(b)` of a body is its loop S0, S1 without a
`delay(T_GAP)` between attempts. -/
def stepHandle (cmd : Byte) (l : HandlerLabel) (callers : List Frame) (s : State) : State :=
  match l with
  | .h0 => s.goto (.handleCommand cmd (.body (handlerBody s.cfg cmd))) callers
  | .body [] => s.returnFrom (.handleCommand cmd (.body [])) .unit callers
  | .body (.ack :: rest) => s.callFrom (.ack .s0) (.handleCommand cmd (.body (.ack :: rest))) callers
  | .body (.send b :: rest) =>
    s.callFrom (Frame.newTransmit b) (.handleCommand cmd (.body (.send b :: rest))) callers
  | .body (.receiveParam :: rest) =>
    s.callFrom Frame.newReceive (.handleCommand cmd (.body (.receiveParam :: rest))) callers
  | .body (.setEnabled v :: rest) => ({ s with enabled := v }).goto (.handleCommand cmd (.body rest)) callers
  | .body (.logUnknown :: rest) => (s.emit (.logUnknown cmd)).goto (.handleCommand cmd (.body rest)) callers

/-- One step of `ack` (R161). DESIGN CHOICE (log entry 30): between attempts stands no `delay(T_GAP)`, as in the listing A0,
A1 and D28; R10 and the prose of R161 leave it open. -/
def stepAck (l : RetryLabel) (callers : List Frame) (s : State) : State :=
  match l with
  | .s0 => s.callFrom (Frame.newTransmit s.cfg.ackByte) (.ack .s0) callers
  | .s2 => s.returnFrom (.ack .s2) .unit callers

/-- One step of `send_until_ok` (R162). DESIGN CHOICE (log entry 30): as for `ack`, no `delay(T_GAP)` between attempts. -/
def stepSendUntilOk (b : Byte) (l : RetryLabel) (callers : List Frame) (s : State) : State :=
  match l with
  | .s0 => s.callFrom (Frame.newTransmit b) (.sendUntilOk b .s0) callers
  | .s2 => s.returnFrom (.sendUntilOk b .s2) .unit callers

end Sys2Proof.Machine
end

