-- ==== Sys2Proof/Machine/Compositor.lean ====
section
/-!
DEFINITION. The Key Event Compositor (spec/44_key_compositor.md rules R190 to R204): the retry loop, `press`,
`release`, `releaseAll`.
-/

namespace Sys2Proof.Machine

/-- R190: one step of the retry loop of a frame `at_ l`; `exit` is what follows L2 when the sequence is complete.
`delay(T_GAP)` at L3 passes within the loop's own step: R31 gives `press` and `release` no edge to `delay` (log
entry 19). -/
def State.loopStep (s : State) (seq : List Byte) (l : LoopLabel) (at_ : LoopLabel → Frame) (exit : State)
    (callers : List Frame) : State :=
  match l with
  | .l0 => s.callFrom Frame.newPoll (at_ .l0) callers
  | .l1 => s.goto (at_ (.l2 0)) callers
  | .l2 j => if seq.length ≤ j then exit else s.goto (at_ (.l3 j)) callers
  | .l3 j => (s.wait s.cfg.tGap).goto (at_ (.l3Send j)) callers
  | .l3Send j => s.callFrom (Frame.newTransmit (seq.getD j 0)) (at_ (.l3Send j)) callers

/-- One step of `press` (R194). K0, the refusal of a reserved Keycode, is made where the request is taken. -/
def stepPress (k : Keycode) (seq : List Byte) (l : KeyLabel) (callers : List Frame) (s : State) : State :=
  match l with
  | .entry =>
    if k = s.cfg.keyNone then s.returnFrom (.press k seq .entry) (.bit false) callers
    else
      match pressCheck s.cfg s.slots k with
      | some _ => s.returnFrom (.press k seq .entry) (.bit false) callers
      | none => s.goto (.press k seq (.loop .l0)) callers
  | .loop l =>
    s.loopStep seq l (fun m => .press k seq (.loop m)) (s.goto (.press k seq .write) callers) callers
  | .write => (s.record k).goto (.press k seq .finish) callers
  | .finish => s.returnFrom (.press k seq .finish) (.bit true) callers

/-- One step of `release` (R199). -/
def stepRelease (k : Keycode) (seq : List Byte) (l : KeyLabel) (callers : List Frame) (s : State) : State :=
  match l with
  | .entry =>
    match releaseCheck s.cfg s.slots k with
    | some _ => s.returnFrom (.release k seq .entry) (.bit false) callers
    | none => s.goto (.release k seq (.loop .l0)) callers
  | .loop l =>
    s.loopStep seq l (fun m => .release k seq (.loop m)) (s.goto (.release k seq .write) callers) callers
  | .write => (s.clear k).goto (.release k seq .finish) callers
  | .finish => s.returnFrom (.release k seq .finish) (.bit true) callers

/-- One step of `releaseAll` (R203): slots n-1 down to 0 are still to visit; each is read when visited (D23). -/
def stepReleaseAll (n : Nat) (callers : List Frame) (s : State) : State :=
  match n with
  | 0 => s.returnFrom (.releaseAll 0) .unit callers
  | i + 1 =>
    if s.slots.get i = s.cfg.keyNone then s.goto (.releaseAll i) callers
    else s.callFrom (Frame.newRelease s.cfg (s.slots.get i)) (.releaseAll i) callers

/-- One step of `send_sequence` on its own (R190). -/
def stepSendSequence (seq : List Byte) (l : LoopLabel) (callers : List Frame) (s : State) : State :=
  s.loopStep seq l (fun m => .sendSequence seq m) (s.returnFrom (.sendSequence seq l) .unit callers) callers

end Sys2Proof.Machine
end

