-- ==== Sys2Proof/Machine/Cycle.lean ====
section
/-!
DEFINITION. The four line primitives (R101 to R105), one step each, and the pseudo-operation `clock_cycle()` (R92).
-/

namespace Sys2Proof.Machine

/-- R101. -/
def stepLineRelease (l : Line) (callers : List Frame) (s : State) : State :=
  (s.drive l .rel).returnFrom (.lineRelease l) .unit callers

/-- R102. -/
def stepAssertLow (l : Line) (callers : List Frame) (s : State) : State :=
  (s.drive l .drvLow).returnFrom (.assertLow l) .unit callers

/-- R104. -/
def stepLineRead (l : Line) (callers : List Frame) (s : State) : State :=
  (s.sample l).returnFrom (.lineRead l) (.level (s.level l)) callers

/-- R105. -/
def stepDelay (t : Nat) (callers : List Frame) (s : State) : State :=
  (s.wait t).returnFrom (.delay t) .unit callers

/-- One step of `clock_cycle()` on its own (R75, R92). -/
def stepClockCycle (p : Option CyclePhase) (callers : List Frame) (s : State) : State :=
  match p with
  | some q => s.callFrom q.primitive (.clockCycle p) callers
  | none => s.returnFrom (.clockCycle none) .unit callers

end Sys2Proof.Machine
end

