-- ==== Sys2Proof/Machine/Poll.lean ====
section
/-!
DEFINITION. `poll` (spec/45_poll.md rules R220 to R224).
-/

namespace Sys2Proof.Machine

/-- One step of `poll`. What follows the tests of P0 and P1 is `PollBus.deliver`, what P2 and P3 do with the result of
`receive` and `handle_command` is `Frame.deliver`. -/
def stepPoll (l : PollLabel) (callers : List Frame) (s : State) : State :=
  match l with
  -- R221, R222: the tests
  | .bus e => s.callFrom e.primitive (.poll (.bus e)) callers
  | .p2 => s.callFrom Frame.newReceive (.poll .p2) callers
  -- R223
  | .p3 b => s.callFrom (.handleCommand b .h0) (.poll (.p3 b)) callers
  | .out v => s.returnFrom (.poll (.out v)) (.bit v) callers

end Sys2Proof.Machine
end

