-- ==== Sys2Proof/Machine/Receive.lean ====
section
/-!
DEFINITION. `receive` (spec/42_receive.md rules R140 to R149). Its bus events are `RxBus`: what each calls and what
follows it stands in Phases.lean.
-/

namespace Sys2Proof.Machine

/-- One step of `receive`. -/
def stepReceive (v : RxLocals) (l : RxLabel) (callers : List Frame) (s : State) : State :=
  match l with
  -- R141: the start-bit wait is entered with a finite budget
  | .rx0 => s.goto (.receive v (.bus (.rx0 s.env.bound))) callers
  -- R141 to R147: a bus event is a call of a line primitive
  | .bus e => s.callFrom (e.primitive s.cfg) (.receive v (.bus e)) callers
  -- R141: expired
  | .rx0Out => s.returnFrom (.receive v .rx0Out) (.code .timeout) callers
  -- R143
  | .rx2 => s.goto (.receive { rx := 0, par := parStart, i := 0 } (.bus (.rx3 .fall))) callers
  -- R148
  | .rx7 => s.returnFrom (.receive v .rx7) (.byte v.rx) callers

end Sys2Proof.Machine
end

