-- ==== Sys2Proof/Machine/Transmit.lean ====
section
/-!
DEFINITION. `transmit` (spec/41_transmit.md rules R120 to R131). Its bus events are `TxBus`: what each calls and what
follows it stands in Phases.lean.
-/

namespace Sys2Proof.Machine

/-- One step of `transmit`. -/
def stepTransmit (v : TxLocals) (l : TxLabel) (callers : List Frame) (s : State) : State :=
  match l with
  -- R121, R123 to R127: a bus event is a call of a line primitive
  | .bus e => s.callFrom (e.primitive s.cfg v) (.transmit v (.bus e)) callers
  -- R121: nothing driven, no bit sent
  | .fail r => s.returnFrom (.transmit v (.fail r)) (.code r) callers
  -- R122; `i` is 0 from here on, which the spec says from T4 on (log entry 31)
  | .t2 => s.goto (.transmit { v with sh := v.b, par := parStart, i := 0 } (.bus (.t3 .data))) callers
  -- R127: the acknowledgment window opens with a finite budget, its outcome discarded
  | .t7 => s.goto (.transmit v (.bus (.t7Low s.env.bound))) callers
  -- R128
  | .t8 => s.returnFrom (.transmit v .t8) (.code .ok) callers

end Sys2Proof.Machine
end

