-- ==== Sys2Proof/Machine/Sequencer.lean ====
section
/-!
DEFINITION. The hardwired sequencer (R30, R65): one step of the running frame, and the run of an operation to its
return. After every step the world may have acted (R62): the inputs become those of the next one.
-/

namespace Sys2Proof.Machine

/-- One step of the running frame `f`, its callers below it. -/
def stepFrame (f : Frame) (callers : List Frame) (s : State) : State :=
  match f with
  | .poll l => stepPoll l callers s
  | .press k seq l => stepPress k seq l callers s
  | .release k seq l => stepRelease k seq l callers s
  | .releaseAll n => stepReleaseAll n callers s
  | .handleCommand cmd l => stepHandle cmd l callers s
  | .ack l => stepAck l callers s
  | .transmit v l => stepTransmit v l callers s
  | .receive v l => stepReceive v l callers s
  | .lineRelease l => stepLineRelease l callers s
  | .assertLow l => stepAssertLow l callers s
  | .lineRead l => stepLineRead l callers s
  | .delay t => stepDelay t callers s
  | .sendUntilOk b l => stepSendUntilOk b l callers s
  | .sendSequence seq l => stepSendSequence seq l callers s
  | .clockCycle p => stepClockCycle p callers s

/-- The device's part of one step, the inputs as they are now. -/
def State.device (s : State) : State :=
  match s.ctl with
  | [] => s
  | f :: callers => stepFrame f callers s

/-- One step of a busy engine: the device's part, then the inputs of the next step. -/
def State.tick (s : State) : State := s.device.passTime

/-- Steps until the frame put on a stack of `depth` frames has returned, `rst` is asserted (R263), or `n` steps are
done. -/
def runUntil (depth : Nat) : Nat → State → State
  | 0, s => s
  | n + 1, s => if s.ctl.length ≤ depth ∨ s.env.rst = true then s else runUntil depth n s.tick

/-- As many steps as the state describes the inputs of: the present ones and those of the script. -/
def State.horizon (s : State) : Nat := s.script.length + 1

/-- R12: `call op(args)`: the operation runs to its end, as far as the described inputs reach; if it has not returned
by then it is in progress, and the steps of the busy engine go on with it. -/
def State.call (s : State) (f : Frame) : State :=
  runUntil s.ctl.length s.horizon { s with ctl := f :: s.ctl, inject := none, done := false }

/-- An internal operation (R13): its caller is whatever runs now. -/
def callOp (f : Frame) (s : State) : Host.Outcome State Fault Refusal := .next (s.call f)

/-- R250, R32: an external operation is accepted by an idle engine only. -/
def request (f : Frame) (s : State) : Host.Outcome State Fault Refusal :=
  if s.busy then .refused .engineBusy else .next (s.call f)

/-- R194 K0: a `press` of a reserved Keycode has no meaning. -/
def requestPress (k : Keycode) (s : State) : Host.Outcome State Fault Refusal :=
  if s.busy then .refused .engineBusy
  else if classify s.cfg k = .reserved then .refused (.reservedKeycode k)
  else .next (s.call (Frame.newPress s.cfg k))

/-- R199: a `release` needs no refusal, "a reserved Keycode is never in the registry". -/
def requestRelease (k : Keycode) (s : State) : Host.Outcome State Fault Refusal :=
  request (Frame.newRelease s.cfg k) s

/-- R89, R250: a Keycode on `req_key` is the operand of the request code on `req_op`: PRESS and RELEASE take it,
POLL and RELEASE_ALL ignore it. -/
def requestKey (k : Keycode) (s : State) : Host.Outcome State Fault Refusal :=
  let s' := { s with env := { s.env with reqKey := k } }
  if s.env.reqOp = 0 then request Frame.newPoll s'
  else if s.env.reqOp = 1 then requestPress k s'
  else if s.env.reqOp = 2 then requestRelease k s'
  else request (.releaseAll nSlots) s'

end Sys2Proof.Machine
end

