-- ==== Sys2Proof/Machine/HostSide.lean ====
section
/-!
DEFINITION. The host's half of a host-to-device frame as inputs (R59, premise H-RX; R73): what the host drives at each
of the 117 steps of a `receive`, so that an instruction that IS such a frame has its bits on the line.
-/

namespace Sys2Proof.Machine

/-- The host drives `d` on data and leaves the clock released ("Throughout, `hdrv_clk = REL`"). -/
def hostDat (d : Drive) : Pins := { Pins.quiet with hdat := d }

/-- R59: the host presents a bit after a falling clock edge and holds it up to and including the next one. -/
def hostBit (v : Bool) : List Pins := List.replicate 10 (hostDat (driveOfBit v))

/-- R59, R73: start bit held through RX0 to RX2 and the first falling edge; d0 to d7; the parity bit; released for the
stop bit and the device's acknowledgment. -/
def hostFrame (b : Byte) (p : Bool) : List Pins :=
  hostBit false
    ++ (hostBit (b.getLsbD 0) ++ hostBit (b.getLsbD 1) ++ hostBit (b.getLsbD 2) ++ hostBit (b.getLsbD 3)
      ++ hostBit (b.getLsbD 4) ++ hostBit (b.getLsbD 5) ++ hostBit (b.getLsbD 6) ++ hostBit (b.getLsbD 7))
    ++ List.replicate 8 (hostDat (driveOfBit p)) ++ List.replicate 19 (hostDat .rel)

/-- The described inputs come first; the present ones and the script follow them. -/
def State.withHost (s : State) (ps : List Pins) : State :=
  match ps with
  | [] => s
  | p :: rest => { s with env := p, script := rest ++ s.env :: s.script }

end Sys2Proof.Machine
end

