-- ==== Sys2Proof/Machine/Frames.lean ====
section
/-!
DEFINITION. FRAME_D2H and FRAME_H2D: a frame as it goes over the wire, once begun (R57, R71, R73).
-/

namespace Sys2Proof.Machine

/-- frame-device-to-host (R71, R122 to R128): `transmit` from T2 on, the idle check behind it. -/
def execFrameDeviceToHost (b : Byte) (s : State) : Host.Outcome State Fault Refusal :=
  callOp (.transmit (TxLocals.atEntry b) .t2) s

/-- frame-host-to-device (R73, R140 to R148, R59): the host puts the frame of `b` with parity bit `p` on the line and
the device clocks it in. -/
def execFrameHostToDevice (b : Byte) (p : Bool) (s : State) : Host.Outcome State Fault Refusal :=
  callOp Frame.newReceive (s.withHost (hostFrame b p))

end Sys2Proof.Machine
end

