-- ==== Sys2Proof/Machine/HostCommands.lean ====
section
/-!
DEFINITION. HOSTCMD8: each host command as `handle_command` performs it once `poll` has its byte (R160, R163 to R176),
and the parameter byte, which is the second frame of three commands (R173).
-/

namespace Sys2Proof.Machine

/-- `handle_command` at the body of a command. -/
def runBody (cmd : Byte) (acts : List HandlerAction) (s : State) : Host.Outcome State Fault Refusal :=
  callOp (.handleCommand cmd (.body acts)) s

/-- reset (R163). -/
def execReset (s : State) : Host.Outcome State Fault Refusal := runBody s.cfg.cmdReset (bodyReset s.cfg) s

/-- resend (R164). -/
def execResend (s : State) : Host.Outcome State Fault Refusal := runBody s.cfg.cmdResend bodyResend s

/-- set-defaults (R165). -/
def execSetDefaults (s : State) : Host.Outcome State Fault Refusal := runBody s.cfg.cmdSetDefaults bodySetDefaults s

/-- disable-reporting (R166). -/
def execDisableReporting (s : State) : Host.Outcome State Fault Refusal := runBody s.cfg.cmdDisable bodyDisable s

/-- enable-reporting (R167). -/
def execEnableReporting (s : State) : Host.Outcome State Fault Refusal := runBody s.cfg.cmdEnable bodyEnable s

/-- set-typematic-rate (R168). -/
def execSetTypematicRate (s : State) : Host.Outcome State Fault Refusal := runBody s.cfg.cmdSetTypematic bodyParam s

/-- get-device-id (R169). -/
def execGetDeviceId (s : State) : Host.Outcome State Fault Refusal := runBody s.cfg.cmdGetId bodyGetId s

/-- set-scan-code-set (R170). -/
def execSetScanCodeSet (s : State) : Host.Outcome State Fault Refusal := runBody s.cfg.cmdSetScancodeSet bodyParam s

/-- echo (R171). -/
def execEcho (s : State) : Host.Outcome State Fault Refusal := runBody s.cfg.cmdEcho (bodyEcho s.cfg.cmdEcho) s

/-- set/reset-LEDs (R172). -/
def execSetResetLeds (s : State) : Host.Outcome State Fault Refusal := runBody s.cfg.cmdSetLeds bodyParam s

/-- unknown-command (R176, R87). -/
def execUnknownCommand (cmd : Byte) (s : State) : Host.Outcome State Fault Refusal := runBody cmd bodyUnknown s

/-- parameter-byte (R173, R85, R87): the host sends `v` in a frame of its own while the command waits in its `receive`;
the byte is discarded and the second ack sent. The three commands "are indistinguishable in effect", so the frame is
that of the first of them. -/
def execParameterByte (v : Byte) (s : State) : Host.Outcome State Fault Refusal :=
  runBody s.cfg.cmdSetTypematic (.receiveParam :: bodyAfterParam)
    (s.withHost (hostDat .drvLow :: hostFrame v (parity v)))

end Sys2Proof.Machine
end

