-- ==== Sys2Proof/Machine/Keycodes.lean ====
section
/-!
DEFINITION. KEYCODE16: a Keycode standing on `req_key` as the operand of the request code on `req_op` (R77 to R79, R89,
R250). Its high byte "selects how its scan-code sequence is built" (R13).
-/

namespace Sys2Proof.Machine

/-- keycode.PLAIN (R78, R80, R82). -/
def execKeycodePlain (l : Byte) (s : State) : Host.Outcome State Fault Refusal := requestKey (mkKey plainHi l) s

/-- keycode.EXTENDED (R78, R81, R82). -/
def execKeycodeExtended (l : Byte) (s : State) : Host.Outcome State Fault Refusal := requestKey (mkKey extByte l) s

/-- keycode.SPECIAL_PRTSC (R78, R83). -/
def execKeycodeSpecialPrtsc (s : State) : Host.Outcome State Fault Refusal :=
  requestKey (mkKey specialHi s.cfg.selPrtsc) s

/-- keycode.SPECIAL_PAUSE (R78, R83). -/
def execKeycodeSpecialPause (s : State) : Host.Outcome State Fault Refusal :=
  requestKey (mkKey specialHi s.cfg.selPause) s

/-- keycode.NONE (R78, R194 K1, R199 K10): the sentinel, not a key. -/
def execKeycodeNone (s : State) : Host.Outcome State Fault Refusal := requestKey s.cfg.keyNone s

/-- keycode.reserved (R79, R207): `press` refused, `release` returns 0. -/
def execKeycodeReserved (k : Keycode) (s : State) : Host.Outcome State Fault Refusal := requestKey k s

end Sys2Proof.Machine
end

