-- ==== Sys2Proof/Machine/Operations.lean ====
section
/-!
DEFINITION. OPID4: the twelve operations by their ids (R13, R90). `poll` and `release` are also called by other
operations (R31); `press` and `releaseAll` are started by the client alone, so a busy engine refuses them (R32).
-/

namespace Sys2Proof.Machine

/-- op.poll (R220). -/
def execOpPoll (s : State) : Host.Outcome State Fault Refusal := callOp Frame.newPoll s

/-- op.press (R194). -/
def execOpPress (k : Keycode) (s : State) : Host.Outcome State Fault Refusal := requestPress k s

/-- op.release (R199). -/
def execOpRelease (k : Keycode) (s : State) : Host.Outcome State Fault Refusal := callOp (Frame.newRelease s.cfg k) s

/-- op.releaseAll (R203). -/
def execOpReleaseAll (s : State) : Host.Outcome State Fault Refusal := request (.releaseAll nSlots) s

/-- op.handle_command (R160). -/
def execOpHandleCommand (cmd : Byte) (s : State) : Host.Outcome State Fault Refusal := callOp (.handleCommand cmd .h0) s

/-- op.ack (R161). -/
def execOpAck (s : State) : Host.Outcome State Fault Refusal := callOp (.ack .s0) s

/-- op.transmit (R120). -/
def execOpTransmit (b : Byte) (s : State) : Host.Outcome State Fault Refusal := callOp (Frame.newTransmit b) s

/-- op.receive (R140). -/
def execOpReceive (s : State) : Host.Outcome State Fault Refusal := callOp Frame.newReceive s

/-- op.line_release (R101). -/
def execOpLineRelease (l : Line) (s : State) : Host.Outcome State Fault Refusal := callOp (.lineRelease l) s

/-- op.assert_low (R102). -/
def execOpAssertLow (l : Line) (s : State) : Host.Outcome State Fault Refusal := callOp (.assertLow l) s

/-- op.line_read (R104). -/
def execOpLineRead (l : Line) (s : State) : Host.Outcome State Fault Refusal := callOp (.lineRead l) s

/-- op.delay (R105). -/
def execOpDelay (t : Nat) (s : State) : Host.Outcome State Fault Refusal := callOp (.delay t) s

end Sys2Proof.Machine
end

