-- ==== Sys2Proof/Machine/Pseudo.lean ====
section
/-!
DEFINITION. PSEUDO: the pseudo-operations of R92 that the opcode table lists.
-/

namespace Sys2Proof.Machine

/-- op.send_until_ok (R162). -/
def execOpSendUntilOk (b : Byte) (s : State) : Host.Outcome State Fault Refusal := callOp (.sendUntilOk b .s0) s

/-- op.send_sequence (R190). -/
def execOpSendSequence (bs : List Byte) (s : State) : Host.Outcome State Fault Refusal :=
  callOp (.sendSequence bs .l0) s

/-- op.clock_cycle (R75). -/
def execOpClockCycle (s : State) : Host.Outcome State Fault Refusal := callOp (.clockCycle (some .fall)) s

end Sys2Proof.Machine
end

