-- ==== Sys2Proof/Machine/Replies.lean ====
section
/-!
DEFINITION. RESP8: each reply byte as the device sends it (R88, R161, R162, R169, R171): in a frame of its own, retried
until accepted.
-/

namespace Sys2Proof.Machine

/-- `send_until_ok(b)` (R162). -/
def sendReply (b : Byte) (s : State) : Host.Outcome State Fault Refusal := callOp (.sendUntilOk b .s0) s

/-- ACK (R88, R161). -/
def execAckReply (s : State) : Host.Outcome State Fault Refusal := sendReply s.cfg.ackByte s

/-- self-test-passed (R88, R163). -/
def execSelfTestPassed (s : State) : Host.Outcome State Fault Refusal := sendReply s.cfg.batOk s

/-- identity-byte-0 (R88, R169). -/
def execIdentityByte0 (s : State) : Host.Outcome State Fault Refusal := sendReply id0 s

/-- identity-byte-1 (R88, R169). -/
def execIdentityByte1 (s : State) : Host.Outcome State Fault Refusal := sendReply id1 s

/-- echo-reply (R171): "equals the received command byte (CMD_ECHO)". -/
def execEchoReply (s : State) : Host.Outcome State Fault Refusal := sendReply s.cfg.cmdEcho s

end Sys2Proof.Machine
end

