-- ==== Sys2Proof/Machine/Requests.lean ====
section
/-!
DEFINITION. REQ18: the four requests of the client (R89, R250), accepted by an idle engine only.
-/

namespace Sys2Proof.Machine

/-- poll (R220 to R224); `req_key` is ignored. -/
def execPoll (s : State) : Host.Outcome State Fault Refusal := request Frame.newPoll s

/-- press (R194 to R198, R207). -/
def execPress (k : Keycode) (s : State) : Host.Outcome State Fault Refusal := requestPress k s

/-- release (R199 to R202). -/
def execRelease (k : Keycode) (s : State) : Host.Outcome State Fault Refusal := requestRelease k s

/-- releaseAll (R203, R204); `req_key` is ignored. -/
def execReleaseAll (s : State) : Host.Outcome State Fault Refusal := request (.releaseAll nSlots) s

end Sys2Proof.Machine
end

