-- ==== Sys2Proof/Machine/Sequences.lean ====
section
/-!
DEFINITION. BYTESEQ: a scan-code sequence as `send_sequence` sends it (R80 to R84, R190): byte by byte in list order,
each in its own frame, from the first byte again whenever the host intervenes.
-/

namespace Sys2Proof.Machine

/-- `send_sequence(seq)` (R190). -/
def sendSeq (seq : List Byte) (s : State) : Host.Outcome State Fault Refusal := callOp (.sendSequence seq .l0) s

/-- seq.PLAIN.press (R80). -/
def execSeqPlainPress (l : Byte) (s : State) : Host.Outcome State Fault Refusal := sendSeq [l] s

/-- seq.EXTENDED.press (R81). -/
def execSeqExtendedPress (l : Byte) (s : State) : Host.Outcome State Fault Refusal := sendSeq [extByte, l] s

/-- seq.PLAIN.release (R82). -/
def execSeqPlainRelease (l : Byte) (s : State) : Host.Outcome State Fault Refusal := sendSeq [breakCode, l] s

/-- seq.EXTENDED.release (R82). -/
def execSeqExtendedRelease (l : Byte) (s : State) : Host.Outcome State Fault Refusal :=
  sendSeq [extByte, breakCode, l] s

/-- seq.PRTSC.press (R83). -/
def execSeqPrtscPress (s : State) : Host.Outcome State Fault Refusal := sendSeq seqPrtscPressBytes s

/-- seq.PRTSC.release (R83). -/
def execSeqPrtscRelease (s : State) : Host.Outcome State Fault Refusal := sendSeq seqPrtscReleaseBytes s

/-- seq.PAUSE.press (R83). -/
def execSeqPausePress (s : State) : Host.Outcome State Fault Refusal := sendSeq seqPausePressBytes s

/-- seq.PAUSE.release (R83, R201): the empty sequence still polls. -/
def execSeqPauseRelease (s : State) : Host.Outcome State Fault Refusal := sendSeq seqPauseReleaseBytes s

end Sys2Proof.Machine
end

