-- ==== Sys2Proof/Machine/Dispatch.lean ====
section
/-!
DEFINITION. One arm per row of the opcode table, each one call of that row's meaning.
-/

namespace Sys2Proof.Machine

def exec (i : Instr) (s : State) : Host.Outcome State Fault Refusal :=
  match i with
  | .reset => Sys2Proof.Machine.execReset s
  | .resend => Sys2Proof.Machine.execResend s
  | .setDefaults => Sys2Proof.Machine.execSetDefaults s
  | .disableReporting => Sys2Proof.Machine.execDisableReporting s
  | .enableReporting => Sys2Proof.Machine.execEnableReporting s
  | .setTypematicRate => Sys2Proof.Machine.execSetTypematicRate s
  | .getDeviceId => Sys2Proof.Machine.execGetDeviceId s
  | .setScanCodeSet => Sys2Proof.Machine.execSetScanCodeSet s
  | .echo => Sys2Proof.Machine.execEcho s
  | .setResetLeds => Sys2Proof.Machine.execSetResetLeds s
  | .unknownCommand cmd => Sys2Proof.Machine.execUnknownCommand cmd s
  | .parameterByte v => Sys2Proof.Machine.execParameterByte v s
  | .ackReply => Sys2Proof.Machine.execAckReply s
  | .selfTestPassed => Sys2Proof.Machine.execSelfTestPassed s
  | .identityByte0 => Sys2Proof.Machine.execIdentityByte0 s
  | .identityByte1 => Sys2Proof.Machine.execIdentityByte1 s
  | .echoReply => Sys2Proof.Machine.execEchoReply s
  | .frameDeviceToHost b => Sys2Proof.Machine.execFrameDeviceToHost b s
  | .frameHostToDevice b p => Sys2Proof.Machine.execFrameHostToDevice b p s
  | .keycodePlain l => Sys2Proof.Machine.execKeycodePlain l s
  | .keycodeExtended l => Sys2Proof.Machine.execKeycodeExtended l s
  | .keycodeSpecialPrtsc => Sys2Proof.Machine.execKeycodeSpecialPrtsc s
  | .keycodeSpecialPause => Sys2Proof.Machine.execKeycodeSpecialPause s
  | .keycodeNone => Sys2Proof.Machine.execKeycodeNone s
  | .keycodeReserved k => Sys2Proof.Machine.execKeycodeReserved k s
  | .seqPlainPress l => Sys2Proof.Machine.execSeqPlainPress l s
  | .seqExtendedPress l => Sys2Proof.Machine.execSeqExtendedPress l s
  | .seqPlainRelease l => Sys2Proof.Machine.execSeqPlainRelease l s
  | .seqExtendedRelease l => Sys2Proof.Machine.execSeqExtendedRelease l s
  | .seqPrtscPress => Sys2Proof.Machine.execSeqPrtscPress s
  | .seqPrtscRelease => Sys2Proof.Machine.execSeqPrtscRelease s
  | .seqPausePress => Sys2Proof.Machine.execSeqPausePress s
  | .seqPauseRelease => Sys2Proof.Machine.execSeqPauseRelease s
  | .poll => Sys2Proof.Machine.execPoll s
  | .press k => Sys2Proof.Machine.execPress k s
  | .release k => Sys2Proof.Machine.execRelease k s
  | .releaseAll => Sys2Proof.Machine.execReleaseAll s
  | .opPoll => Sys2Proof.Machine.execOpPoll s
  | .opPress k => Sys2Proof.Machine.execOpPress k s
  | .opRelease k => Sys2Proof.Machine.execOpRelease k s
  | .opReleaseAll => Sys2Proof.Machine.execOpReleaseAll s
  | .opHandleCommand cmd => Sys2Proof.Machine.execOpHandleCommand cmd s
  | .opAck => Sys2Proof.Machine.execOpAck s
  | .opTransmit b => Sys2Proof.Machine.execOpTransmit b s
  | .opReceive => Sys2Proof.Machine.execOpReceive s
  | .opLineRelease l => Sys2Proof.Machine.execOpLineRelease l s
  | .opAssertLow l => Sys2Proof.Machine.execOpAssertLow l s
  | .opLineRead l => Sys2Proof.Machine.execOpLineRead l s
  | .opDelay t => Sys2Proof.Machine.execOpDelay t s
  | .opSendUntilOk b => Sys2Proof.Machine.execOpSendUntilOk b s
  | .opSendSequence bs => Sys2Proof.Machine.execOpSendSequence bs s
  | .opClockCycle => Sys2Proof.Machine.execOpClockCycle s

end Sys2Proof.Machine
end

