-- ==== Sys2Proof/WellFormed.lean ====
section
/-!
DEFINITION. Which terms of `Instr` are instructions, for given parameters: an unknown command is none of the ten codes
(R87), a Keycode operand is of the class its constructor names (R78, R79), a sequence has at most eight bytes (R190).
The spec does not say that the parameters `ACK_BYTE` and `BAT_OK` differ from each other and from the other reply bytes;
where they coincide the byte is read as the reply listed first.
-/

namespace Sys2Proof

/-- The check on an instruction. -/
def WellFormed (c : Config) (i : Instr) : Bool :=
  match i with
  | .reset => true
  | .resend => true
  | .setDefaults => true
  | .disableReporting => true
  | .enableReporting => true
  | .setTypematicRate => true
  | .getDeviceId => true
  | .setScanCodeSet => true
  | .echo => true
  | .setResetLeds => true
  | .unknownCommand cmd => Machine.isUnknown c cmd
  | .parameterByte _ => true
  | .ackReply => true
  | .selfTestPassed => decide (c.batOk ≠ c.ackByte)
  | .identityByte0 => decide (id0 ≠ c.ackByte) && decide (id0 ≠ c.batOk)
  | .identityByte1 => decide (id1 ≠ c.ackByte) && decide (id1 ≠ c.batOk)
  | .echoReply =>
    decide (c.cmdEcho ≠ c.ackByte) && decide (c.cmdEcho ≠ c.batOk) && decide (c.cmdEcho ≠ id0)
      && decide (c.cmdEcho ≠ id1)
  | .frameDeviceToHost _ => true
  | .frameHostToDevice _ _ => true
  | .keycodePlain l => decide (Machine.classify c (Machine.mkKey plainHi l) = .plain)
  | .keycodeExtended l => decide (Machine.classify c (Machine.mkKey extByte l) = .extended)
  | .keycodeSpecialPrtsc => true
  | .keycodeSpecialPause => true
  | .keycodeNone => true
  | .keycodeReserved k => decide (Machine.classify c k = .reserved)
  | .seqPlainPress l => decide (Machine.classify c (Machine.mkKey plainHi l) = .plain)
  | .seqExtendedPress l => decide (Machine.classify c (Machine.mkKey extByte l) = .extended)
  | .seqPlainRelease l => decide (Machine.classify c (Machine.mkKey plainHi l) = .plain)
  | .seqExtendedRelease l => decide (Machine.classify c (Machine.mkKey extByte l) = .extended)
  | .seqPrtscPress => true
  | .seqPrtscRelease => true
  | .seqPausePress => true
  | .seqPauseRelease => true
  | .poll => true
  | .press _ => true
  | .release _ => true
  | .releaseAll => true
  | .opPoll => true
  | .opPress _ => true
  | .opRelease _ => true
  | .opReleaseAll => true
  | .opHandleCommand _ => true
  | .opAck => true
  | .opTransmit _ => true
  | .opReceive => true
  | .opLineRelease _ => true
  | .opAssertLow _ => true
  | .opLineRead _ => true
  | .opDelay t => decide (t < 4294967296)
  | .opSendUntilOk _ => true
  | .opSendSequence bs => decide (bs.length ≤ 8)
  | .opClockCycle => true

end Sys2Proof
end

