-- ==== Sys2Proof/Decode.lean ====
section
/-!
DEFINITION. From words to instructions and back. `decode` is total: a word of a format is an instruction or is rejected
by a name of `Reject`. The layouts of HOSTCMD8, RESP8, the frames, KEYCODE16, BYTESEQ and REQ18 are the spec's
(spec/30_encoding.md); the operand bytes after an operation id and the codes of the pseudo-operations are the model's
own, since the spec gives them no bits (log entry 4).
-/

namespace Sys2Proof

/-- Why a word is no instruction of its format. -/
inductive Reject where
  | wrongLength
  | notAReply
  | badStartBit
  | badStopBit
  | badParity
  | badAcknowledgeBit
  | notASequence
  | reservedRequestBits
  | unusedOperationId
  | unknownPseudo
  | badOperand
  deriving DecidableEq, Repr

namespace Machine

/-- Bit `n` of a word. -/
def wordBit (bs : List Byte) (n : Nat) : Bool := (natOfBytes bs).testBit n

/-- R71, R73: the eight data bits of a frame word are bits 8..1, the first of them `b[0]`. -/
def frameData (bs : List Byte) : Byte := BitVec.ofNat 8 (natOfBytes bs / 2)

/-- HOSTCMD8 (R85, R86): dispatch is on the whole byte. -/
def decodeHostCmd (c : Config) (bs : List Byte) : Except Reject Instr :=
  match bs with
  | [b] => .ok (commandOf c b)
  | _ => .error .wrongLength

/-- The second frame of a parameter-taking command (R85, R87): never decoded, whatever its value. -/
def decodeParam (bs : List Byte) : Except Reject Instr :=
  match bs with
  | [b] => .ok (.parameterByte b)
  | _ => .error .wrongLength

/-- RESP8 (R88): the bytes the device sends in reply to commands; the echo reply is the echo command's byte. -/
def decodeReply (c : Config) (bs : List Byte) : Except Reject Instr :=
  match bs with
  | [b] =>
    if b = c.ackByte then .ok .ackReply
    else if b = c.batOk then .ok .selfTestPassed
    else if b = id0 then .ok .identityByte0
    else if b = id1 then .ok .identityByte1
    else if b = c.cmdEcho then .ok .echoReply
    else .error .notAReply
  | _ => .error .wrongLength

/-- FRAME_D2H (R71): `1 p d7 … d0 0` in bits 10..0. The device sends no frame whose parity is not `P(b)`. -/
def decodeFrameD2H (bs : List Byte) : Except Reject Instr :=
  if bs.length ≠ 2 ∨ natOfBytes bs ≥ 2048 then .error .wrongLength
  else if wordBit bs 0 then .error .badStartBit
  else if !wordBit bs 10 then .error .badStopBit
  else if wordBit bs 9 != parity (frameData bs) then .error .badParity
  else .ok (.frameDeviceToHost (frameData bs))

/-- FRAME_H2D (R73): `a 1 p d7 … d0 0` in bits 11..0; the parity bit is unread, so any is a frame. -/
def decodeFrameH2D (bs : List Byte) : Except Reject Instr :=
  if bs.length ≠ 2 ∨ natOfBytes bs ≥ 4096 then .error .wrongLength
  else if wordBit bs 0 then .error .badStartBit
  else if !wordBit bs 10 then .error .badStopBit
  else if wordBit bs 11 then .error .badAcknowledgeBit
  else .ok (.frameHostToDevice (frameData bs) (wordBit bs 9))

/-- KEYCODE16 (R77 to R79). -/
def decodeKeycode (c : Config) (bs : List Byte) : Except Reject Instr :=
  match bs with
  | [l, h] =>
    match classify c (mkKey h l) with
    | .none => .ok .keycodeNone
    | .plain => .ok (.keycodePlain l)
    | .extended => .ok (.keycodeExtended l)
    | .prtsc => .ok .keycodeSpecialPrtsc
    | .pause => .ok .keycodeSpecialPause
    | .reserved => .ok (.keycodeReserved (mkKey h l))
  | _ => .error .wrongLength

/-- A one-, two- or three-byte sequence is one only for a Keycode of its class (R78: `k != KEY_NONE`). -/
def ifClass (c : Config) (k : Keycode) (want : KeyClass) (i : Instr) : Except Reject Instr :=
  if classify c k = want then .ok i else .error .notASequence

/-- BYTESEQ (R80 to R84): the length and the lead bytes tell the sequences apart. -/
def decodeSeq (c : Config) (bs : List Byte) : Except Reject Instr :=
  if bs = seqPrtscPressBytes then .ok .seqPrtscPress
  else if bs = seqPrtscReleaseBytes then .ok .seqPrtscRelease
  else if bs = seqPausePressBytes then .ok .seqPausePress
  else
    match bs with
    | [] => .ok .seqPauseRelease
    | [l] => ifClass c (mkKey plainHi l) .plain (.seqPlainPress l)
    | [x, l] =>
      if x = extByte then ifClass c (mkKey extByte l) .extended (.seqExtendedPress l)
      else if x = breakCode then ifClass c (mkKey plainHi l) .plain (.seqPlainRelease l)
      else .error .notASequence
    | [x, y, l] =>
      if x = extByte ∧ y = breakCode then ifClass c (mkKey extByte l) .extended (.seqExtendedRelease l)
      else .error .notASequence
    | _ => .error .notASequence

/-- REQ18 (R89): `req_op` in bits 17:16, `req_key` in bits 15:0, ignored by `POLL` and `RELEASE_ALL`. -/
def decodeRequest (bs : List Byte) : Except Reject Instr :=
  match bs with
  | [l, h, op] =>
    if op = 0 then .ok .poll
    else if op = 1 then .ok (.press (mkKey h l))
    else if op = 2 then .ok (.release (mkKey h l))
    else if op = 3 then .ok .releaseAll
    else .error .reservedRequestBits
  | _ => .error .wrongLength

/-- A line operand of an operation word: 0 is `clk`, 1 is `dat` (log entry 4). -/
def lineOfByte (b : Byte) : Option Line :=
  if b = 0 then some .clk else if b = 1 then some .dat else none

/-- An operation on one line. -/
def withLine (b : Byte) (mk : Line → Instr) : Except Reject Instr :=
  match lineOfByte b with
  | some l => .ok (mk l)
  | none => .error .badOperand

/-- How many operand bytes an operation id takes in the model's layout (log entry 4). -/
def operandBytes (opid : Nat) : Nat :=
  match opid with
  | 2 | 3 => 2
  | 5 | 7 | 9 | 10 | 11 => 1
  | 12 => 4
  | _ => 0

/-- OPID4 (R90): the operation id in bits 3:0; `opid` 0 means idle, 13 to 15 are unused. The operands follow in whole
bytes; one the word does not hold is zero, and nothing but zeros may follow them. -/
def decodeOp (bs : List Byte) : Except Reject Instr :=
  if (bs.drop (1 + operandBytes (byteAt bs 0).toNat)).any (fun b => b != 0) then .error .wrongLength
  else
    match (byteAt bs 0).toNat with
    | 1 => .ok .opPoll
    | 2 => .ok (.opPress (mkKey (byteAt bs 2) (byteAt bs 1)))
    | 3 => .ok (.opRelease (mkKey (byteAt bs 2) (byteAt bs 1)))
    | 4 => .ok .opReleaseAll
    | 5 => .ok (.opHandleCommand (byteAt bs 1))
    | 6 => .ok .opAck
    | 7 => .ok (.opTransmit (byteAt bs 1))
    | 8 => .ok .opReceive
    | 9 => withLine (byteAt bs 1) .opLineRelease
    | 10 => withLine (byteAt bs 1) .opAssertLow
    | 11 => withLine (byteAt bs 1) .opLineRead
    | 12 => .ok (.opDelay (natOfBytes ((bs.drop 1).take 4)))
    | _ => .error .unusedOperationId

/-- PSEUDO (R92): the spec writes these as text only; the codes are the model's (log entry 4). -/
def decodePseudo (bs : List Byte) : Except Reject Instr :=
  match bs with
  | [] => .error .wrongLength
  | code :: rest =>
    if code = 0 then
      match rest with
      | [b] => .ok (.opSendUntilOk b)
      | _ => .error .wrongLength
    else if code = 1 then
      if rest.length ≤ 8 then .ok (.opSendSequence rest) else .error .wrongLength
    else if code = 2 then
      match rest with
      | [] => .ok .opClockCycle
      | _ => .error .wrongLength
    else .error .unknownPseudo

end Machine

open Machine

/-- The instruction a word of a format stands for, for the given parameters, or why it stands for none. -/
def decode (c : Config) (w : TableWord) : Except Reject Instr :=
  match w.fmt with
  | .hostCmd8 => decodeHostCmd c w.bytes
  | .param8 => decodeParam w.bytes
  | .resp8 => decodeReply c w.bytes
  | .frameD2H => decodeFrameD2H w.bytes
  | .frameH2D => decodeFrameH2D w.bytes
  | .keycode16 => decodeKeycode c w.bytes
  | .byteSeq => decodeSeq c w.bytes
  | .req18 => decodeRequest w.bytes
  | .opId4 => decodeOp w.bytes
  | .pseudo => decodePseudo w.bytes

namespace Machine

/-- R71, R73: a frame word from its cell values, cell 0 in bit 0. -/
def natOfBits : List Bool → Nat
  | [] => 0
  | v :: vs => v.toNat + 2 * natOfBits vs

/-- R71: the frame of `b` as a word. -/
def frameWordD2H (b : Byte) : List Byte := bytesOfNat 2 (natOfBits (frameCells b))

/-- R73: the host's frame as a word: start, data, the host's parity bit, stop, the device's acknowledgment (0). -/
def frameWordH2D (b : Byte) (p : Bool) : List Byte :=
  bytesOfNat 2 (natOfBits [false, b.getLsbD 0, b.getLsbD 1, b.getLsbD 2, b.getLsbD 3, b.getLsbD 4, b.getLsbD 5,
    b.getLsbD 6, b.getLsbD 7, p, true, false])

/-- The two bytes of a Keycode, low byte first (R77: `lo` in bits 7:0). -/
def keyBytes (k : Keycode) : List Byte := [lo k, hi k]

/-- A line operand as a byte (log entry 4). -/
def byteOfLine (l : Line) : Byte :=
  match l with
  | .clk => 0
  | .dat => 1

/-- R89: the request word, `req_key` in the two low bytes. -/
def requestBytes (op : BitVec 2) (k : Keycode) : List Byte := [lo k, hi k, op.setWidth 8]

end Machine

/-- The word of an instruction, from the same tables. The ignored Keycode of `poll` and `releaseAll` is written 0. -/
def encode (c : Config) (i : Instr) : TableWord :=
  match i with
  | .reset => ⟨.hostCmd8, [c.cmdReset]⟩
  | .resend => ⟨.hostCmd8, [c.cmdResend]⟩
  | .setDefaults => ⟨.hostCmd8, [c.cmdSetDefaults]⟩
  | .disableReporting => ⟨.hostCmd8, [c.cmdDisable]⟩
  | .enableReporting => ⟨.hostCmd8, [c.cmdEnable]⟩
  | .setTypematicRate => ⟨.hostCmd8, [c.cmdSetTypematic]⟩
  | .getDeviceId => ⟨.hostCmd8, [c.cmdGetId]⟩
  | .setScanCodeSet => ⟨.hostCmd8, [c.cmdSetScancodeSet]⟩
  | .echo => ⟨.hostCmd8, [c.cmdEcho]⟩
  | .setResetLeds => ⟨.hostCmd8, [c.cmdSetLeds]⟩
  | .unknownCommand cmd => ⟨.hostCmd8, [cmd]⟩
  | .parameterByte v => ⟨.param8, [v]⟩
  | .ackReply => ⟨.resp8, [c.ackByte]⟩
  | .selfTestPassed => ⟨.resp8, [c.batOk]⟩
  | .identityByte0 => ⟨.resp8, [id0]⟩
  | .identityByte1 => ⟨.resp8, [id1]⟩
  | .echoReply => ⟨.resp8, [c.cmdEcho]⟩
  | .frameDeviceToHost b => ⟨.frameD2H, frameWordD2H b⟩
  | .frameHostToDevice b p => ⟨.frameH2D, frameWordH2D b p⟩
  | .keycodePlain l => ⟨.keycode16, keyBytes (mkKey plainHi l)⟩
  | .keycodeExtended l => ⟨.keycode16, keyBytes (mkKey extByte l)⟩
  | .keycodeSpecialPrtsc => ⟨.keycode16, keyBytes (mkKey specialHi c.selPrtsc)⟩
  | .keycodeSpecialPause => ⟨.keycode16, keyBytes (mkKey specialHi c.selPause)⟩
  | .keycodeNone => ⟨.keycode16, keyBytes c.keyNone⟩
  | .keycodeReserved k => ⟨.keycode16, keyBytes k⟩
  | .seqPlainPress l => ⟨.byteSeq, [l]⟩
  | .seqExtendedPress l => ⟨.byteSeq, [extByte, l]⟩
  | .seqPlainRelease l => ⟨.byteSeq, [breakCode, l]⟩
  | .seqExtendedRelease l => ⟨.byteSeq, [extByte, breakCode, l]⟩
  | .seqPrtscPress => ⟨.byteSeq, seqPrtscPressBytes⟩
  | .seqPrtscRelease => ⟨.byteSeq, seqPrtscReleaseBytes⟩
  | .seqPausePress => ⟨.byteSeq, seqPausePressBytes⟩
  | .seqPauseRelease => ⟨.byteSeq, seqPauseReleaseBytes⟩
  | .poll => ⟨.req18, requestBytes 0 0⟩
  | .press k => ⟨.req18, requestBytes 1 k⟩
  | .release k => ⟨.req18, requestBytes 2 k⟩
  | .releaseAll => ⟨.req18, requestBytes 3 0⟩
  | .opPoll => ⟨.opId4, [1]⟩
  | .opPress k => ⟨.opId4, 2 :: keyBytes k⟩
  | .opRelease k => ⟨.opId4, 3 :: keyBytes k⟩
  | .opReleaseAll => ⟨.opId4, [4]⟩
  | .opHandleCommand cmd => ⟨.opId4, [5, cmd]⟩
  | .opAck => ⟨.opId4, [6]⟩
  | .opTransmit b => ⟨.opId4, [7, b]⟩
  | .opReceive => ⟨.opId4, [8]⟩
  | .opLineRelease l => ⟨.opId4, [9, byteOfLine l]⟩
  | .opAssertLow l => ⟨.opId4, [10, byteOfLine l]⟩
  | .opLineRead l => ⟨.opId4, [11, byteOfLine l]⟩
  | .opDelay t => ⟨.opId4, 12 :: bytesOfNat 4 t⟩
  | .opSendUntilOk b => ⟨.pseudo, [0, b]⟩
  | .opSendSequence bs => ⟨.pseudo, 1 :: bs⟩
  | .opClockCycle => ⟨.pseudo, [2]⟩

namespace Machine

/-- A two-byte word that is no Keycode of any class but has the shape of a frame (start bit 0, stop bit 1, nothing
above): the device's frame if its parity is odd, else the host's, whose parity bit is unread (log entry 5). -/
def twoByteFormat (w : Nat) : Format :=
  if 1024 ≤ w ∧ w < 2048 ∧ w % 2 = 0 then
    match decodeFrameD2H (bytesOfNat 2 w) with
    | .ok _ => .frameD2H
    | .error _ => .frameH2D
  else .keycode16

/-- The format of a bare word of the opcode table, of which only the length and the value are known. The three
one-byte formats share their values (a reply byte or an operation id is also a command byte nobody listed), so the
listed values of each are read as that format's and every other byte as a host command; two-byte words are told apart
by `twoByteFormat` (log entry 5). -/
def tableFormat (nbits w : Nat) : Format :=
  if nbits = 0 then .byteSeq
  else if nbits ≤ 8 then
    if 1 ≤ w ∧ w ≤ 12 then .opId4
    else if w = Config.default.ackByte.toNat ∨ w = Config.default.batOk.toNat ∨ w = id0.toNat ∨ w = id1.toNat then
      .resp8
    else .hostCmd8
  else if nbits ≤ 11 then .frameD2H
  else if nbits = 12 then .frameH2D
  else if nbits ≤ 16 then twoByteFormat w
  else if nbits ≤ 24 ∧ w < 262144 then .req18
  else .byteSeq

/-- A bare word of the opcode table with its format: the whole bytes it fills, operand bytes it lacks being zero. -/
def tableWord (nbits w : Nat) : TableWord :=
  match tableFormat nbits w with
  | .opId4 => ⟨.opId4, bytesOfNat 5 w⟩
  | .req18 => ⟨.req18, bytesOfNat 3 w⟩
  | f => ⟨f, bytesOfNat ((nbits + 7) / 8) w⟩

end Machine

/-- The instruction the decoder reads from a word whose bits are numbered as spec/opcode_table.json numbers them, with
the default parameters. -/
def decodeTableWord (nbits w : Nat) : Option Instr :=
  match decode Config.default (tableWord nbits w) with
  | .ok i => some i
  | .error _ => none

end Sys2Proof
end

