-- ==== Sys2Proof/Machine/Fetch.lean ====
section
/-!
DEFINITION. Where the idle sequencer finds its next instruction (R250, R89): a word presented to it, else the request on
the client's port; and how a word of the opcode table is put there.
-/

namespace Sys2Proof.Machine

/-- R89: the request word on the port, `req_op` in bits 17:16 and `req_key` in bits 15:0. -/
def requestWord (p : Pins) : TableWord := ⟨.req18, requestBytes p.reqOp p.reqKey⟩

/-- The word an idle engine takes next. -/
def State.fetch (s : State) : Option TableWord :=
  match s.inject with
  | some w => some w
  | none => if s.env.reqValid then some (requestWord s.env) else none

/-- A word put where the next step takes it: a request word on the client's port, any other word before the idle
sequencer. The engine is idle and `rst` is not asserted. -/
def State.present (s : State) (w : TableWord) : State :=
  match w.fmt with
  | .req18 =>
    { s with
      ctl := [], inject := none,
      env := { s.env with
        rst := false, reqValid := true, reqOp := (byteAt w.bytes 2).setWidth 2,
        reqKey := mkKey (byteAt w.bytes 1) (byteAt w.bytes 0) } }
  | _ => { s with ctl := [], inject := some w, env := { s.env with rst := false } }

end Sys2Proof.Machine
end

