-- ==== Sys2Proof/Machine/Step.lean ====
section
/-!
DEFINITION. One step of the machine: reset while `rst` is asserted (R260, R263); a busy engine performs the next step
of its running operation, and no request is accepted (R250); an idle engine takes the next instruction, if there is
one.
-/

namespace Sys2Proof.Machine

/-- One step. -/
def step (s : State) : Host.Outcome State Fault Refusal :=
  if s.env.rst then .next s.hardReset.passTime
  else
    match s.ctl with
    | _ :: _ => .next s.tick
    | [] =>
      match s.fetch with
      | none => .next s.idle
      | some w =>
        match decode s.cfg w with
        | .ok i => exec i s
        | .error _ => .refused (.undecodable w)

/-- The state with the instruction whose bits are `w` where the next step takes it. -/
def State.withFetchWord (s : State) (nbits w : Nat) : State := s.present (tableWord nbits w)

end Sys2Proof.Machine
end

