-- ==== Sys2Proof/Safety.lean ====
section
/-!
DEFINITION. The terms in which claims are stated: what a host or a client can see of a run (bytes sent, levels at the
falling clock edges, lines driven, bytes logged), the premises about the world (R58 to R60), and the invariant of an
engine that only its client starts (R24, R27, R31, R207).
-/

namespace Sys2Proof.Machine

/-! ### What a run shows -/

/-- The byte a `transmit` that returned `Ok` was called for (R128). -/
def Event.sentByte (e : Event) : Option Byte :=
  match e with
  | .returned (.transmit v _) (.code .ok) => some v.b
  | _ => none

/-- The bytes sent device to host, in time order (R55, R192). -/
def State.sent (s : State) : List Byte := (s.events.filterMap Event.sentByte).reverse

/-- The data level at a falling edge of the device's clock. -/
def Event.edge (e : Event) : Option Level :=
  match e with
  | .drove .clk .drvLow _ d => some d
  | _ => none

/-- The data levels at the falling clock edges the device made, in time order (R132: what a host samples). -/
def State.edges (s : State) : List Level := (s.events.filterMap Event.edge).reverse

/-- What passed between device and host: a `transmit` of a byte with its result, a byte `receive` returned. -/
inductive Transfer where
  | sent (b : Byte) (r : ResultCode)
  | received (b : Byte)
  deriving DecidableEq, Repr

/-- The transfer an event completes. -/
def Event.transfer (e : Event) : Option Transfer :=
  match e with
  | .returned (.transmit v _) (.code r) => some (.sent v.b r)
  | .returned (.receive _ _) (.byte b) => some (.received b)
  | _ => none

/-- The transfers, the Collisions among them, in time order (R191: what stands between two bytes of a sequence). -/
def State.transfers (s : State) : List Transfer := (s.events.filterMap Event.transfer).reverse

/-- The bytes of a sequence sent without interruption: one `transmit` after the other, each `Ok`, no Collision and no
byte from the host between them (R191). -/
def uninterrupted (bytes : List Byte) : List Transfer := bytes.map (fun b => .sent b .ok)

/-- A drive event. -/
def Event.driven (e : Event) : Option (Line × Drive) :=
  match e with
  | .drove l d _ _ => some (l, d)
  | _ => none

/-- What the device drove, in time order. -/
def State.driven (s : State) : List (Line × Drive) := (s.events.filterMap Event.driven).reverse

/-- A logged byte. -/
def Event.loggedByte (e : Event) : Option Byte :=
  match e with
  | .logUnknown b => some b
  | _ => none

/-- The bytes of the `log_unknown` events, in time order (R176). -/
def State.logged (s : State) : List Byte := (s.events.filterMap Event.loggedByte).reverse

/-- R74: the level of a bit on an undisturbed wire. -/
def levelOfBit (v : Bool) : Level := if v then .high else .low

/-- Both lines released by the device (R27). -/
def State.released (s : State) : Prop := s.drvClk = .rel ∧ s.drvDat = .rel

/-- The persistent state that is not the line drivers (R20), and the parameters: unchanged. -/
def State.sameStore (s t : State) : Prop := t.cfg = s.cfg ∧ t.slots = s.slots ∧ t.enabled = s.enabled

/-- The stack below an operation after it has returned `r` to its caller (R12, R230). -/
def State.resumed (s : State) (r : Ret) : List Frame :=
  match s.ctl with
  | [] => []
  | g :: gs => g.deliver s.cfg r :: gs

/-- What an operation leaves that has returned `r` to its caller, having sent exactly `bytes` to the host (R55) and
logged exactly `logs`: both lines released (R27), the parameters as they were. What becomes of the registry and of the
flag is said beside it. -/
structure Completed (s t : State) (r : Ret) (bytes logs : List Byte) : Prop where
  stack : t.ctl = s.resumed r
  ret : t.ret = r
  sent : t.sent = s.sent ++ bytes
  logged : t.logged = s.logged ++ logs
  lines : t.released
  config : t.cfg = s.cfg
  taken : t.inject = none

/-- R71, R84, R132: the falling edges of the device's clock showed the eleven bits of each of `bytes`, and no others. -/
def FramesOnWire (s t : State) (bytes : List Byte) : Prop :=
  t.edges = s.edges ++ (bytes.flatMap frameCells).map levelOfBit

/-- What a step of the line primitives leaves: it has returned `r`, sent and logged nothing, and changed nothing of the
engine but what is said beside it of the two drivers. -/
structure Quiescent (s t : State) (r : Ret) : Prop where
  stack : t.ctl = s.resumed r
  ret : t.ret = r
  sent : t.sent = s.sent
  logged : t.logged = s.logged
  store : s.sameStore t
  taken : t.inject = none

/-- Both drivers as they were, and no drive event (R121, R141: "no line has been driven"). -/
def Undriven (s t : State) : Prop := t.drvClk = s.drvClk ∧ t.drvDat = s.drvDat ∧ t.driven = s.driven

/-- The registry and the flag as they were. -/
def KeysAndFlagKept (s t : State) : Prop := t.slots = s.slots ∧ t.enabled = s.enabled

/-- What a clock cycle drives (R75). -/
def pulse : List (Line × Drive) := [(.clk, .drvLow), (.clk, .rel)]

/-- R123 to R126: what the device drives for the frame of `b`, whatever the host does meanwhile. -/
def frameDrives (b : Byte) : List (Line × Drive) := (frameCells b).flatMap (fun v => (.dat, driveOfBit v) :: pulse)

/-- R143 to R147: ten clock pulses, then the acknowledgment around the eleventh. -/
def receiveDrives : List (Line × Drive) :=
  (List.replicate 10 pulse).flatten ++ (.dat, .drvLow) :: (pulse ++ [(.dat, .rel)])

/-- R250: an external operation has returned to the client: idle, `done` pulses, `result` is valid. -/
def Answered (t : State) (v : Bool) : Prop := t.ctl = [] ∧ t.done = true ∧ t.result = v

/-- An internal operation leaves the client's port alone. -/
def PortKept (s t : State) : Prop := t.done = false ∧ t.result = s.result

/-- One slot holds a new value, every other one what it held (R196, R200). -/
def SlotWritten (s t : State) (i : Nat) (k : Keycode) : Prop :=
  t.slots.get i = k ∧ ∀ j, j < nSlots → j ≠ i → t.slots.get j = s.slots.get j

/-! ### The rows of the opcode table that ask for an external operation -/

/-- The Keycode that stands on `req_key` for a KEYCODE16 row (R77, R78). -/
def KeycodeRow (c : Config) (i : Instr) (k : Keycode) : Prop :=
  match i with
  | .keycodePlain l => k = mkKey plainHi l
  | .keycodeExtended l => k = mkKey extByte l
  | .keycodeSpecialPrtsc => k = mkKey specialHi c.selPrtsc
  | .keycodeSpecialPause => k = mkKey specialHi c.selPause
  | .keycodeNone => k = c.keyNone
  | .keycodeReserved r => k = r
  | _ => False

/-- The rows that ask for `press(k)` (R89, R90, R250). -/
def PressForm (s : State) (i : Instr) (k : Keycode) : Prop :=
  i = .press k ∨ i = .opPress k ∨ KeycodeRow s.cfg i k ∧ s.env.reqOp = 1

/-- The rows that ask for `release(k)`. -/
def ReleaseForm (s : State) (i : Instr) (k : Keycode) : Prop :=
  i = .release k ∨ i = .opRelease k ∨ KeycodeRow s.cfg i k ∧ s.env.reqOp = 2

/-- The rows that ask for `poll()`: `req_key` is ignored. -/
def PollForm (s : State) (i : Instr) : Prop :=
  i = .poll ∨ i = .opPoll ∨ (∃ k, KeycodeRow s.cfg i k) ∧ s.env.reqOp = 0

/-- The rows that ask for `releaseAll()`: `req_key` is ignored. -/
def ReleaseAllForm (s : State) (i : Instr) : Prop :=
  i = .releaseAll ∨ i = .opReleaseAll ∨ (∃ k, KeycodeRow s.cfg i k) ∧ s.env.reqOp = 3

/-! ### The effect of a host command (R177) -/

/-- R177, M12: the bytes a command sends, a parameter not arriving in time. -/
def repliesOf (c : Config) (i : Instr) : List Byte :=
  match i with
  | .reset => [c.ackByte, c.batOk]
  | .resend | .setDefaults | .disableReporting | .enableReporting => [c.ackByte]
  | .setTypematicRate | .setScanCodeSet | .setResetLeds =>
    if c.ack2OnTimeout then [c.ackByte, c.ackByte] else [c.ackByte]
  | .getDeviceId => [c.ackByte, id0, id1]
  | .echo => [c.cmdEcho]
  | _ => []

/-- R177: the flag after a command. -/
def enabledAfter (i : Instr) (e : Bool) : Bool :=
  match i with
  | .reset | .enableReporting => true
  | .disableReporting => false
  | _ => e

/-- R176: what a command logs. -/
def logsOf (i : Instr) : List Byte :=
  match i with
  | .unknownCommand cmd => [cmd]
  | _ => []

/-! ### Premises about the world -/

/-- The inputs of the next `n + 1` steps, the present ones first. -/
def State.inputs (s : State) (n : Nat) : List Pins := s.env :: s.script.take n

/-- The inputs of the `n`-th step from now (the present ones are those of step 0) are described, and `q` holds of
them. -/
def State.inputAt (s : State) (n : Nat) (q : Pins → Prop) : Prop := ∃ p, (s.env :: s.script)[n]? = some p ∧ q p

/-- No reset in the next `n + 1` steps, all of them described. -/
def State.noReset (s : State) (n : Nat) : Prop := n ≤ s.script.length ∧ ∀ p ∈ s.inputs n, p.rst = false

/-- H-TX (R58) for the next `n + 1` steps: the host leaves both lines released. -/
def State.hostOff (s : State) (n : Nat) : Prop := ∀ p ∈ s.inputs n, p.hclk = .rel ∧ p.hdat = .rel

/-- One input of a host that leaves both lines released (H-TX, R58), without reset, a bounded wait running out at its
first unmet sample (R62 allows that at every one). -/
def isQuiet (p : Pins) : Bool :=
  decide (p.hclk = .rel) && decide (p.hdat = .rel) && decide (p.bound = 0) && !p.rst

/-- A quiet host for the next `n + 1` steps. -/
def State.quietFor (s : State) (n : Nat) : Prop := n ≤ s.script.length ∧ ∀ p ∈ s.inputs n, isQuiet p = true

/-- One input of a host that inhibits: it holds the clock low, and data too, its start bit to come (R221, R14). -/
def inhibited : Pins := { hostDat .drvLow with hclk := .drvLow }

/-- The host requests to send (R14): it inhibits for `n` steps, releases the clock with data low, puts the frame of `b`
with parity bit `p` on the line as the device clocks it (H-RX, R59), and is quiet for `m` steps after. -/
def State.hostCommands (s : State) (n : Nat) (b : Byte) (p : Bool) (m : Nat) : Prop :=
  ∃ after rest, s.env :: s.script
      = List.replicate n inhibited ++ List.replicate 5 (hostDat .drvLow) ++ hostFrame b p ++ (after ++ rest)
    ∧ after.length = m ∧ ∀ q ∈ after, isQuiet q = true

/-- The host is quiet for `m` steps, then sends the frame of `b` with parity bit `p`, then is quiet for `n` (R173). -/
def State.hostParameter (s : State) (m : Nat) (b : Byte) (p : Bool) (n : Nat) : Prop :=
  ∃ before after rest, s.env :: s.script = before ++ hostFrame b p ++ (after ++ rest)
    ∧ before.length = m ∧ after.length = n ∧ ∀ q ∈ before ++ after, isQuiet q = true

/-- A `receive` that begins `k` steps from now may take `n` unmet start-bit samples, and takes them: data is released at
each (R141, R62). The samples fall two steps apart. -/
def State.startUnmet (s : State) (k n : Nat) : Prop :=
  s.inputAt k (fun p => n ≤ p.bound) ∧ ∀ j, j < n → s.inputAt (k + 2 * j + 2) (fun p => p.hdat = .rel)

/-- A `receive` that begins `k` steps from now runs out of its start-bit wait at the `n + 1`-st unmet sample (R141). -/
def State.startExpires (s : State) (k n : Nat) : Prop :=
  s.inputAt k (fun p => p.bound = n) ∧ ∀ j, j ≤ n → s.inputAt (k + 2 * j + 2) (fun p => p.hdat = .rel)

/-- H-RX as weak as `receive` needs it (R59, R143): the host lets `n` start-bit samples pass, drives its start bit, holds
the clock low for `m` samples more, releases it, and has each bit of `b` on the line when the device samples it,
whatever it did between two samples. -/
def State.hostFrames (s : State) (n m : Nat) (b : Byte) : Prop :=
  s.startUnmet 0 n ∧ s.inputAt (2 * n + 2) (fun p => p.hdat = .drvLow)
    ∧ (∀ j, j < m → s.inputAt (2 * n + 4 + 2 * j) (fun p => p.hclk = .drvLow))
    ∧ s.inputAt (2 * n + 4 + 2 * m) (fun p => p.hclk = .rel)
    ∧ ∀ i, i < 8 → s.inputAt (2 * n + 15 + 2 * m + 10 * i) (fun p => p.hdat = driveOfBit (b.getLsbD i))

/-! ### The invariant -/

/-- R24: "each non-sentinel Keycode appears at most once across slots". -/
def RegistryUnique (s : State) : Prop := (s.slots.toList.filter (fun k => decide (k ≠ s.cfg.keyNone))).Nodup

/-- R207: "every populated slot always holds a well-formed Keycode". -/
def SlotsWellFormed (s : State) : Prop := ∀ k ∈ s.slots.toList, k = s.cfg.keyNone ∨ wfKey s.cfg k = true

/-- The line primitive a frame calls at its step: `transmit`, `receive` and `poll` at their bus events (R31, R106), and
`clock_cycle()` on its own (R92). -/
def Frame.primitive (c : Config) (f : Frame) : Option Frame :=
  match f with
  | .transmit v (.bus e) => some (e.primitive c v)
  | .receive _ (.bus e) => some (e.primitive c)
  | .poll (.bus e) => some e.primitive
  | .clockCycle (some p) => some p.primitive
  | _ => none

/-- A frame of a line primitive (R101 to R105). -/
def Frame.isPrimitive (f : Frame) : Bool :=
  match f with
  | .lineRelease _ => true
  | .assertLow _ => true
  | .lineRead _ => true
  | .delay _ => true
  | _ => false

/-- R31, the fixed call graph, with the step at which each call is made: `callee` may run on top of `caller`. The last
line is `{transmit, receive, poll} -> {line_read, assert_low, line_release, delay}`. -/
def Calls (c : Config) (caller callee : Frame) : Prop :=
  match caller, callee with
  | .releaseAll _, .release _ _ _ => True
  | .press _ _ (.loop .l0), .poll _ => True
  | .release _ _ (.loop .l0), .poll _ => True
  | .press _ q (.loop (.l3Send j)), .transmit v _ => q[j]? = some v.b
  | .release _ q (.loop (.l3Send j)), .transmit v _ => q[j]? = some v.b
  | .poll .p2, .receive _ _ => True
  | .poll (.p3 b), .handleCommand cmd _ => cmd = b
  | .handleCommand _ (.body (.ack :: _)), .ack _ => True
  | .handleCommand _ (.body (.send b :: _)), .transmit v _ => v.b = b
  | .handleCommand _ (.body (.receiveParam :: _)), .receive _ _ => True
  | .ack .s0, .transmit v _ => v.b = c.ackByte
  | g, f => g.primitive c = some f

/-- R30, R31: the stack is empty, or an external operation with calls of the graph on top of it. -/
def StackOk (c : Config) (ctl : List Frame) : Prop :=
  match ctl with
  | [] => True
  | [f] => f.external = true
  | f :: g :: rest => Calls c g f ∧ StackOk c (g :: rest)

/-- The clock driver within a clock cycle (R75). -/
def CyclePhase.clk (p : CyclePhase) : Drive :=
  match p with
  | .fall => .rel
  | .low => .drvLow
  | .rise => .drvLow
  | .high => .rel

/-- The clock driver within a bit cell. -/
def CellPhase.clk (c : CellPhase) : Drive :=
  match c with
  | .data => .rel
  | .setup => .rel
  | .cycle p => p.clk

/-- The clock driver before a bus event of the running operation. -/
def Frame.clk (f : Frame) : Drive :=
  match f with
  | .transmit _ (.bus (.t3 c)) => c.clk
  | .transmit _ (.bus (.t4 c)) => c.clk
  | .transmit _ (.bus (.t5 c)) => c.clk
  | .transmit _ (.bus (.t6 c)) => c.clk
  | .receive _ (.bus (.rx3 .low)) => .drvLow
  | .receive _ (.bus (.rx3 .rise)) => .drvLow
  | .receive _ (.bus (.rx4 p)) => p.clk
  | .receive _ (.bus (.rx5 p)) => p.clk
  | .receive _ (.bus (.rx6 p)) => p.clk
  | .clockCycle (some p) => p.clk
  | _ => .rel

/-- Whether the data driver may be `d` before a bus event of the running operation: what the cell presents once its data
event is past, whatever the previous cell left before it, released outside a frame (R27, R123 to R126, R147). -/
def Frame.datOk (f : Frame) (d : Drive) : Prop :=
  match f with
  | .transmit _ (.bus (.t3 .data)) => d = .rel
  | .transmit _ (.bus (.t3 _)) => d = .drvLow
  | .transmit _ (.bus (.t4 .data)) => True
  | .transmit v (.bus (.t4 _)) => d = driveOfBit (shiftBit v.sh)
  | .transmit _ (.bus (.t5 .data)) => True
  | .transmit v (.bus (.t5 _)) => d = driveOfBit v.par
  | .transmit _ (.bus (.t6 .data)) => True
  | .transmit _ (.bus (.t6 _)) => d = .rel
  | .receive _ (.bus (.rx6 _)) => d = .drvLow
  | .receive _ (.bus .rx6Release) => d = .drvLow
  | _ => d = .rel

/-- The running operation: the top frame, or the one below it while that is a primitive it has called. -/
def operating (ctl : List Frame) : Option Frame :=
  match ctl with
  | [] => none
  | f :: fs => if f.isPrimitive then fs.head? else some f

/-- R27: idle, or outside a frame, both lines are released; inside a frame they are driven as the step says. -/
def LinesOk (s : State) : Prop :=
  match operating s.ctl with
  | none => s.drvClk = .rel ∧ s.drvDat = .rel
  | some f => s.drvClk = f.clk ∧ f.datOk s.drvDat

/-- R72: the running parity after the first `i` bits of `b`. -/
def parAfter (b : Byte) (i : Nat) : Bool := (List.range i).foldl (fun p n => parStep p (b.getLsbD n)) parStart

/-- The index into a sequence at a step of the retry loop (R190). -/
def LoopLabel.inRange (q : List Byte) (l : LoopLabel) : Prop :=
  match l with
  | .l0 => True
  | .l1 => True
  | .l2 j => j ≤ q.length
  | .l3 j => j < q.length
  | .l3Send j => j < q.length

/-- The same for a step of `press` or `release`. -/
def KeyLabel.inRange (q : List Byte) (l : KeyLabel) : Prop :=
  match l with
  | .loop m => m.inRange q
  | _ => True

/-- What a frame's locals are at its step: the shift register and the running parity of `transmit` (R124, R125), the
sequence and the registry of `press` and `release` (R194, R199), the bounds of the counters. That the counter of
`transmit` is 0 in the start cell already is the model's choice (log entry 31). -/
def FrameOk (c : Config) (r : Registry) (f : Frame) : Prop :=
  match f with
  | .press k q .entry => q = seqOf c k .press ∧ classify c k ≠ .reserved
  | .press k q .finish => q = seqOf c k .press ∧ wfKey c k = true ∧ r.find k ≠ none
  | .press k q l => q = seqOf c k .press ∧ wfKey c k = true ∧ r.find k = none ∧ r.free c ≠ none ∧ l.inRange q
  | .release k q .entry => q = seqOf c k .release
  | .release k q .finish => q = seqOf c k .release ∧ k ≠ c.keyNone ∧ r.find k = none
  | .release k q l => q = seqOf c k .release ∧ k ≠ c.keyNone ∧ r.find k ≠ none ∧ l.inRange q
  | .releaseAll n => n ≤ nSlots
  | .transmit v (.bus (.t3 _)) => v.i = 0 ∧ v.sh = v.b ∧ v.par = parStart
  | .transmit v (.bus (.t4 _)) => v.i < 8 ∧ v.sh = v.b >>> v.i ∧ v.par = parAfter v.b v.i
  | .transmit v (.bus (.t5 _)) => v.par = parity v.b
  | .receive v (.bus (.rx3 _)) => v.i < 8
  | _ => True

/-- The invariant of an engine that only its client starts. -/
structure Inv (s : State) : Prop where
  config : s.cfg.wf = true
  clientOnly : s.inject = none
  unique : RegistryUnique s
  slotsWf : SlotsWellFormed s
  stack : StackOk s.cfg s.ctl
  frames : ∀ f ∈ s.ctl, FrameOk s.cfg s.slots f
  lines : LinesOk s

end Sys2Proof.Machine
end

