-- ==== Sys2Proof/Certificates/Slice0/Obligations.lean ====
section
/-!
DEFINITION. The statements for the provers, in the order of the spec's files: encodings, the wire, `transmit`,
`receive`, the commands, the sequences, the keys, `poll`, and the rules of the whole machine.
-/

section Statements

open Sys2Proof Sys2Proof.Machine

/-! ### Encodings (spec/30_encoding.md) -/

/-- Every word of a well-formed instruction decodes to that instruction, for all parameters the spec allows: no bit of
an encoding is dropped. The operand bytes of OPID4 and the PSEUDO codes are the model's choice (log entry 4). -/
def Obligations.DecodeEncode : Prop :=
  ∀ (c : Config) (i : Instr), c.wf = true → WellFormed c i = true → decode c (encode c i) = .ok i

/-- What the decoder answers is an instruction of the class its constructor names. -/
def Obligations.DecodedWellFormed : Prop :=
  ∀ (c : Config) (w : TableWord) (i : Instr), decode c w = .ok i → WellFormed c i = true

/-- R89: every value of the two code bits is a request; `POLL` and `RELEASE_ALL` ignore `req_key`. -/
def Obligations.RequestCodes : Prop :=
  ∀ (c : Config) (k : Keycode),
    decode c ⟨.req18, requestBytes 0 k⟩ = .ok .poll ∧ decode c ⟨.req18, requestBytes 1 k⟩ = .ok (.press k)
      ∧ decode c ⟨.req18, requestBytes 2 k⟩ = .ok (.release k) ∧ decode c ⟨.req18, requestBytes 3 k⟩ = .ok .releaseAll

/-- R78: the class of every 16-bit value by its halves; everything else is reserved (R79). -/
def Obligations.KeycodeClasses : Prop :=
  ∀ (c : Config) (k : Keycode), c.wf = true →
    (k = c.keyNone → decode c ⟨.keycode16, keyBytes k⟩ = .ok .keycodeNone)
    ∧ (k ≠ c.keyNone → hi k = 0x00 → decode c ⟨.keycode16, keyBytes k⟩ = .ok (.keycodePlain (lo k)))
    ∧ (k ≠ c.keyNone → hi k = 0xE0 → decode c ⟨.keycode16, keyBytes k⟩ = .ok (.keycodeExtended (lo k)))
    ∧ (hi k = 0xFF → lo k = c.selPrtsc → decode c ⟨.keycode16, keyBytes k⟩ = .ok .keycodeSpecialPrtsc)
    ∧ (hi k = 0xFF → lo k = c.selPause → decode c ⟨.keycode16, keyBytes k⟩ = .ok .keycodeSpecialPause)
    ∧ (k ≠ c.keyNone → hi k ≠ 0x00 → hi k ≠ 0xE0 → (hi k = 0xFF → lo k ≠ c.selPrtsc ∧ lo k ≠ c.selPause) →
      decode c ⟨.keycode16, keyBytes k⟩ = .ok (.keycodeReserved k))

/-- R80 to R84: the bytes of a key in each direction, and the row of the opcode table they are the word of. -/
def Obligations.SequenceWords : Prop :=
  ∀ (c : Config) (k : Keycode), c.wf = true →
    (k ≠ c.keyNone → hi k = 0x00 →
      seqOf c k .press = [lo k] ∧ decode c ⟨.byteSeq, [lo k]⟩ = .ok (.seqPlainPress (lo k))
      ∧ seqOf c k .release = [0xF0, lo k] ∧ decode c ⟨.byteSeq, [0xF0, lo k]⟩ = .ok (.seqPlainRelease (lo k)))
    ∧ (k ≠ c.keyNone → hi k = 0xE0 →
      seqOf c k .press = [0xE0, lo k] ∧ decode c ⟨.byteSeq, [0xE0, lo k]⟩ = .ok (.seqExtendedPress (lo k))
      ∧ seqOf c k .release = [0xE0, 0xF0, lo k]
      ∧ decode c ⟨.byteSeq, [0xE0, 0xF0, lo k]⟩ = .ok (.seqExtendedRelease (lo k)))
    ∧ (hi k = 0xFF → lo k = c.selPrtsc →
      seqOf c k .press = [0xE0, 0x12, 0xE0, 0x7C]
      ∧ decode c ⟨.byteSeq, [0xE0, 0x12, 0xE0, 0x7C]⟩ = .ok .seqPrtscPress
      ∧ seqOf c k .release = [0xE0, 0xF0, 0x7C, 0xE0, 0xF0, 0x12]
      ∧ decode c ⟨.byteSeq, [0xE0, 0xF0, 0x7C, 0xE0, 0xF0, 0x12]⟩ = .ok .seqPrtscRelease)
    ∧ (hi k = 0xFF → lo k = c.selPause →
      seqOf c k .press = [0xE1, 0x14, 0x77, 0xE1, 0xF0, 0x14, 0xF0, 0x77]
      ∧ decode c ⟨.byteSeq, [0xE1, 0x14, 0x77, 0xE1, 0xF0, 0x14, 0xF0, 0x77]⟩ = .ok .seqPausePress
      ∧ seqOf c k .release = [] ∧ decode c ⟨.byteSeq, []⟩ = .ok .seqPauseRelease)

/-- R72: the parity bit is 1 exactly when the byte has an even number of 1 bits, it is the exclusive-or of the rule, and
the running accumulator ends in it. -/
def Obligations.OddParity : Prop :=
  ∀ b : Byte,
    (parity b = true ↔ (List.range 8).countP (fun n => b.getLsbD n) % 2 = 0)
    ∧ parity b = (List.range 8).foldl (fun p n => p ^^ b.getLsbD n) true
    ∧ parAfter b 0 = true ∧ (∀ i, i < 8 → parAfter b (i + 1) = (parAfter b i ^^ b.getLsbD i))
    ∧ parity b = parAfter b 8

/-- Words written out from the spec's tables (R71, R73, R77, R82, R86, R88, R89, R90; the frames are those of
spec/95_test_vectors.md 2.3 and program 3). -/
def Obligations.SampleWords : Prop :=
  decode Config.default ⟨.hostCmd8, [0xF4]⟩ = .ok .enableReporting
  ∧ decode Config.default ⟨.hostCmd8, [0x00]⟩ = .ok (.unknownCommand 0x00)
  ∧ decode Config.default ⟨.param8, [0xFF]⟩ = .ok (.parameterByte 0xFF)
  ∧ decode Config.default ⟨.resp8, [0xAB]⟩ = .ok .identityByte0
  ∧ decode Config.default ⟨.frameD2H, [0x38, 0x04]⟩ = .ok (.frameDeviceToHost 0x1C)
  ∧ decode Config.default ⟨.frameD2H, [0x38, 0x06]⟩ = .error .badParity
  ∧ decode Config.default ⟨.frameH2D, [0xE4, 0x05]⟩ = .ok (.frameHostToDevice 0xF2 false)
  ∧ decode Config.default ⟨.keycode16, [0x75, 0xE0]⟩ = .ok (.keycodeExtended 0x75)
  ∧ decode Config.default ⟨.byteSeq, [0xF0, 0x1C]⟩ = .ok (.seqPlainRelease 0x1C)
  ∧ decode Config.default ⟨.req18, [0x1C, 0x00, 0x01]⟩ = .ok (.press 0x001C)
  ∧ decode Config.default ⟨.req18, [0x1C, 0x00, 0x02]⟩ = .ok (.release 0x001C)
  ∧ decode Config.default ⟨.opId4, [0x06]⟩ = .ok .opAck
  ∧ decode Config.default ⟨.opId4, [0x0D]⟩ = .error .unusedOperationId

/-- R87: for all parameters a byte that is none of the ten codes is unknown and a parameter byte is never decoded; with
the defaults 246 bytes are unknown. -/
def Obligations.UnknownBytes : Prop :=
  (∀ (c : Config) (b : Byte), b ∉ c.commandCodes → decode c ⟨.hostCmd8, [b]⟩ = .ok (.unknownCommand b))
  ∧ (∀ (c : Config) (b : Byte), decode c ⟨.param8, [b]⟩ = .ok (.parameterByte b))
  ∧ ((List.range 256).filter (fun n => isUnknown Config.default (BitVec.ofNat 8 n))).length = 246

/-! ### The wire and the line primitives (spec/10_state.md, spec/40_line_primitives.md) -/

/-- R41: the wire level is a function of the two driver states and nothing else. -/
def Obligations.WireLevel : Prop :=
  ∀ (s : State) (l : Line),
    (s.level l = .low ↔ s.drv l = .drvLow ∨ s.hdrv l = .drvLow) ∧ (s.level l = .high ↔ s.drv l = .rel ∧ s.hdrv l = .rel)

/-- R101: `line_release(l)` releases `l`; the level is then high only if the host does not drive `l`. -/
def Obligations.LineRelease : Prop :=
  ∀ (l : Line) (s : State), s.env.rst = false →
    ∃ t, exec (.opLineRelease l) s = .next t ∧ t.drv l = .rel ∧ (∀ m, m ≠ l → t.drv m = s.drv m)
      ∧ (t.level l = .high ↔ t.hdrv l = .rel) ∧ t.driven = s.driven ++ [(l, .rel)] ∧ Quiescent s t .unit ∧ PortKept s t

/-- R102: `assert_low(l)` drives `l`; the level is then low whatever the host does. -/
def Obligations.AssertLow : Prop :=
  ∀ (l : Line) (s : State), s.env.rst = false →
    ∃ t, exec (.opAssertLow l) s = .next t ∧ t.drv l = .drvLow ∧ (∀ m, m ≠ l → t.drv m = s.drv m)
      ∧ t.level l = .low ∧ t.driven = s.driven ++ [(l, .drvLow)] ∧ Quiescent s t .unit ∧ PortKept s t

/-- R104, R61: `line_read(l)` returns the wire level at the read and changes nothing. -/
def Obligations.LineRead : Prop :=
  ∀ (l : Line) (s : State), s.env.rst = false →
    ∃ t, exec (.opLineRead l) s = .next t ∧ Quiescent s t (.level (s.level l)) ∧ Undriven s t ∧ PortKept s t

/-- R105: `delay(t)` lets the time `t` pass and changes nothing of the engine. -/
def Obligations.Delay : Prop :=
  ∀ (n : Nat) (s : State), s.env.rst = false →
    ∃ t, exec (.opDelay n) s = .next t ∧ t.events = .returned (.delay n) .unit :: .delayed n :: s.events
      ∧ Quiescent s t .unit ∧ Undriven s t ∧ PortKept s t

/-- R75: `clock_cycle()` is clock low, half a period, clock released, half a period; data is not touched. -/
def Obligations.ClockCycle : Prop :=
  ∀ s : State, s.noReset 8 →
    ∃ t, exec .opClockCycle s = .next t ∧ t.drvClk = .rel ∧ t.drvDat = s.drvDat
      ∧ (∃ d1 c2 d2, t.events = .returned (.clockCycle none) .unit
          :: .returned (.delay tHalf) .unit :: .delayed tHalf
          :: .returned (.lineRelease .clk) .unit :: .drove .clk .rel c2 d2
          :: .returned (.delay tHalf) .unit :: .delayed tHalf
          :: .returned (.assertLow .clk) .unit :: .drove .clk .drvLow .low d1 :: s.events)
      ∧ Quiescent s t .unit ∧ PortKept s t

/-! ### transmit (spec/41_transmit.md) -/

/-- R121: the clock is tested first; on a Collision no line has been driven, no bit sent, no state changed. -/
def Obligations.TransmitCollision : Prop :=
  (∀ (b : Byte) (s : State), s.noReset 2 → s.inputAt 1 (fun p => wireLevel s.drvClk p.hclk = .low) →
    ∃ t, exec (.opTransmit b) s = .next t ∧ Quiescent s t (.code .collisionClock) ∧ Undriven s t ∧ PortKept s t)
  ∧ (∀ (b : Byte) (s : State), s.noReset 4 → s.inputAt 1 (fun p => wireLevel s.drvClk p.hclk = .high) →
    s.inputAt 3 (fun p => wireLevel s.drvDat p.hdat = .low) →
    ∃ t, exec (.opTransmit b) s = .next t ∧ Quiescent s t (.code .collisionData) ∧ Undriven s t ∧ PortKept s t)

/-- R132, R71, R128: under H-TX and an idle bus `transmit(b)` returns `Ok`, and the data levels at the eleven falling
clock edges are 0, b[0] to b[7], P(b), 1, with an odd number of 1 bits among data and parity. From the acknowledgment
window on the host is arbitrary; that the window is over after at most `m` unmet samples, `m` read as it opens, is the
model's finite bound (log entries 20 and 28). -/
def Obligations.TransmitFrame : Prop :=
  ∀ (b : Byte) (m : Nat) (s : State), s.released → s.noReset (142 + 2 * m) → s.hostOff 136 →
    s.inputAt 137 (fun p => p.bound ≤ m) →
    (∃ t, exec (.opTransmit b) s = .next t ∧ Completed s t (.code .ok) [b] []
      ∧ t.edges = s.edges ++ (false :: (List.range 8).map (fun n => b.getLsbD n) ++ [parity b, true]).map levelOfBit
      ∧ KeysAndFlagKept s t ∧ PortKept s t)
    ∧ ((List.range 8).map (fun n => b.getLsbD n) ++ [parity b]).countP id % 2 = 1

/-- FRAME_D2H: a frame once begun goes over the wire whole. DESIGN CHOICE (log entry 13): the row is `transmit` from step
T2 on. Whatever the host does the device drives the whole frame and returns `Ok`; under H-TX the eleven falling edges
show it. -/
def Obligations.FrameDeviceToHost : Prop :=
  ∀ (b : Byte) (m : Nat) (s : State), s.released → s.noReset (138 + 2 * m) → s.inputAt 133 (fun p => p.bound ≤ m) →
    ∃ t, exec (.frameDeviceToHost b) s = .next t ∧ Completed s t (.code .ok) [b] []
      ∧ t.driven = s.driven ++ frameDrives b ∧ (s.hostOff 132 → FramesOnWire s t [b]) ∧ KeysAndFlagKept s t
      ∧ PortKept s t

/-- R57, R64, R127, R128, R131: once the idle check has passed, what the device drives does not depend on what the host
does, and the result is `Ok`. The host is arbitrary but for the two samples of the check, in the frame and in the
acknowledgment window alike: the window ends by the pulse or by expiry, at any sample its bound allows. -/
def Obligations.TransmitOpenLoop : Prop :=
  ∀ (b : Byte) (m : Nat) (s : State), s.released → s.noReset (142 + 2 * m) → s.inputAt 1 (fun p => p.hclk = .rel) →
    s.inputAt 3 (fun p => p.hdat = .rel) → s.inputAt 137 (fun p => p.bound ≤ m) →
    ∃ t, exec (.opTransmit b) s = .next t ∧ Completed s t (.code .ok) [b] [] ∧ t.driven = s.driven ++ frameDrives b
      ∧ KeysAndFlagKept s t ∧ PortKept s t

/-- R129, R130: whatever the host does, a `transmit` that returns returns `Ok` or a Collision, never `Timeout`, leaves
released lines released and touches neither the registry nor the flag; and it does return: within 143 + 2m steps, m
being the bound its acknowledgment window is given as it opens. -/
def Obligations.TransmitResults : Prop :=
  (∀ (b : Byte) (s t : State), exec (.opTransmit b) s = .next t → t.ctl.length = s.ctl.length →
    (t.ret = .code .ok ∧ t.sent = s.sent ++ [b]
      ∨ (t.ret = .code .collisionClock ∨ t.ret = .code .collisionData) ∧ t.sent = s.sent ∧ t.driven = s.driven)
    ∧ (s.released → t.released) ∧ KeysAndFlagKept s t ∧ t.logged = s.logged)
  ∧ (∀ (b : Byte) (m : Nat) (s : State), s.noReset (142 + 2 * m) → s.inputAt 137 (fun p => p.bound ≤ m) →
    ∃ t, exec (.opTransmit b) s = .next t ∧ t.ctl.length = s.ctl.length)

/-! ### receive (spec/42_receive.md) -/

/-- R141, R62: the start-bit wait that expires, after any number of unmet samples, returns `Timeout`; no line has been
driven and no state changed. -/
def Obligations.ReceiveTimeout : Prop :=
  ∀ (n : Nat) (s : State), s.drvDat = .rel → s.noReset (2 * n + 3) → s.startExpires 0 n →
    ∃ t, exec .opReceive s = .next t ∧ Quiescent s t (.code .timeout) ∧ Undriven s t ∧ PortKept s t

/-- R59, R76, R141 to R148: `receive` returns the host's byte, least significant bit first, having made ten clock pulses
and the acknowledgment: after any number of unmet start-bit samples its bound allows, after any number of samples at
which the host still holds the clock, and wherever between two samples the host sets a bit. Parity and stop bit are not
looked at. -/
def Obligations.ReceiveByte : Prop :=
  ∀ (n m : Nat) (b : Byte) (s : State), s.released → s.noReset (2 * n + 2 * m + 116) → s.hostFrames n m b →
    ∃ t, exec .opReceive s = .next t ∧ Completed s t (.byte b) [] [] ∧ t.driven = s.driven ++ receiveDrives
      ∧ KeysAndFlagKept s t ∧ PortKept s t

/-- FRAME_H2D: a frame the host puts on the line is clocked in. DESIGN CHOICE (log entry 13): the row puts the host's half
of the frame before the described inputs, which follow it. -/
def Obligations.FrameHostToDevice : Prop :=
  ∀ (b : Byte) (p : Bool) (s : State), s.released →
    ∃ t, exec (.frameHostToDevice b p) s = .next t ∧ Completed s t (.byte b) [] []
      ∧ t.driven = s.driven ++ receiveDrives ∧ t.env = s.env ∧ t.script = s.script
      ∧ KeysAndFlagKept s t ∧ PortKept s t

/-- R142, R276: while the host holds the clock low `receive` waits at RX1 and drives nothing, however long. -/
def Obligations.ReceiveWaits : Prop :=
  ∀ s : State, (∀ p ∈ s.env :: s.script, p.rst = false ∧ p.hclk = .drvLow) → s.inputAt 2 (fun p => p.hdat = .drvLow) →
    ∃ t v, exec .opReceive s = .next t
      ∧ (t.ctl = .receive v (.bus .rx1) :: s.ctl ∨ t.ctl = .lineRead .clk :: .receive v (.bus .rx1) :: s.ctl)
      ∧ Undriven s t ∧ s.sameStore t

/-! ### The commands (spec/43_command_protocol.md) -/

/-- R164, R165: `resend` and `set-defaults` send one ACK and do nothing else. -/
def Obligations.AckOnlyCommands : Prop :=
  ∀ (i : Instr) (s : State), i = .resend ∨ i = .setDefaults → s.released → s.quietFor 144 →
    ∃ t, exec i s = .next t ∧ Completed s t .unit [s.cfg.ackByte] [] ∧ FramesOnWire s t [s.cfg.ackByte]
      ∧ KeysAndFlagKept s t ∧ PortKept s t

/-- R166, R167: `disable-reporting` and `enable-reporting` write the flag and send one ACK; the flag is written before
the ack: one step after the start it holds its new value and nothing has been sent. -/
def Obligations.ReportingCommands : Prop :=
  ∀ (i : Instr) (v : Bool) (s : State), i = .disableReporting ∧ v = false ∨ i = .enableReporting ∧ v = true →
    (s.released → s.quietFor 145 →
      ∃ t, exec i s = .next t ∧ Completed s t .unit [s.cfg.ackByte] [] ∧ FramesOnWire s t [s.cfg.ackByte]
        ∧ t.slots = s.slots ∧ t.enabled = v ∧ PortKept s t)
    ∧ (s.env.rst = false → s.script = [] →
      ∃ t, exec i s = .next t ∧ t.enabled = v ∧ t.sent = s.sent ∧ t.ctl.length = s.ctl.length + 1)

/-- R163: `reset` sends ACK and the self-test-passed code and then sets the flag, the registry kept; the flag is written
last, whatever the host does. -/
def Obligations.ResetCommand : Prop :=
  (∀ s : State, s.released → s.quietFor 287 →
    ∃ t, exec .reset s = .next t ∧ Completed s t .unit [s.cfg.ackByte, s.cfg.batOk] []
      ∧ FramesOnWire s t [s.cfg.ackByte, s.cfg.batOk] ∧ t.slots = s.slots ∧ t.enabled = true ∧ PortKept s t)
  ∧ (∀ s t : State, exec .reset s = .next t →
    t.slots = s.slots ∧ (t.enabled ≠ s.enabled → t.enabled = true ∧ t.sent = s.sent ++ [s.cfg.ackByte, s.cfg.batOk]))

/-- R169: `get-device-id` sends ACK, 0xAB, 0x83, in that order. -/
def Obligations.GetDeviceId : Prop :=
  ∀ s : State, s.released → s.quietFor 428 →
    ∃ t, exec .getDeviceId s = .next t ∧ Completed s t .unit [s.cfg.ackByte, 0xAB, 0x83] []
      ∧ FramesOnWire s t [s.cfg.ackByte, 0xAB, 0x83] ∧ KeysAndFlagKept s t ∧ PortKept s t

/-- R171: `echo` sends the command byte itself, no ACK. -/
def Obligations.EchoCommand : Prop :=
  ∀ s : State, s.released → s.quietFor 142 →
    ∃ t, exec .echo s = .next t ∧ Completed s t .unit [s.cfg.cmdEcho] [] ∧ FramesOnWire s t [s.cfg.cmdEcho]
      ∧ KeysAndFlagKept s t ∧ PortKept s t

/-- R176: an unknown command is logged and ignored: nothing is driven, nothing sent. -/
def Obligations.UnknownCommand : Prop :=
  ∀ (cmd : Byte) (s : State), s.noReset 1 →
    ∃ t, exec (.unknownCommand cmd) s = .next t ∧ t.ctl = s.resumed .unit ∧ t.ret = .unit
      ∧ t.logged = s.logged ++ [cmd] ∧ t.sent = s.sent ∧ Undriven s t ∧ s.sameStore t ∧ PortKept s t

/-- R168, R170, R172, R173: the parameter-taking commands send ACK, take one parameter byte of any value and send a
second ACK; if no parameter arrives in time the second ACK is sent only with `ACK2_ON_TIMEOUT`. -/
def Obligations.ParameterCommands : Prop :=
  ∀ (i : Instr) (s : State), i = .setTypematicRate ∨ i = .setScanCodeSet ∨ i = .setResetLeds → s.released →
    (∀ (v : Byte) (p : Bool), s.hostParameter 145 v p 145 →
      ∃ t, exec i s = .next t ∧ Completed s t .unit [s.cfg.ackByte, s.cfg.ackByte] [] ∧ KeysAndFlagKept s t
        ∧ PortKept s t)
    ∧ (s.quietFor 293 → s.cfg.ack2OnTimeout = true →
      ∃ t, exec i s = .next t ∧ Completed s t .unit [s.cfg.ackByte, s.cfg.ackByte] []
        ∧ FramesOnWire s t [s.cfg.ackByte, s.cfg.ackByte] ∧ KeysAndFlagKept s t ∧ PortKept s t)
    ∧ (s.quietFor 293 → s.cfg.ack2OnTimeout = false →
      ∃ t, exec i s = .next t ∧ Completed s t .unit [s.cfg.ackByte] [] ∧ FramesOnWire s t [s.cfg.ackByte]
        ∧ KeysAndFlagKept s t ∧ PortKept s t)

/-- R87, R173: a parameter byte, a command code included, is discarded and answered by an ACK, never decoded. That the
row stands for the frame together with the ACK that answers it is the model's reading (log entry 11). -/
def Obligations.ParameterByte : Prop :=
  ∀ (v : Byte) (s : State), s.released → s.quietFor 144 →
    ∃ t, exec (.parameterByte v) s = .next t ∧ Completed s t .unit [s.cfg.ackByte] [] ∧ KeysAndFlagKept s t
      ∧ PortKept s t

/-- R160, R177, R178: `handle_command` of any byte does what the table says of the command it is, under a quiet host. -/
def Obligations.HandleCommand : Prop :=
  ∀ (cmd : Byte) (s : State), s.released → s.quietFor 429 →
    ∃ t, exec (.opHandleCommand cmd) s = .next t
      ∧ Completed s t .unit (repliesOf s.cfg (commandOf s.cfg cmd)) (logsOf (commandOf s.cfg cmd))
      ∧ FramesOnWire s t (repliesOf s.cfg (commandOf s.cfg cmd)) ∧ t.slots = s.slots
      ∧ t.enabled = enabledAfter (commandOf s.cfg cmd) s.enabled ∧ PortKept s t

/-- R88, R161, R162: each reply byte is sent in one frame of its own. -/
def Obligations.Replies : Prop :=
  ∀ (i : Instr) (b : Byte) (s : State),
    (i = .opAck ∧ b = s.cfg.ackByte ∨ i = .ackReply ∧ b = s.cfg.ackByte ∨ i = .selfTestPassed ∧ b = s.cfg.batOk
      ∨ i = .identityByte0 ∧ b = 0xAB ∨ i = .identityByte1 ∧ b = 0x83 ∨ i = .echoReply ∧ b = s.cfg.cmdEcho
      ∨ i = .opSendUntilOk b) →
    s.released → s.quietFor 142 →
    ∃ t, exec i s = .next t ∧ Completed s t .unit [b] [] ∧ FramesOnWire s t [b] ∧ KeysAndFlagKept s t ∧ PortKept s t

/-- R161, R162, R277: whatever the host does, a retry loop that ends has sent its byte exactly once, and one that has
not ended has sent nothing yet or has just sent it. -/
def Obligations.RetryLoop : Prop :=
  ∀ (i : Instr) (b : Byte) (s t : State),
    (i = .opAck ∧ b = s.cfg.ackByte ∨ i = .opSendUntilOk b) → exec i s = .next t →
    (t.ctl.length = s.ctl.length → t.ret = .unit ∧ t.sent = s.sent ++ [b])
    ∧ (t.sent = s.sent ∨ t.sent = s.sent ++ [b]) ∧ KeysAndFlagKept s t ∧ t.logged = s.logged

/-! ### Sequences and keys (spec/44_key_compositor.md) -/

/-- R190 under a quiet host: one pass of the loop sends the sequence in list order (R55), for any sequence and for the
eight rows of the table (R80 to R83). -/
def Obligations.SendSequence : Prop :=
  ∀ (i : Instr) (seq : List Byte) (s : State),
    (i = .opSendSequence seq ∨ (∃ l, i = .seqPlainPress l ∧ seq = [l])
      ∨ (∃ l, i = .seqExtendedPress l ∧ seq = [0xE0, l]) ∨ (∃ l, i = .seqPlainRelease l ∧ seq = [0xF0, l])
      ∨ (∃ l, i = .seqExtendedRelease l ∧ seq = [0xE0, 0xF0, l])
      ∨ i = .seqPrtscPress ∧ seq = [0xE0, 0x12, 0xE0, 0x7C]
      ∨ i = .seqPrtscRelease ∧ seq = [0xE0, 0xF0, 0x7C, 0xE0, 0xF0, 0x12]
      ∨ i = .seqPausePress ∧ seq = [0xE1, 0x14, 0x77, 0xE1, 0xF0, 0x14, 0xF0, 0x77] ∨ i = .seqPauseRelease ∧ seq = []) →
    s.released → s.quietFor (144 * seq.length + 7) →
    ∃ t, exec i s = .next t ∧ Completed s t .unit seq [] ∧ FramesOnWire s t seq ∧ KeysAndFlagKept s t ∧ PortKept s t

/-- R239: a Collision of a byte, or a serviced host command, sends the loop to L0; nothing is saved, the index is
dropped, the registry and the flag are untouched. The loop of `press`, of `release` and of `send_sequence` itself. -/
def Obligations.SequenceAbandoned : Prop :=
  ∀ (k : Keycode) (q : List Byte) (j : Nat) (v : TxLocals) (at_ : LoopLabel → Frame) (fs : List Frame) (s : State),
    (at_ = fun l => .press k q (.loop l)) ∨ (at_ = fun l => .release k q (.loop l)) ∨ (at_ = fun l => .sendSequence q l) →
    s.env.rst = false →
    (s.ctl = .lineRead .clk :: .transmit v (.bus .t0) :: at_ (.l3Send j) :: fs → s.level .clk = .low →
      ∃ t, step s = .next t ∧ t.ctl = .transmit v (.fail .collisionClock) :: at_ (.l3Send j) :: fs ∧ Undriven s t
        ∧ s.sameStore t ∧ t.sent = s.sent)
    ∧ (s.ctl = .lineRead .dat :: .transmit v (.bus .t1) :: at_ (.l3Send j) :: fs → s.level .dat = .low →
      ∃ t, step s = .next t ∧ t.ctl = .transmit v (.fail .collisionData) :: at_ (.l3Send j) :: fs ∧ Undriven s t
        ∧ s.sameStore t ∧ t.sent = s.sent)
    ∧ (∀ r, r = .collisionClock ∨ r = .collisionData → s.ctl = .transmit v (.fail r) :: at_ (.l3Send j) :: fs →
      ∃ t, step s = .next t ∧ t.ctl = at_ .l0 :: fs ∧ Undriven s t ∧ s.sameStore t ∧ t.sent = s.sent)
    ∧ (s.ctl = .poll (.out true) :: at_ .l0 :: fs →
      ∃ t, step s = .next t ∧ t.ctl = at_ .l0 :: fs ∧ Undriven s t ∧ s.sameStore t ∧ t.sent = s.sent)

/-- R240: when `poll` at L0 has returned false the sequence is sent again from byte 0, in the loop of `press`, of
`release` and of `send_sequence` itself. -/
def Obligations.SequenceRestarted : Prop :=
  ∀ (k : Keycode) (q : List Byte) (at_ : LoopLabel → Frame) (fs : List Frame) (s : State),
    (at_ = fun l => .press k q (.loop l)) ∨ (at_ = fun l => .release k q (.loop l)) ∨ (at_ = fun l => .sendSequence q l) →
    s.env.rst = false →
    (s.ctl = .poll (.out false) :: at_ .l0 :: fs →
      ∃ t, step s = .next t ∧ t.ctl = at_ .l1 :: fs ∧ Undriven s t ∧ s.sameStore t)
    ∧ (s.ctl = at_ .l1 :: fs → ∃ t, step s = .next t ∧ t.ctl = at_ (.l2 0) :: fs ∧ Undriven s t ∧ s.sameStore t)

/-- R194, R196, R197: a `press` of an absent key with a free slot sends the key's press sequence, records the key in
that slot only, and returns 1, whatever the flag is. That a KEYCODE16 row under the request code PRESS runs `press`,
`req_valid` or not, is the model's choice (log entry 14). -/
def Obligations.PressSucceeds : Prop :=
  ∀ (i : Instr) (k : Keycode) (n : Nat) (s : State), PressForm s i k → s.ctl = [] → s.released →
    wfKey s.cfg k = true → s.slots.find k = none → s.slots.free s.cfg = some n →
    s.quietFor (144 * (seqOf s.cfg k .press).length + 10) →
    ∃ t, exec i s = .next t ∧ Completed s t (.bit true) (seqOf s.cfg k .press) []
      ∧ FramesOnWire s t (seqOf s.cfg k .press) ∧ SlotWritten s t n k ∧ t.enabled = s.enabled ∧ Answered t true

/-- R195: a `press` of `KEY_NONE`, of a key already present or with no free slot returns 0; nothing is sent, `poll` is
not called, no state changes. The KEYCODE16 rows among the forms are the model's choice (log entry 14). -/
def Obligations.PressNoEffect : Prop :=
  ∀ (i : Instr) (k : Keycode) (s : State), PressForm s i k → s.ctl = [] → s.env.rst = false →
    classify s.cfg k ≠ .reserved → k = s.cfg.keyNone ∨ s.slots.find k ≠ none ∨ s.slots.free s.cfg = none →
    ∃ t f, exec i s = .next t ∧ t.events = .returned f (.bit false) :: s.events ∧ Undriven s t ∧ s.sameStore t
      ∧ Answered t false

/-- R79, R207: a `press` of a reserved Keycode is refused. The KEYCODE16 rows among the forms are the model's choice (log
entry 14). -/
def Obligations.PressReserved : Prop :=
  ∀ (i : Instr) (k : Keycode) (s : State), PressForm s i k → s.ctl = [] → classify s.cfg k = .reserved →
    exec i s = .refused (.reservedKeycode k)

/-- R32: an external operation asked for while one is in progress is refused. That an instruction which is executed is
refused, where a request at the port of a busy engine is merely not accepted (R250), is the model's inference (log entry
16); that the KEYCODE16 rows are external requests is its choice (log entry 14). -/
def Obligations.BusyRefused : Prop :=
  ∀ (i : Instr) (s : State), s.ctl ≠ [] →
    i = .poll ∨ (∃ k, i = .press k) ∨ (∃ k, i = .release k) ∨ i = .releaseAll ∨ (∃ k, i = .opPress k)
      ∨ i = .opReleaseAll ∨ (∃ k, KeycodeRow s.cfg i k) →
    exec i s = .refused .engineBusy

/-- R199, R200, R201: a `release` of a present key sends the key's release sequence, empties its slot only, and
returns 1; Pause among them sends nothing. That a KEYCODE16 row under the request code RELEASE runs `release` is the
model's choice (log entry 14). -/
def Obligations.ReleaseSucceeds : Prop :=
  ∀ (i : Instr) (k : Keycode) (n : Nat) (s : State), ReleaseForm s i k → s.ctl = [] ∨ i = .opRelease k → s.released →
    k ≠ s.cfg.keyNone → s.slots.find k = some n → s.quietFor (144 * (seqOf s.cfg k .release).length + 10) →
    ∃ t, exec i s = .next t ∧ Completed s t (.bit true) (seqOf s.cfg k .release) []
      ∧ FramesOnWire s t (seqOf s.cfg k .release) ∧ SlotWritten s t n s.cfg.keyNone ∧ t.enabled = s.enabled
      ∧ (s.ctl = [] → Answered t true)

/-- R199: a `release` of `KEY_NONE` or of an absent key, a reserved one included, returns 0; nothing is sent, `poll` is
not called, no state changes. The KEYCODE16 rows among the forms are the model's choice (log entry 14). -/
def Obligations.ReleaseNoEffect : Prop :=
  ∀ (i : Instr) (k : Keycode) (s : State), ReleaseForm s i k → s.ctl = [] ∨ i = .opRelease k → s.env.rst = false →
    k = s.cfg.keyNone ∨ s.slots.find k = none →
    ∃ t f, exec i s = .next t ∧ t.events = .returned f (.bit false) :: s.events ∧ t.ctl = s.resumed (.bit false)
      ∧ Undriven s t ∧ s.sameStore t ∧ (s.ctl = [] → Answered t false)

/-- R203, R204: `releaseAll` issues exactly one release sequence for each populated slot, the highest first, leaves the
registry fully empty and answers 0; on an empty registry it does nothing, not even a `poll`. R24 is its premise.
Whatever the host does (R206) the slots from some `n` up are empty and those below as they were, the release sequence of
each key already gone has been sent without interruption, in that order, and when the operation is over all are gone.
The KEYCODE16 rows among the forms are the model's choice (log entry 14). -/
def Obligations.ReleaseAllEmpties : Prop :=
  (∀ (i : Instr) (s : State), ReleaseAllForm s i → s.ctl = [] → s.released → RegistryUnique s → s.quietFor 5256 →
    ∃ t, exec i s = .next t
      ∧ Completed s t .unit
          ((s.slots.toList.reverse.filter (fun k => k ≠ s.cfg.keyNone)).flatMap (fun k => seqOf s.cfg k .release)) []
      ∧ (∀ n, n < nSlots → t.slots.get n = s.cfg.keyNone) ∧ t.enabled = s.enabled ∧ Answered t false
      ∧ ((∀ n, n < nSlots → s.slots.get n = s.cfg.keyNone) → ∃ f, t.events = .returned f .unit :: s.events))
  ∧ (∀ (i : Instr) (s t : State), ReleaseAllForm s i → s.ctl = [] → RegistryUnique s → exec i s = .next t →
    ∃ (n : Nat) (parts : List (List Transfer)) (rest : List Transfer), n ≤ nSlots
      ∧ (∀ j, j < n → t.slots.get j = s.slots.get j)
      ∧ (∀ j, n ≤ j → j < nSlots → t.slots.get j = s.cfg.keyNone)
      ∧ t.transfers = s.transfers ++ parts.flatten ++ rest
      ∧ List.Forall₂ (fun k part => uninterrupted (seqOf s.cfg k .release) <:+ part)
          ((s.slots.toList.drop n).reverse.filter (fun k => k ≠ s.cfg.keyNone)) parts
      ∧ (t.ctl = [] → n = 0))

/-- R191, R196, R206: whatever the host does during a `press`, the registry is as it was until the whole sequence has
been sent without interruption, no Collision and no byte from the host between its bytes or after them; then the key is
recorded in the free slot. The result is 1 exactly when it was. The KEYCODE16 rows among the forms are the model's choice
(log entry 14). -/
def Obligations.PressAtomic : Prop :=
  ∀ (i : Instr) (k : Keycode) (s t : State), PressForm s i k → s.ctl = [] → exec i s = .next t →
    (t.slots = s.slots ∨ t.slots = (s.record k).slots
      ∧ ∃ before, t.transfers = s.transfers ++ before ++ uninterrupted (seqOf s.cfg k .press))
    ∧ (Answered t true → s.slots.find k = none ∧ t.slots = (s.record k).slots
      ∧ ∃ before, t.transfers = s.transfers ++ before ++ uninterrupted (seqOf s.cfg k .press))
    ∧ (Answered t false → t.slots = s.slots ∧ t.transfers = s.transfers)

/-- R191, R200: the same of a `release`: the slot is cleared only after the whole sequence, sent without interruption. The
KEYCODE16 rows among the forms are the model's choice (log entry 14). -/
def Obligations.ReleaseAtomic : Prop :=
  ∀ (i : Instr) (k : Keycode) (s t : State), ReleaseForm s i k → s.ctl = [] → exec i s = .next t →
    (t.slots = s.slots ∨ t.slots = (s.clear k).slots
      ∧ ∃ before, t.transfers = s.transfers ++ before ++ uninterrupted (seqOf s.cfg k .release))
    ∧ (Answered t true → s.slots.find k ≠ none ∧ t.slots = (s.clear k).slots
      ∧ ∃ before, t.transfers = s.transfers ++ before ++ uninterrupted (seqOf s.cfg k .release))
    ∧ (Answered t false → t.slots = s.slots ∧ t.transfers = s.transfers)

/-! ### poll (spec/45_poll.md) -/

/-- R221, R222, R224, R225: on an idle bus `poll` takes two samples, drives nothing and returns false. It returns false
too when the host inhibits for any number of samples and then sends nothing, and when the start bit it saw at P1 is gone
and `receive` times out, after any number of unmet samples. That a KEYCODE16 row under the request code POLL polls is the
model's choice (log entry 14). -/
def Obligations.PollIdle : Prop :=
  ∀ (i : Instr) (s : State), PollForm s i → s.ctl = [] ∨ i = .opPoll → s.released →
    (s.quietFor 4 →
      ∃ t f, exec i s = .next t ∧ Completed s t (.bit false) [] []
        ∧ t.events = .returned f (.bit false) :: .returned (.lineRead .dat) (.level .high) :: .sampled .dat .high
          :: .returned (.lineRead .clk) (.level .high) :: .sampled .clk .high :: s.events
        ∧ KeysAndFlagKept s t ∧ (s.ctl = [] → Answered t false))
    ∧ (∀ m, s.noReset (2 * m + 4) → (∀ j, j < m → s.inputAt (2 * j + 1) (fun p => p.hclk = .drvLow)) →
      s.inputAt (2 * m + 1) (fun p => p.hclk = .rel) → s.inputAt (2 * m + 3) (fun p => p.hdat = .rel) →
      ∃ t, exec i s = .next t ∧ Completed s t (.bit false) [] [] ∧ Undriven s t ∧ KeysAndFlagKept s t
        ∧ (s.ctl = [] → Answered t false))
    ∧ (∀ m n, s.noReset (2 * m + 2 * n + 9) → (∀ j, j < m → s.inputAt (2 * j + 1) (fun p => p.hclk = .drvLow)) →
      s.inputAt (2 * m + 1) (fun p => p.hclk = .rel) → s.inputAt (2 * m + 3) (fun p => p.hdat = .drvLow) →
      s.startExpires (2 * m + 5) n →
      ∃ t, exec i s = .next t ∧ Completed s t (.bit false) [] [] ∧ Undriven s t ∧ KeysAndFlagKept s t
        ∧ (s.ctl = [] → Answered t false))

/-- R221, R276: while the host holds the clock low `poll` waits and drives nothing, however long. -/
def Obligations.PollWaits : Prop :=
  ∀ s : State, (∀ p ∈ s.env :: s.script, p.rst = false ∧ p.hclk = .drvLow) →
    ∃ t e, exec .opPoll s = .next t ∧ (e = .p0 ∨ e = .p0Wait)
      ∧ (t.ctl = .poll (.bus e) :: s.ctl ∨ t.ctl = .lineRead .clk :: .poll (.bus e) :: s.ctl)
      ∧ Undriven s t ∧ s.sameStore t

/-- R221 to R225: a host that inhibits for any number of events, requests to send and sends the frame of any byte, with
any parity bit, is serviced by one `poll`: the byte is handled as the command it is (R177) and the result is true, the
unknown ones included. -/
def Obligations.PollServices : Prop :=
  ∀ (i : Instr) (n : Nat) (b : Byte) (p : Bool) (s : State), i = .poll ∧ s.ctl = [] ∨ i = .opPoll → s.released →
    s.hostCommands n b p 432 →
    ∃ t, exec i s = .next t
      ∧ Completed s t (.bit true) (repliesOf s.cfg (commandOf s.cfg b)) (logsOf (commandOf s.cfg b))
      ∧ t.slots = s.slots ∧ t.enabled = enabledAfter (commandOf s.cfg b) s.enabled ∧ (s.ctl = [] → Answered t true)

/-! ### The whole machine -/

/-- R25, R177, R224: no instruction but those that ask for `press`, `release` or `releaseAll` writes the registry,
whatever the host does. -/
def Obligations.RegistryOwner : Prop :=
  ∀ (i : Instr) (s t : State), (∀ k, ¬ PressForm s i k) → (∀ k, ¬ ReleaseForm s i k) → ¬ ReleaseAllForm s i →
    exec i s = .next t → t.slots = s.slots

/-- R22, R25, R26, R106, R246: in every state, only the two driving primitives drive a line, only `handle_command` writes
the flag, only `press` and `release` write the registry; nothing writes the parameters (R65). In the states of the
invariant the primitive that drives was called by the Line Transport. -/
def Obligations.Ownership : Prop :=
  ∀ (f : Frame) (fs : List Frame) (s t : State), s.env.rst = false → s.ctl = f :: fs → step s = .next t →
    t.cfg = s.cfg
    ∧ (¬ Undriven s t → (∃ l, f = .lineRelease l ∨ f = .assertLow l)
        ∧ (Inv s → ∃ g gs, fs = g :: gs ∧ ((∃ v e, g = .transmit v (.bus e)) ∨ ∃ v e, g = .receive v (.bus e))))
    ∧ (t.enabled ≠ s.enabled → ∃ cmd l, f = .handleCommand cmd l)
    ∧ (t.slots ≠ s.slots → (∃ k q l, f = .press k q l) ∨ ∃ k q l, f = .release k q l)

/-- R250, R271: a request presented while the engine is busy has no effect: the step does not depend on the port. -/
def Obligations.BusyIgnoresPort : Prop :=
  ∀ (s : State) (v : Bool) (op : BitVec 2) (k : Keycode), s.ctl ≠ [] →
    step { s with env := { s.env with reqValid := v, reqOp := op, reqKey := k } } = step s

/-- R26, R197, R275: the flag gates nothing: two states that differ in the flag alone take steps that differ in the flag
alone, whatever is running or asked for. -/
def Obligations.FlagGatesNothing : Prop :=
  ∀ (s : State) (e : Bool),
    (∀ t, step s = .next t → ∃ t', step { s with enabled := e } = .next t' ∧ { t' with enabled := t.enabled } = t)
    ∧ (∀ r, step s = .refused r → step { s with enabled := e } = .refused r)

/-- R31, R244: the stack is at most seven frames deep, `releaseAll` to a line primitive, and no operation is re-entered,
in every state of the invariant. -/
def Obligations.NoReentry : Prop :=
  ∀ s : State, Inv s → s.ctl.length ≤ 7 ∧ (s.ctl.filterMap Frame.opid).Nodup

/-- R24, R27, R31, R207: every step keeps the invariant. Its clause on the counter of `transmit` in the start cell is the
model's choice (log entry 31). -/
def Obligations.InvKept : Prop := ∀ s t : State, Inv s → step s = .next t → Inv t

/-- The machine starts in the invariant, for all parameters the spec allows. -/
def Obligations.InvAtReset : Prop := Inv State.reset ∧ ∀ c : Config, c.wf = true → Inv (State.resetWith c)

/-- R261, R262, for all parameters: registry empty, flag at `ENABLED_RESET`, both lines released, idle, `busy` and `done`
0, nothing transmitted. -/
def Obligations.ResetState : Prop :=
  ∀ c : Config,
    (∀ n, n < nSlots → (State.resetWith c).slots.get n = c.keyNone) ∧ (State.resetWith c).enabledO = c.enabledReset
    ∧ (State.resetWith c).released ∧ (State.resetWith c).ctl = [] ∧ (State.resetWith c).busy = false
    ∧ (State.resetWith c).done = false ∧ (State.resetWith c).events = []

/-- R260, R261, R263: while `rst` is asserted the operation in progress is abandoned at once, without a result, both
lines released, and the state is that after reset. -/
def Obligations.ResetAbandons : Prop :=
  ∀ s : State, s.env.rst = true →
    ∃ t, step s = .next t ∧ t.ctl = [] ∧ t.released ∧ t.slots = Registry.empty s.cfg ∧ t.enabled = s.cfg.enabledReset
      ∧ t.done = false ∧ t.events = s.events ∧ t.cfg = s.cfg

/-- A step runs the decoded instruction: of an idle engine, without reset, the one before the sequencer or else the one
on the client's port (R89, R250). A busy engine performs one step of its running operation instead. That a word may stand
before the sequencer otherwise than on the port is the model's choice (log entry 6), and so is the refusal of a word that
is no instruction (log entry 17). -/
def Obligations.StepRuns : Prop :=
  ∀ s : State, s.env.rst = false →
    (∀ w i, s.ctl = [] → s.inject = some w → decode s.cfg w = .ok i → step s = exec i s)
    ∧ (∀ i, s.ctl = [] → s.inject = none → s.env.reqValid = true → decode s.cfg (requestWord s.env) = .ok i →
      step s = exec i s)
    ∧ (∀ w e, s.ctl = [] → s.inject = some w → decode s.cfg w = .error e → step s = .refused (.undecodable w))
    ∧ (s.ctl ≠ [] → step s = .next s.tick)

/-- R262, R270: an idle engine that is asked for nothing looks at no line and drives none; only the `done` pulse ends. -/
def Obligations.IdleStep : Prop :=
  ∀ s : State, s.env.rst = false → s.ctl = [] → s.inject = none → s.env.reqValid = false →
    ∃ t, step s = .next t ∧ t.events = s.events ∧ t.ctl = [] ∧ Undriven s t ∧ s.sameStore t ∧ t.done = false
      ∧ t.result = s.result

end Statements
end

