-- ==== Sys2Proof/Laws/Decode.lean ====
section
/-!
SUPPORT. The pieces of an encoding go together again: the halves of a Keycode, the bytes of a number, the cells of a
frame; and the classes of a Keycode by its halves.
-/

namespace Sys2Proof.Machine

/-- The two halves of a Keycode put together. -/
theorem mkKey_hi_lo (k : Keycode) : mkKey (hi k) (lo k) = k := by
  apply BitVec.eq_of_getLsbD_eq
  intro i hi'
  simp only [mkKey, hi, lo, BitVec.getLsbD_append, BitVec.getLsbD_extractLsb']
  by_cases h : i < 8
  · simp [h]
  · simp only [h, decide_false]
    have h1 : i - 8 < 8 := by omega
    have h2 : 8 + (i - 8) = i := by omega
    simp [h1, h2]

theorem hi_mkKey (h l : Byte) : hi (mkKey h l) = h := by
  apply BitVec.eq_of_getLsbD_eq
  intro i hi'
  simp only [mkKey, hi, BitVec.getLsbD_extractLsb', BitVec.getLsbD_append]
  simp [hi']

theorem lo_mkKey (h l : Byte) : lo (mkKey h l) = l := by
  apply BitVec.eq_of_getLsbD_eq
  intro i hi'
  simp only [mkKey, lo, BitVec.getLsbD_extractLsb', BitVec.getLsbD_append]
  simp [hi']

/-- The bytes of a number and the number of the bytes. -/
theorem natOfBytes_bytesOfNat (n w : Nat) (h : w < 256 ^ n) : natOfBytes (bytesOfNat n w) = w := by
  induction n generalizing w with
  | zero => simp at h; simp [bytesOfNat, natOfBytes, h]
  | succ n ih =>
    have hw : w / 256 < 256 ^ n := by
      rw [Nat.div_lt_iff_lt_mul (by decide)]; rw [Nat.pow_succ] at h; exact h
    simp only [bytesOfNat, natOfBytes, ih _ hw, BitVec.toNat_ofNat]
    omega

theorem bytesOfNat_length (n w : Nat) : (bytesOfNat n w).length = n := by
  induction n generalizing w with
  | zero => rfl
  | succ n ih => simp [bytesOfNat, ih]

theorem natOfBytes_lt (bs : List Byte) : natOfBytes bs < 256 ^ bs.length := by
  induction bs with
  | nil => simp [natOfBytes]
  | cons b bs ih =>
    have := b.isLt
    simp only [natOfBytes, List.length_cons, Nat.pow_succ]
    omega

/-- R71: a frame word has its start, stop and parity bit where the table says and the byte between them. -/
theorem frame_word_d2h (b : Byte) :
    (frameWordD2H b).length = 2 ∧ natOfBytes (frameWordD2H b) < 2048 ∧ wordBit (frameWordD2H b) 0 = false
      ∧ wordBit (frameWordD2H b) 10 = true ∧ wordBit (frameWordD2H b) 9 = parity (frameData (frameWordD2H b))
      ∧ frameData (frameWordD2H b) = b := by revert b; decide +kernel

/-- R73: the same for the host's frame, whatever its parity bit. -/
theorem frame_word_h2d (b : Byte) (p : Bool) :
    (frameWordH2D b p).length = 2 ∧ natOfBytes (frameWordH2D b p) < 4096 ∧ wordBit (frameWordH2D b p) 0 = false
      ∧ wordBit (frameWordH2D b p) 10 = true ∧ wordBit (frameWordH2D b p) 11 = false
      ∧ wordBit (frameWordH2D b p) 9 = p ∧ frameData (frameWordH2D b p) = b := by
  revert b; cases p <;> decide +kernel

/-- R89: what stands on the port decodes to the request it is. -/
theorem decode_requestBytes (c : Config) (op : BitVec 2) (k : Keycode) :
    decode c ⟨.req18, requestBytes op k⟩ = .ok (if op = 0 then .poll else if op = 1 then .press k
      else if op = 2 then .release k else .releaseAll) := by
  have : ∀ op : BitVec 2, op = 0 ∨ op = 1 ∨ op = 2 ∨ op = 3 := by decide
  rcases this op with rfl | rfl | rfl | rfl <;>
    simp [decode, decodeRequest, requestBytes, mkKey_hi_lo]

/-- The row of the opcode table that a Keycode is the word of. -/
def keyRow (c : Config) (k : Keycode) : Instr :=
  match classify c k with
  | .none => .keycodeNone
  | .plain => .keycodePlain (lo k)
  | .extended => .keycodeExtended (lo k)
  | .prtsc => .keycodeSpecialPrtsc
  | .pause => .keycodeSpecialPause
  | .reserved => .keycodeReserved k

/-- One spec lemma of the Keycode decoder. -/
theorem decode_keyBytes (c : Config) (k : Keycode) : decode c ⟨.keycode16, keyBytes k⟩ = .ok (keyRow c k) := by
  simp only [decode, decodeKeycode, keyBytes, mkKey_hi_lo, keyRow]
  cases classify c k <;> rfl

/-- R78: the class of a key by its halves. -/
theorem classify_of_halves {c : Config} (hwf : c.wf = true) (k : Keycode) :
    (k ≠ c.keyNone → hi k = plainHi → classify c k = .plain)
      ∧ (k ≠ c.keyNone → hi k = extByte → classify c k = .extended)
      ∧ (hi k = specialHi → lo k = c.selPrtsc → classify c k = .prtsc)
      ∧ (hi k = specialHi → lo k = c.selPause → classify c k = .pause) := by
  simp only [Config.wf, Bool.and_eq_true, decide_eq_true_eq] at hwf
  obtain ⟨⟨⟨_, h1⟩, h2⟩, h3⟩ := hwf
  have hk := mkKey_hi_lo k
  refine ⟨?_, ?_, ?_, ?_⟩
  · intro h h'; simp [classify, h, h', specialHi, plainHi]
  · intro h h'; simp [classify, h, h', specialHi, plainHi, extByte]
  · intro h h'
    have : k ≠ c.keyNone := by rw [← hk, h, h']; exact h2
    simp [classify, h, h', this]
  · intro h h'
    have : k ≠ c.keyNone := by rw [← hk, h, h']; exact h3
    simp [classify, h, h', this, Ne.symm h1]

/-- A key of a known high byte put together from its low byte. -/
theorem mkKey_lo {k : Keycode} {h : Byte} (e : hi k = h) : mkKey h (lo k) = k := by subst e; exact mkKey_hi_lo k

end Sys2Proof.Machine
end

