-- ==== Sys2Proof/Laws/Registry.lean ====
section
/-!
SUPPORT. The registry: read after write, the two lookups (R193), and the invariant that no key stands in two slots (R24).
-/

namespace Sys2Proof.Machine

theorem lt_six_cases {i : Nat} (h : i < 6) : i = 0 ∨ i = 1 ∨ i = 2 ∨ i = 3 ∨ i = 4 ∨ i = 5 := by omega

theorem Registry.ext_get {r q : Registry} (h : ∀ i, i < 6 → r.get i = q.get i) : r = q := by
  have h0 := h 0 (by decide); have h1 := h 1 (by decide); have h2 := h 2 (by decide)
  have h3 := h 3 (by decide); have h4 := h 4 (by decide); have h5 := h 5 (by decide)
  cases r; cases q
  simp only [Registry.get] at *
  simp [*]

/-- Read after write. -/
theorem Registry.get_set (r : Registry) {i j : Nat} (hi : i < 6) (hj : j < 6) (k : Keycode) :
    (r.set i k).get j = if j = i then k else r.get j := by
  rcases lt_six_cases hi with rfl | rfl | rfl | rfl | rfl | rfl <;>
    rcases lt_six_cases hj with rfl | rfl | rfl | rfl | rfl | rfl <;> rfl

theorem Registry.set_get (r : Registry) {i : Nat} (hi : i < 6) : r.set i (r.get i) = r := by
  apply Registry.ext_get
  intro j hj
  rw [Registry.get_set r hi hj]
  split
  · subst_vars; rfl
  · rfl

/-- One spec lemma of `find`: the least slot that holds the key. -/
theorem Registry.find_some {r : Registry} {k : Keycode} {i : Nat} (h : r.find k = some i) :
    i < 6 ∧ r.get i = k ∧ ∀ j, j < i → r.get j ≠ k := by
  unfold Registry.find at h
  split at h
  · cases h; simp_all [Registry.get]
  split at h
  · cases h; refine ⟨by decide, by simpa [Registry.get], fun j hj => ?_⟩
    obtain rfl : j = 0 := by omega
    simpa [Registry.get]
  split at h
  · cases h; refine ⟨by decide, by simpa [Registry.get], fun j hj => ?_⟩
    obtain rfl | rfl : j = 0 ∨ j = 1 := by omega
    all_goals simpa [Registry.get]
  split at h
  · cases h; refine ⟨by decide, by simpa [Registry.get], fun j hj => ?_⟩
    obtain rfl | rfl | rfl : j = 0 ∨ j = 1 ∨ j = 2 := by omega
    all_goals simpa [Registry.get]
  split at h
  · cases h; refine ⟨by decide, by simpa [Registry.get], fun j hj => ?_⟩
    obtain rfl | rfl | rfl | rfl : j = 0 ∨ j = 1 ∨ j = 2 ∨ j = 3 := by omega
    all_goals simpa [Registry.get]
  split at h
  · cases h; refine ⟨by decide, by simpa [Registry.get], fun j hj => ?_⟩
    obtain rfl | rfl | rfl | rfl | rfl : j = 0 ∨ j = 1 ∨ j = 2 ∨ j = 3 ∨ j = 4 := by omega
    all_goals simpa [Registry.get]
  · cases h

theorem Registry.find_none {r : Registry} {k : Keycode} : r.find k = none ↔ ∀ i, i < 6 → r.get i ≠ k := by
  constructor
  · intro h i hi
    unfold Registry.find at h
    split at h; · cases h
    split at h; · cases h
    split at h; · cases h
    split at h; · cases h
    split at h; · cases h
    split at h; · cases h
    rcases lt_six_cases hi with rfl | rfl | rfl | rfl | rfl | rfl <;> simpa [Registry.get]
  · intro h
    have h0 := h 0 (by decide); have h1 := h 1 (by decide); have h2 := h 2 (by decide)
    have h3 := h 3 (by decide); have h4 := h 4 (by decide); have h5 := h 5 (by decide)
    simp only [Registry.get] at *
    simp [Registry.find, *]

theorem Registry.toList_eq (r : Registry) :
    r.toList = [r.get 0, r.get 1, r.get 2, r.get 3, r.get 4, r.get 5] := rfl

theorem Registry.mem_toList {r : Registry} {k : Keycode} : k ∈ r.toList ↔ ∃ i, i < 6 ∧ r.get i = k := by
  rw [Registry.toList_eq]
  constructor
  · intro h
    simp only [List.mem_cons, List.not_mem_nil, or_false] at h
    rcases h with h | h | h | h | h | h
    · exact ⟨0, by decide, h.symm⟩
    · exact ⟨1, by decide, h.symm⟩
    · exact ⟨2, by decide, h.symm⟩
    · exact ⟨3, by decide, h.symm⟩
    · exact ⟨4, by decide, h.symm⟩
    · exact ⟨5, by decide, h.symm⟩
  · rintro ⟨i, hi, rfl⟩
    rcases lt_six_cases hi with rfl | rfl | rfl | rfl | rfl | rfl <;> simp

/-- R24 slot by slot. -/
theorem registryUnique_iff (s : State) :
    RegistryUnique s ↔ ∀ i j, i < 6 → j < 6 → s.slots.get i ≠ s.cfg.keyNone → s.slots.get i = s.slots.get j → i = j := by
  have key : RegistryUnique s ↔ s.slots.toList.Pairwise (fun a b => a ≠ s.cfg.keyNone → a ≠ b) := by
    unfold RegistryUnique List.Nodup
    rw [List.pairwise_filter]
    constructor
    · intro h
      refine h.imp ?_
      intro a b hab ha hb
      exact hab (by simpa using ha) (by simpa using hb ▸ ha) hb
    · intro h
      refine h.imp ?_
      intro a b hab ha _ hb
      exact hab (by simpa using ha) hb
  rw [key, Registry.toList_eq]
  constructor
  · intro h i j hi hj hne he
    simp only [List.pairwise_cons, List.mem_cons, List.not_mem_nil, or_false, forall_eq_or_imp, forall_eq] at h
    rcases lt_six_cases hi with rfl | rfl | rfl | rfl | rfl | rfl <;>
      rcases lt_six_cases hj with rfl | rfl | rfl | rfl | rfl | rfl <;>
        first
          | rfl
          | (exfalso; have hne' := he ▸ hne; simp_all)
  · intro h
    have c : ∀ i j, i < 6 → j < 6 → i ≠ j → s.slots.get i ≠ s.cfg.keyNone → s.slots.get i ≠ s.slots.get j :=
      fun i j hi hj hij hne he => hij (h i j hi hj hne he)
    simp only [List.pairwise_cons, List.mem_cons, List.not_mem_nil, or_false, forall_eq_or_imp, forall_eq]
    refine ⟨⟨?_, ?_, ?_, ?_, ?_⟩, ⟨?_, ?_, ?_, ?_⟩, ⟨?_, ?_, ?_⟩, ⟨?_, ?_⟩, ?_, by simp, by simp⟩ <;>
      exact c _ _ (by decide) (by decide) (by decide)

/-- Under R24 a key is found in the slot that holds it. -/
theorem find_of_get {s : State} (hu : RegistryUnique s) {i : Nat} (hi : i < 6)
    (hne : s.slots.get i ≠ s.cfg.keyNone) : s.slots.find (s.slots.get i) = some i := by
  cases h : s.slots.find (s.slots.get i) with
  | none => exact absurd rfl (Registry.find_none.1 h i hi)
  | some j =>
    obtain ⟨hj, he, _⟩ := Registry.find_some h
    rw [(registryUnique_iff s).1 hu i j hi hj hne he.symm]

/-- R24 is kept when a slot is emptied. -/
theorem unique_clear {s : State} (hu : RegistryUnique s) {i : Nat} (hi : i < 6) :
    RegistryUnique { s with slots := s.slots.set i s.cfg.keyNone } := by
  rw [registryUnique_iff] at hu ⊢
  intro a b ha hb hne he
  simp only [Registry.get_set _ hi ha, Registry.get_set _ hi hb] at hne he
  split at hne
  · exact absurd rfl hne
  · rename_i h1
    rw [if_neg h1] at he
    split at he
    · exact absurd he hne
    · exact hu a b ha hb hne he

/-- R24 is kept when a key that stands in no slot is written. -/
theorem unique_record {s : State} (hu : RegistryUnique s) {i : Nat} (hi : i < 6) {k : Keycode}
    (hk : s.slots.find k = none) : RegistryUnique { s with slots := s.slots.set i k } := by
  rw [registryUnique_iff] at hu ⊢
  rw [Registry.find_none] at hk
  intro a b ha hb hne he
  simp only [Registry.get_set _ hi ha, Registry.get_set _ hi hb] at hne he
  split at he
  · split at he
    · omega
    · exact absurd he.symm (hk b hb)
  · rename_i h1
    rw [if_neg h1] at hne
    split at he
    · exact absurd he (hk a ha)
    · exact hu a b ha hb hne he

end Sys2Proof.Machine
end

