-- ==== Sys2Proof/Laws/State.lean ====
section
/-!
SUPPORT. One lemma per field per update of the state, so that no later proof unfolds a record update.
-/

namespace Sys2Proof.Machine

@[simp] theorem State.emit_cfg (s : State) (e : Event) :
    (s.emit e).cfg = s.cfg := rfl
@[simp] theorem State.emit_drvClk (s : State) (e : Event) :
    (s.emit e).drvClk = s.drvClk := rfl
@[simp] theorem State.emit_drvDat (s : State) (e : Event) :
    (s.emit e).drvDat = s.drvDat := rfl
@[simp] theorem State.emit_slots (s : State) (e : Event) :
    (s.emit e).slots = s.slots := rfl
@[simp] theorem State.emit_enabled (s : State) (e : Event) :
    (s.emit e).enabled = s.enabled := rfl
@[simp] theorem State.emit_ctl (s : State) (e : Event) :
    (s.emit e).ctl = s.ctl := rfl
@[simp] theorem State.emit_ret (s : State) (e : Event) :
    (s.emit e).ret = s.ret := rfl
@[simp] theorem State.emit_done (s : State) (e : Event) :
    (s.emit e).done = s.done := rfl
@[simp] theorem State.emit_result (s : State) (e : Event) :
    (s.emit e).result = s.result := rfl
@[simp] theorem State.emit_env (s : State) (e : Event) :
    (s.emit e).env = s.env := rfl
@[simp] theorem State.emit_script (s : State) (e : Event) :
    (s.emit e).script = s.script := rfl
@[simp] theorem State.emit_envCount (s : State) (e : Event) :
    (s.emit e).envCount = s.envCount := rfl
@[simp] theorem State.emit_inject (s : State) (e : Event) :
    (s.emit e).inject = s.inject := rfl
@[simp] theorem State.emit_events (s : State) (e : Event) :
    (s.emit e).events = e :: s.events := rfl

@[simp] theorem State.sample_cfg (s : State) (l : Line) :
    (s.sample l).cfg = s.cfg := rfl
@[simp] theorem State.sample_drvClk (s : State) (l : Line) :
    (s.sample l).drvClk = s.drvClk := rfl
@[simp] theorem State.sample_drvDat (s : State) (l : Line) :
    (s.sample l).drvDat = s.drvDat := rfl
@[simp] theorem State.sample_slots (s : State) (l : Line) :
    (s.sample l).slots = s.slots := rfl
@[simp] theorem State.sample_enabled (s : State) (l : Line) :
    (s.sample l).enabled = s.enabled := rfl
@[simp] theorem State.sample_ctl (s : State) (l : Line) :
    (s.sample l).ctl = s.ctl := rfl
@[simp] theorem State.sample_ret (s : State) (l : Line) :
    (s.sample l).ret = s.ret := rfl
@[simp] theorem State.sample_done (s : State) (l : Line) :
    (s.sample l).done = s.done := rfl
@[simp] theorem State.sample_result (s : State) (l : Line) :
    (s.sample l).result = s.result := rfl
@[simp] theorem State.sample_env (s : State) (l : Line) :
    (s.sample l).env = s.env := rfl
@[simp] theorem State.sample_script (s : State) (l : Line) :
    (s.sample l).script = s.script := rfl
@[simp] theorem State.sample_envCount (s : State) (l : Line) :
    (s.sample l).envCount = s.envCount := rfl
@[simp] theorem State.sample_inject (s : State) (l : Line) :
    (s.sample l).inject = s.inject := rfl
@[simp] theorem State.sample_events (s : State) (l : Line) :
    (s.sample l).events = .sampled l (s.level l) :: s.events := rfl

@[simp] theorem State.wait_cfg (s : State) (t : Nat) :
    (s.wait t).cfg = s.cfg := rfl
@[simp] theorem State.wait_drvClk (s : State) (t : Nat) :
    (s.wait t).drvClk = s.drvClk := rfl
@[simp] theorem State.wait_drvDat (s : State) (t : Nat) :
    (s.wait t).drvDat = s.drvDat := rfl
@[simp] theorem State.wait_slots (s : State) (t : Nat) :
    (s.wait t).slots = s.slots := rfl
@[simp] theorem State.wait_enabled (s : State) (t : Nat) :
    (s.wait t).enabled = s.enabled := rfl
@[simp] theorem State.wait_ctl (s : State) (t : Nat) :
    (s.wait t).ctl = s.ctl := rfl
@[simp] theorem State.wait_ret (s : State) (t : Nat) :
    (s.wait t).ret = s.ret := rfl
@[simp] theorem State.wait_done (s : State) (t : Nat) :
    (s.wait t).done = s.done := rfl
@[simp] theorem State.wait_result (s : State) (t : Nat) :
    (s.wait t).result = s.result := rfl
@[simp] theorem State.wait_env (s : State) (t : Nat) :
    (s.wait t).env = s.env := rfl
@[simp] theorem State.wait_script (s : State) (t : Nat) :
    (s.wait t).script = s.script := rfl
@[simp] theorem State.wait_envCount (s : State) (t : Nat) :
    (s.wait t).envCount = s.envCount := rfl
@[simp] theorem State.wait_inject (s : State) (t : Nat) :
    (s.wait t).inject = s.inject := rfl
@[simp] theorem State.wait_events (s : State) (t : Nat) :
    (s.wait t).events = .delayed t :: s.events := rfl

@[simp] theorem State.goto_cfg (s : State) (f : Frame) (fs : List Frame) :
    (s.goto f fs).cfg = s.cfg := rfl
@[simp] theorem State.goto_drvClk (s : State) (f : Frame) (fs : List Frame) :
    (s.goto f fs).drvClk = s.drvClk := rfl
@[simp] theorem State.goto_drvDat (s : State) (f : Frame) (fs : List Frame) :
    (s.goto f fs).drvDat = s.drvDat := rfl
@[simp] theorem State.goto_slots (s : State) (f : Frame) (fs : List Frame) :
    (s.goto f fs).slots = s.slots := rfl
@[simp] theorem State.goto_enabled (s : State) (f : Frame) (fs : List Frame) :
    (s.goto f fs).enabled = s.enabled := rfl
@[simp] theorem State.goto_ctl (s : State) (f : Frame) (fs : List Frame) :
    (s.goto f fs).ctl = f :: fs := rfl
@[simp] theorem State.goto_ret (s : State) (f : Frame) (fs : List Frame) :
    (s.goto f fs).ret = s.ret := rfl
@[simp] theorem State.goto_done (s : State) (f : Frame) (fs : List Frame) :
    (s.goto f fs).done = s.done := rfl
@[simp] theorem State.goto_result (s : State) (f : Frame) (fs : List Frame) :
    (s.goto f fs).result = s.result := rfl
@[simp] theorem State.goto_env (s : State) (f : Frame) (fs : List Frame) :
    (s.goto f fs).env = s.env := rfl
@[simp] theorem State.goto_script (s : State) (f : Frame) (fs : List Frame) :
    (s.goto f fs).script = s.script := rfl
@[simp] theorem State.goto_envCount (s : State) (f : Frame) (fs : List Frame) :
    (s.goto f fs).envCount = s.envCount := rfl
@[simp] theorem State.goto_inject (s : State) (f : Frame) (fs : List Frame) :
    (s.goto f fs).inject = s.inject := rfl
@[simp] theorem State.goto_events (s : State) (f : Frame) (fs : List Frame) :
    (s.goto f fs).events = s.events := rfl

@[simp] theorem State.callFrom_cfg (s : State) (g f : Frame) (fs : List Frame) :
    (s.callFrom g f fs).cfg = s.cfg := rfl
@[simp] theorem State.callFrom_drvClk (s : State) (g f : Frame) (fs : List Frame) :
    (s.callFrom g f fs).drvClk = s.drvClk := rfl
@[simp] theorem State.callFrom_drvDat (s : State) (g f : Frame) (fs : List Frame) :
    (s.callFrom g f fs).drvDat = s.drvDat := rfl
@[simp] theorem State.callFrom_slots (s : State) (g f : Frame) (fs : List Frame) :
    (s.callFrom g f fs).slots = s.slots := rfl
@[simp] theorem State.callFrom_enabled (s : State) (g f : Frame) (fs : List Frame) :
    (s.callFrom g f fs).enabled = s.enabled := rfl
@[simp] theorem State.callFrom_ctl (s : State) (g f : Frame) (fs : List Frame) :
    (s.callFrom g f fs).ctl = g :: f :: fs := rfl
@[simp] theorem State.callFrom_ret (s : State) (g f : Frame) (fs : List Frame) :
    (s.callFrom g f fs).ret = s.ret := rfl
@[simp] theorem State.callFrom_done (s : State) (g f : Frame) (fs : List Frame) :
    (s.callFrom g f fs).done = s.done := rfl
@[simp] theorem State.callFrom_result (s : State) (g f : Frame) (fs : List Frame) :
    (s.callFrom g f fs).result = s.result := rfl
@[simp] theorem State.callFrom_env (s : State) (g f : Frame) (fs : List Frame) :
    (s.callFrom g f fs).env = s.env := rfl
@[simp] theorem State.callFrom_script (s : State) (g f : Frame) (fs : List Frame) :
    (s.callFrom g f fs).script = s.script := rfl
@[simp] theorem State.callFrom_envCount (s : State) (g f : Frame) (fs : List Frame) :
    (s.callFrom g f fs).envCount = s.envCount := rfl
@[simp] theorem State.callFrom_inject (s : State) (g f : Frame) (fs : List Frame) :
    (s.callFrom g f fs).inject = s.inject := rfl
@[simp] theorem State.callFrom_events (s : State) (g f : Frame) (fs : List Frame) :
    (s.callFrom g f fs).events = s.events := rfl

@[simp] theorem State.setDrv_cfg (s : State) (l : Line) (d : Drive) :
    (s.setDrv l d).cfg = s.cfg := by cases l <;> rfl
@[simp] theorem State.setDrv_drvClk (s : State) (l : Line) (d : Drive) :
    (s.setDrv l d).drvClk = (if l = .clk then d else s.drvClk) := by cases l <;> rfl
@[simp] theorem State.setDrv_drvDat (s : State) (l : Line) (d : Drive) :
    (s.setDrv l d).drvDat = (if l = .dat then d else s.drvDat) := by cases l <;> rfl
@[simp] theorem State.setDrv_slots (s : State) (l : Line) (d : Drive) :
    (s.setDrv l d).slots = s.slots := by cases l <;> rfl
@[simp] theorem State.setDrv_enabled (s : State) (l : Line) (d : Drive) :
    (s.setDrv l d).enabled = s.enabled := by cases l <;> rfl
@[simp] theorem State.setDrv_ctl (s : State) (l : Line) (d : Drive) :
    (s.setDrv l d).ctl = s.ctl := by cases l <;> rfl
@[simp] theorem State.setDrv_ret (s : State) (l : Line) (d : Drive) :
    (s.setDrv l d).ret = s.ret := by cases l <;> rfl
@[simp] theorem State.setDrv_done (s : State) (l : Line) (d : Drive) :
    (s.setDrv l d).done = s.done := by cases l <;> rfl
@[simp] theorem State.setDrv_result (s : State) (l : Line) (d : Drive) :
    (s.setDrv l d).result = s.result := by cases l <;> rfl
@[simp] theorem State.setDrv_env (s : State) (l : Line) (d : Drive) :
    (s.setDrv l d).env = s.env := by cases l <;> rfl
@[simp] theorem State.setDrv_script (s : State) (l : Line) (d : Drive) :
    (s.setDrv l d).script = s.script := by cases l <;> rfl
@[simp] theorem State.setDrv_envCount (s : State) (l : Line) (d : Drive) :
    (s.setDrv l d).envCount = s.envCount := by cases l <;> rfl
@[simp] theorem State.setDrv_inject (s : State) (l : Line) (d : Drive) :
    (s.setDrv l d).inject = s.inject := by cases l <;> rfl
@[simp] theorem State.setDrv_events (s : State) (l : Line) (d : Drive) :
    (s.setDrv l d).events = s.events := by cases l <;> rfl

@[simp] theorem State.drive_cfg (s : State) (l : Line) (d : Drive) :
    (s.drive l d).cfg = s.cfg := by cases l <;> rfl
@[simp] theorem State.drive_drvClk (s : State) (l : Line) (d : Drive) :
    (s.drive l d).drvClk = (if l = .clk then d else s.drvClk) := by cases l <;> rfl
@[simp] theorem State.drive_drvDat (s : State) (l : Line) (d : Drive) :
    (s.drive l d).drvDat = (if l = .dat then d else s.drvDat) := by cases l <;> rfl
@[simp] theorem State.drive_slots (s : State) (l : Line) (d : Drive) :
    (s.drive l d).slots = s.slots := by cases l <;> rfl
@[simp] theorem State.drive_enabled (s : State) (l : Line) (d : Drive) :
    (s.drive l d).enabled = s.enabled := by cases l <;> rfl
@[simp] theorem State.drive_ctl (s : State) (l : Line) (d : Drive) :
    (s.drive l d).ctl = s.ctl := by cases l <;> rfl
@[simp] theorem State.drive_ret (s : State) (l : Line) (d : Drive) :
    (s.drive l d).ret = s.ret := by cases l <;> rfl
@[simp] theorem State.drive_done (s : State) (l : Line) (d : Drive) :
    (s.drive l d).done = s.done := by cases l <;> rfl
@[simp] theorem State.drive_result (s : State) (l : Line) (d : Drive) :
    (s.drive l d).result = s.result := by cases l <;> rfl
@[simp] theorem State.drive_env (s : State) (l : Line) (d : Drive) :
    (s.drive l d).env = s.env := by cases l <;> rfl
@[simp] theorem State.drive_script (s : State) (l : Line) (d : Drive) :
    (s.drive l d).script = s.script := by cases l <;> rfl
@[simp] theorem State.drive_envCount (s : State) (l : Line) (d : Drive) :
    (s.drive l d).envCount = s.envCount := by cases l <;> rfl
@[simp] theorem State.drive_inject (s : State) (l : Line) (d : Drive) :
    (s.drive l d).inject = s.inject := by cases l <;> rfl
@[simp] theorem State.drive_events (s : State) (l : Line) (d : Drive) :
    (s.drive l d).events = .drove l d ((s.setDrv l d).level .clk) ((s.setDrv l d).level .dat) :: s.events := by cases l <;> rfl

@[simp] theorem State.passTime_cfg (s : State) :
    (s.passTime).cfg = s.cfg := by unfold State.passTime; split <;> simp_all
@[simp] theorem State.passTime_drvClk (s : State) :
    (s.passTime).drvClk = s.drvClk := by unfold State.passTime; split <;> simp_all
@[simp] theorem State.passTime_drvDat (s : State) :
    (s.passTime).drvDat = s.drvDat := by unfold State.passTime; split <;> simp_all
@[simp] theorem State.passTime_slots (s : State) :
    (s.passTime).slots = s.slots := by unfold State.passTime; split <;> simp_all
@[simp] theorem State.passTime_enabled (s : State) :
    (s.passTime).enabled = s.enabled := by unfold State.passTime; split <;> simp_all
@[simp] theorem State.passTime_ctl (s : State) :
    (s.passTime).ctl = s.ctl := by unfold State.passTime; split <;> simp_all
@[simp] theorem State.passTime_ret (s : State) :
    (s.passTime).ret = s.ret := by unfold State.passTime; split <;> simp_all
@[simp] theorem State.passTime_done (s : State) :
    (s.passTime).done = s.done := by unfold State.passTime; split <;> simp_all
@[simp] theorem State.passTime_result (s : State) :
    (s.passTime).result = s.result := by unfold State.passTime; split <;> simp_all
@[simp] theorem State.passTime_script (s : State) :
    (s.passTime).script = s.script.tail := by unfold State.passTime; split <;> simp_all
@[simp] theorem State.passTime_inject (s : State) :
    (s.passTime).inject = s.inject := by unfold State.passTime; split <;> simp_all
@[simp] theorem State.passTime_events (s : State) :
    (s.passTime).events = s.events := by unfold State.passTime; split <;> simp_all

@[simp] theorem State.returnFrom_cfg (s : State) (f : Frame) (r : Ret) (fs : List Frame) :
    (s.returnFrom f r fs).cfg = s.cfg := by cases fs <;> rfl
@[simp] theorem State.returnFrom_drvClk (s : State) (f : Frame) (r : Ret) (fs : List Frame) :
    (s.returnFrom f r fs).drvClk = s.drvClk := by cases fs <;> rfl
@[simp] theorem State.returnFrom_drvDat (s : State) (f : Frame) (r : Ret) (fs : List Frame) :
    (s.returnFrom f r fs).drvDat = s.drvDat := by cases fs <;> rfl
@[simp] theorem State.returnFrom_slots (s : State) (f : Frame) (r : Ret) (fs : List Frame) :
    (s.returnFrom f r fs).slots = s.slots := by cases fs <;> rfl
@[simp] theorem State.returnFrom_enabled (s : State) (f : Frame) (r : Ret) (fs : List Frame) :
    (s.returnFrom f r fs).enabled = s.enabled := by cases fs <;> rfl
@[simp] theorem State.returnFrom_ctl (s : State) (f : Frame) (r : Ret) (fs : List Frame) :
    (s.returnFrom f r fs).ctl = (match fs with | [] => [] | g :: gs => g.deliver s.cfg r :: gs) := by cases fs <;> rfl
@[simp] theorem State.returnFrom_ret (s : State) (f : Frame) (r : Ret) (fs : List Frame) :
    (s.returnFrom f r fs).ret = r := by cases fs <;> rfl
@[simp] theorem State.returnFrom_env (s : State) (f : Frame) (r : Ret) (fs : List Frame) :
    (s.returnFrom f r fs).env = s.env := by cases fs <;> rfl
@[simp] theorem State.returnFrom_script (s : State) (f : Frame) (r : Ret) (fs : List Frame) :
    (s.returnFrom f r fs).script = s.script := by cases fs <;> rfl
@[simp] theorem State.returnFrom_envCount (s : State) (f : Frame) (r : Ret) (fs : List Frame) :
    (s.returnFrom f r fs).envCount = s.envCount := by cases fs <;> rfl
@[simp] theorem State.returnFrom_inject (s : State) (f : Frame) (r : Ret) (fs : List Frame) :
    (s.returnFrom f r fs).inject = s.inject := by cases fs <;> rfl
@[simp] theorem State.returnFrom_events (s : State) (f : Frame) (r : Ret) (fs : List Frame) :
    (s.returnFrom f r fs).events = .returned f r :: s.events := by cases fs <;> rfl

@[simp] theorem State.record_cfg (s : State) (k : Keycode) :
    (s.record k).cfg = s.cfg := by unfold State.record; split <;> rfl
@[simp] theorem State.record_drvClk (s : State) (k : Keycode) :
    (s.record k).drvClk = s.drvClk := by unfold State.record; split <;> rfl
@[simp] theorem State.record_drvDat (s : State) (k : Keycode) :
    (s.record k).drvDat = s.drvDat := by unfold State.record; split <;> rfl
@[simp] theorem State.record_slots (s : State) (k : Keycode) :
    (s.record k).slots = (match s.slots.free s.cfg with | some i => s.slots.set i k | none => s.slots) := by unfold State.record; split <;> simp_all
@[simp] theorem State.record_enabled (s : State) (k : Keycode) :
    (s.record k).enabled = s.enabled := by unfold State.record; split <;> rfl
@[simp] theorem State.record_ctl (s : State) (k : Keycode) :
    (s.record k).ctl = s.ctl := by unfold State.record; split <;> rfl
@[simp] theorem State.record_ret (s : State) (k : Keycode) :
    (s.record k).ret = s.ret := by unfold State.record; split <;> rfl
@[simp] theorem State.record_done (s : State) (k : Keycode) :
    (s.record k).done = s.done := by unfold State.record; split <;> rfl
@[simp] theorem State.record_result (s : State) (k : Keycode) :
    (s.record k).result = s.result := by unfold State.record; split <;> rfl
@[simp] theorem State.record_env (s : State) (k : Keycode) :
    (s.record k).env = s.env := by unfold State.record; split <;> rfl
@[simp] theorem State.record_script (s : State) (k : Keycode) :
    (s.record k).script = s.script := by unfold State.record; split <;> rfl
@[simp] theorem State.record_envCount (s : State) (k : Keycode) :
    (s.record k).envCount = s.envCount := by unfold State.record; split <;> rfl
@[simp] theorem State.record_inject (s : State) (k : Keycode) :
    (s.record k).inject = s.inject := by unfold State.record; split <;> rfl
@[simp] theorem State.record_events (s : State) (k : Keycode) :
    (s.record k).events = s.events := by unfold State.record; split <;> rfl

@[simp] theorem State.clear_cfg (s : State) (k : Keycode) :
    (s.clear k).cfg = s.cfg := by unfold State.clear; split <;> rfl
@[simp] theorem State.clear_drvClk (s : State) (k : Keycode) :
    (s.clear k).drvClk = s.drvClk := by unfold State.clear; split <;> rfl
@[simp] theorem State.clear_drvDat (s : State) (k : Keycode) :
    (s.clear k).drvDat = s.drvDat := by unfold State.clear; split <;> rfl
@[simp] theorem State.clear_slots (s : State) (k : Keycode) :
    (s.clear k).slots = (match s.slots.find k with | some i => s.slots.set i s.cfg.keyNone | none => s.slots) := by unfold State.clear; split <;> simp_all
@[simp] theorem State.clear_enabled (s : State) (k : Keycode) :
    (s.clear k).enabled = s.enabled := by unfold State.clear; split <;> rfl
@[simp] theorem State.clear_ctl (s : State) (k : Keycode) :
    (s.clear k).ctl = s.ctl := by unfold State.clear; split <;> rfl
@[simp] theorem State.clear_ret (s : State) (k : Keycode) :
    (s.clear k).ret = s.ret := by unfold State.clear; split <;> rfl
@[simp] theorem State.clear_done (s : State) (k : Keycode) :
    (s.clear k).done = s.done := by unfold State.clear; split <;> rfl
@[simp] theorem State.clear_result (s : State) (k : Keycode) :
    (s.clear k).result = s.result := by unfold State.clear; split <;> rfl
@[simp] theorem State.clear_env (s : State) (k : Keycode) :
    (s.clear k).env = s.env := by unfold State.clear; split <;> rfl
@[simp] theorem State.clear_script (s : State) (k : Keycode) :
    (s.clear k).script = s.script := by unfold State.clear; split <;> rfl
@[simp] theorem State.clear_envCount (s : State) (k : Keycode) :
    (s.clear k).envCount = s.envCount := by unfold State.clear; split <;> rfl
@[simp] theorem State.clear_inject (s : State) (k : Keycode) :
    (s.clear k).inject = s.inject := by unfold State.clear; split <;> rfl
@[simp] theorem State.clear_events (s : State) (k : Keycode) :
    (s.clear k).events = s.events := by unfold State.clear; split <;> rfl

@[simp] theorem State.hardReset_cfg (s : State) :
    (s.hardReset).cfg = s.cfg := rfl
@[simp] theorem State.hardReset_drvClk (s : State) :
    (s.hardReset).drvClk = .rel := rfl
@[simp] theorem State.hardReset_drvDat (s : State) :
    (s.hardReset).drvDat = .rel := rfl
@[simp] theorem State.hardReset_slots (s : State) :
    (s.hardReset).slots = Registry.empty s.cfg := rfl
@[simp] theorem State.hardReset_enabled (s : State) :
    (s.hardReset).enabled = s.cfg.enabledReset := rfl
@[simp] theorem State.hardReset_ctl (s : State) :
    (s.hardReset).ctl = [] := rfl
@[simp] theorem State.hardReset_ret (s : State) :
    (s.hardReset).ret = .unit := rfl
@[simp] theorem State.hardReset_done (s : State) :
    (s.hardReset).done = false := rfl
@[simp] theorem State.hardReset_result (s : State) :
    (s.hardReset).result = false := rfl
@[simp] theorem State.hardReset_env (s : State) :
    (s.hardReset).env = s.env := rfl
@[simp] theorem State.hardReset_script (s : State) :
    (s.hardReset).script = s.script := rfl
@[simp] theorem State.hardReset_envCount (s : State) :
    (s.hardReset).envCount = s.envCount := rfl
@[simp] theorem State.hardReset_inject (s : State) :
    (s.hardReset).inject = none := rfl
@[simp] theorem State.hardReset_events (s : State) :
    (s.hardReset).events = s.events := rfl

@[simp] theorem State.idle_cfg (s : State) :
    (s.idle).cfg = s.cfg := by unfold State.idle State.passTime; split <;> simp_all
@[simp] theorem State.idle_drvClk (s : State) :
    (s.idle).drvClk = s.drvClk := by unfold State.idle State.passTime; split <;> simp_all
@[simp] theorem State.idle_drvDat (s : State) :
    (s.idle).drvDat = s.drvDat := by unfold State.idle State.passTime; split <;> simp_all
@[simp] theorem State.idle_slots (s : State) :
    (s.idle).slots = s.slots := by unfold State.idle State.passTime; split <;> simp_all
@[simp] theorem State.idle_enabled (s : State) :
    (s.idle).enabled = s.enabled := by unfold State.idle State.passTime; split <;> simp_all
@[simp] theorem State.idle_ctl (s : State) :
    (s.idle).ctl = s.ctl := by unfold State.idle State.passTime; split <;> simp_all
@[simp] theorem State.idle_ret (s : State) :
    (s.idle).ret = s.ret := by unfold State.idle State.passTime; split <;> simp_all
@[simp] theorem State.idle_done (s : State) :
    (s.idle).done = false := by unfold State.idle State.passTime; split <;> simp_all
@[simp] theorem State.idle_result (s : State) :
    (s.idle).result = s.result := by unfold State.idle State.passTime; split <;> simp_all
@[simp] theorem State.idle_script (s : State) :
    (s.idle).script = s.script.tail := by unfold State.idle State.passTime; split <;> simp_all
@[simp] theorem State.idle_inject (s : State) :
    (s.idle).inject = s.inject := by unfold State.idle State.passTime; split <;> simp_all
@[simp] theorem State.idle_events (s : State) :
    (s.idle).events = s.events := by unfold State.idle State.passTime; split <;> simp_all

@[simp] theorem State.passTime_env_cons (s : State) (p : Pins) (ps : List Pins) (h : s.script = p :: ps) :
    s.passTime.env = p := by unfold State.passTime; rw [h]

end Sys2Proof.Machine
end

