-- ==== Sys2Proof/Laws/Run.lean ====
section
/-!
SUPPORT. Runs of the sequencer: the device's part of a step reads nothing of the world but the host's two drivers and
the bound of a wait, and writes nothing of it; a run is the device's events played against a list of inputs.
-/

set_option linter.unusedSimpArgs false

namespace Sys2Proof.Machine

/-- The state with another world: other inputs now and to come. -/
def State.withWorld (t : State) (e : Pins) (sc : List Pins) (n : Nat) : State :=
  { t with env := e, script := sc, envCount := n }

/-- Two inputs the device cannot tell apart. -/
def SameBus (p q : Pins) : Prop := p.hclk = q.hclk ∧ p.hdat = q.hdat ∧ p.bound = q.bound

section World

variable (s : State) (e : Pins) (sc : List Pins) (n : Nat)

@[simp] theorem withWorld_cfg : (s.withWorld e sc n).cfg = s.cfg := rfl
@[simp] theorem withWorld_drvClk : (s.withWorld e sc n).drvClk = s.drvClk := rfl
@[simp] theorem withWorld_drvDat : (s.withWorld e sc n).drvDat = s.drvDat := rfl
@[simp] theorem withWorld_slots : (s.withWorld e sc n).slots = s.slots := rfl
@[simp] theorem withWorld_enabled : (s.withWorld e sc n).enabled = s.enabled := rfl
@[simp] theorem withWorld_ctl : (s.withWorld e sc n).ctl = s.ctl := rfl
@[simp] theorem withWorld_ret : (s.withWorld e sc n).ret = s.ret := rfl
@[simp] theorem withWorld_done : (s.withWorld e sc n).done = s.done := rfl
@[simp] theorem withWorld_result : (s.withWorld e sc n).result = s.result := rfl
@[simp] theorem withWorld_env : (s.withWorld e sc n).env = e := rfl
@[simp] theorem withWorld_script : (s.withWorld e sc n).script = sc := rfl
@[simp] theorem withWorld_envCount : (s.withWorld e sc n).envCount = n := rfl
@[simp] theorem withWorld_inject : (s.withWorld e sc n).inject = s.inject := rfl
@[simp] theorem withWorld_events : (s.withWorld e sc n).events = s.events := rfl

@[simp] theorem withWorld_withWorld (e' : Pins) (sc' : List Pins) (n' : Nat) :
    (s.withWorld e sc n).withWorld e' sc' n' = s.withWorld e' sc' n' := rfl

@[simp] theorem withWorld_self : s.withWorld s.env s.script s.envCount = s := rfl

theorem emit_withWorld (x : Event) : (s.withWorld e sc n).emit x = (s.emit x).withWorld e sc n := rfl

theorem wait_withWorld (t : Nat) : (s.withWorld e sc n).wait t = (s.wait t).withWorld e sc n := rfl

theorem goto_withWorld (f : Frame) (fs : List Frame) :
    (s.withWorld e sc n).goto f fs = (s.goto f fs).withWorld e sc n := rfl

theorem callFrom_withWorld (g f : Frame) (fs : List Frame) :
    (s.withWorld e sc n).callFrom g f fs = (s.callFrom g f fs).withWorld e sc n := rfl

theorem returnFrom_withWorld (f : Frame) (r : Ret) (fs : List Frame) :
    (s.withWorld e sc n).returnFrom f r fs = (s.returnFrom f r fs).withWorld e sc n := by cases fs <;> rfl

theorem record_withWorld (k : Keycode) : (s.withWorld e sc n).record k = (s.record k).withWorld e sc n := by
  simp only [State.record, withWorld_slots, withWorld_cfg]; split <;> rfl

theorem clear_withWorld (k : Keycode) : (s.withWorld e sc n).clear k = (s.clear k).withWorld e sc n := by
  simp only [State.clear, withWorld_slots, withWorld_cfg]; split <;> rfl

variable {s e}

theorem level_withWorld (h : SameBus e s.env) (l : Line) : (s.withWorld e sc n).level l = s.level l := by
  obtain ⟨h1, h2, _⟩ := h
  cases l <;> simp [State.level, State.withWorld, State.drv, State.hdrv, h1, h2]

theorem sample_withWorld (h : SameBus e s.env) (l : Line) :
    (s.withWorld e sc n).sample l = (s.sample l).withWorld e sc n := by
  simp only [State.sample, level_withWorld sc n h, emit_withWorld]

theorem drive_withWorld (h : SameBus e s.env) (l : Line) (d : Drive) :
    (s.withWorld e sc n).drive l d = (s.drive l d).withWorld e sc n := by
  obtain ⟨h1, h2, _⟩ := h
  cases l <;>
    simp [State.drive, State.setDrv, State.level, State.drv, State.hdrv, State.withWorld, State.emit, h1, h2]

theorem stepTransmit_withWorld (h : SameBus e s.env) (v : TxLocals) (l : TxLabel) (fs : List Frame) :
    stepTransmit v l fs (s.withWorld e sc n) = (stepTransmit v l fs s).withWorld e sc n := by
  cases l <;> simp only [stepTransmit, returnFrom_withWorld, withWorld_env, h.2.2] <;> rfl

theorem stepReceive_withWorld (h : SameBus e s.env) (v : RxLocals) (l : RxLabel) (fs : List Frame) :
    stepReceive v l fs (s.withWorld e sc n) = (stepReceive v l fs s).withWorld e sc n := by
  cases l <;> simp only [stepReceive, returnFrom_withWorld, withWorld_env, h.2.2] <;> rfl

theorem stepPoll_withWorld (l : PollLabel) (fs : List Frame) :
    stepPoll l fs (s.withWorld e sc n) = (stepPoll l fs s).withWorld e sc n := by
  cases l <;> simp only [stepPoll, returnFrom_withWorld] <;> rfl

theorem stepHandle_withWorld (cmd : Byte) (l : HandlerLabel) (fs : List Frame) :
    stepHandle cmd l fs (s.withWorld e sc n) = (stepHandle cmd l fs s).withWorld e sc n := by
  rcases l with _ | (_ | ⟨_ | _ | _ | _ | _, _⟩) <;> simp only [stepHandle, returnFrom_withWorld] <;> rfl

theorem loopStep_withWorld (q : List Byte) (l : LoopLabel) (mk : LoopLabel → Frame) (x : State)
    (fs : List Frame) :
    (s.withWorld e sc n).loopStep q l mk (x.withWorld e sc n) fs
      = (s.loopStep q l mk x fs).withWorld e sc n := by
  cases l <;> simp only [State.loopStep] <;> (try split) <;> rfl

theorem stepPress_withWorld (k : Keycode) (q : List Byte) (l : KeyLabel) (fs : List Frame) :
    stepPress k q l fs (s.withWorld e sc n) = (stepPress k q l fs s).withWorld e sc n := by
  cases l <;>
    simp only [stepPress, withWorld_cfg, withWorld_slots, returnFrom_withWorld, goto_withWorld, loopStep_withWorld,
      record_withWorld] <;>
    (repeat' split) <;> rfl

theorem stepRelease_withWorld (k : Keycode) (q : List Byte) (l : KeyLabel) (fs : List Frame) :
    stepRelease k q l fs (s.withWorld e sc n) = (stepRelease k q l fs s).withWorld e sc n := by
  cases l <;>
    simp only [stepRelease, withWorld_cfg, withWorld_slots, returnFrom_withWorld, goto_withWorld, loopStep_withWorld,
      clear_withWorld] <;>
    (repeat' split) <;> rfl

theorem stepReleaseAll_withWorld (m : Nat) (fs : List Frame) :
    stepReleaseAll m fs (s.withWorld e sc n) = (stepReleaseAll m fs s).withWorld e sc n := by
  cases m with
  | zero => simp only [stepReleaseAll, returnFrom_withWorld]
  | succ i =>
    by_cases hk : s.slots.get i = s.cfg.keyNone <;>
      simp only [stepReleaseAll, withWorld_cfg, withWorld_slots, goto_withWorld, callFrom_withWorld, hk, if_true,
        if_false]

/-- One spec lemma of a step: it commutes with a change of the world that the bus does not show. -/
theorem stepFrame_withWorld (h : SameBus e s.env) (f : Frame) (fs : List Frame) :
    stepFrame f fs (s.withWorld e sc n) = (stepFrame f fs s).withWorld e sc n := by
  cases f with
  | transmit v l => exact stepTransmit_withWorld sc n h v l fs
  | receive v l => exact stepReceive_withWorld sc n h v l fs
  | poll l => exact stepPoll_withWorld sc n l fs
  | handleCommand cmd l => exact stepHandle_withWorld sc n cmd l fs
  | press k q l => exact stepPress_withWorld sc n k q l fs
  | release k q l => exact stepRelease_withWorld sc n k q l fs
  | releaseAll m => exact stepReleaseAll_withWorld sc n m fs
  | ack l => cases l <;> simp only [stepFrame, stepAck, returnFrom_withWorld] <;> rfl
  | sendUntilOk b l => cases l <;> simp only [stepFrame, stepSendUntilOk, returnFrom_withWorld] <;> rfl
  | sendSequence q l =>
    simp only [stepFrame, stepSendSequence, returnFrom_withWorld, loopStep_withWorld]
  | lineRelease l => simp only [stepFrame, stepLineRelease, drive_withWorld sc n h, returnFrom_withWorld]
  | assertLow l => simp only [stepFrame, stepAssertLow, drive_withWorld sc n h, returnFrom_withWorld]
  | lineRead l =>
    simp only [stepFrame, stepLineRead, level_withWorld sc n h, sample_withWorld sc n h, returnFrom_withWorld]
  | delay t => simp only [stepFrame, stepDelay, wait_withWorld, returnFrom_withWorld]
  | clockCycle p => cases p <;> simp only [stepFrame, stepClockCycle, returnFrom_withWorld] <;> rfl

theorem device_withWorld (h : SameBus e s.env) :
    (s.withWorld e sc n).device = s.device.withWorld e sc n := by
  unfold State.device
  rw [withWorld_ctl]
  split
  · rfl
  · exact stepFrame_withWorld sc n h _ _

end World

/-- The device writes nothing of the world. -/
theorem device_keeps_world (s : State) :
    s.device.env = s.env ∧ s.device.script = s.script ∧ s.device.envCount = s.envCount := by
  have h : s.device = s.device.withWorld s.env s.script s.envCount :=
    device_withWorld (s := s) (e := s.env) s.script s.envCount ⟨rfl, rfl, rfl⟩
  exact ⟨by rw [h]; rfl, by rw [h]; rfl, by rw [h]; rfl⟩

@[simp] theorem device_env (s : State) : s.device.env = s.env := (device_keeps_world s).1
@[simp] theorem device_script (s : State) : s.device.script = s.script := (device_keeps_world s).2.1
@[simp] theorem device_envCount (s : State) : s.device.envCount = s.envCount := (device_keeps_world s).2.2

/-! ### Playing the device against a list of inputs -/

/-- The device's part of one step under the given inputs. -/
def State.react (s : State) (p : Pins) : State := (s.withWorld p [] 0).device

/-- The device's events under a list of inputs. -/
def play : List Pins → State → State
  | [], s => s
  | p :: ps, s => play ps (s.react p)

/-- Through the whole list the operation above depth `d` has not returned, and there is no reset. -/
def running (d : Nat) : List Pins → State → Prop
  | [], _ => True
  | p :: ps, s => d < s.ctl.length ∧ p.rst = false ∧ running d ps (s.react p)

/-- The world after the described inputs up to `rest` have passed. -/
def State.worldAfter (s : State) (rest : List Pins) (t : State) : State :=
  match rest with
  | r :: rs => t.withWorld r rs s.envCount
  | [] => t.withWorld (Config.freePins s.envCount) [] (s.envCount + 1)

theorem react_withWorld (s : State) (e : Pins) (sc : List Pins) (n : Nat) (p : Pins) :
    (s.withWorld e sc n).react p = s.react p := rfl

theorem react_sameBus (s : State) (p q : Pins) (h : SameBus p q) : s.react p = (s.react q).withWorld p [] 0 := by
  unfold State.react
  rw [← device_withWorld (s := s.withWorld q [] 0) (e := p) [] 0 h]
  rfl

theorem play_append (ps qs : List Pins) (s : State) : play (ps ++ qs) s = play qs (play ps s) := by
  induction ps generalizing s with
  | nil => rfl
  | cons p ps ih => exact ih _

theorem running_append (d : Nat) (ps qs : List Pins) (s : State) :
    running d (ps ++ qs) s ↔ running d ps s ∧ running d qs (play ps s) := by
  induction ps generalizing s with
  | nil => simp [running, play]
  | cons p ps ih => simp [running, play, ih, and_assoc]

/-- Inputs that the bus does not tell apart give the same run. -/
theorem play_sameBus {ps qs : List Pins} (h : List.Forall₂ SameBus ps qs) (s t : State)
    (e : Pins) (sc : List Pins) (n : Nat) (hst : s.withWorld e sc n = t.withWorld e sc n) :
    (play ps s).withWorld e sc n = (play qs t).withWorld e sc n := by
  induction h generalizing s t with
  | nil => exact hst
  | @cons p q ps qs hpq _ ih =>
    apply ih
    have hw : s.react q = t.react q := by
      rw [← react_withWorld s e sc n, hst, react_withWorld]
    rw [react_sameBus s p q hpq, hw]
    rfl

theorem running_sameBus {ps qs : List Pins} (h : List.Forall₂ SameBus ps qs) (d : Nat) (s t : State)
    (hrst : ∀ p ∈ ps, p.rst = false) (hst : s.withWorld Pins.quiet [] 0 = t.withWorld Pins.quiet [] 0)
    (ht : running d qs t) : running d ps s := by
  induction h generalizing s t with
  | nil => trivial
  | @cons p q ps qs hpq _ ih =>
    obtain ⟨hd, _, hrest⟩ := ht
    refine ⟨?_, hrst p (by simp), ?_⟩
    · have := congrArg State.ctl hst
      simp only [withWorld_ctl] at this
      rw [this]; exact hd
    · refine ih _ _ (fun x hx => hrst x (by simp [hx])) ?_ hrest
      have hw : s.react q = t.react q := by
        rw [← react_withWorld s Pins.quiet [] 0, hst, react_withWorld]
      rw [react_sameBus s p q hpq, hw]
      rfl

theorem runUntil_stop (d n : Nat) (s : State) (h : s.ctl.length ≤ d ∨ s.env.rst = true) : runUntil d n s = s := by
  cases n with
  | zero => rfl
  | succ n => simp only [runUntil, h, if_true]

/-- The run of an operation is the device's events played against the inputs. -/
theorem runUntil_play (d k : Nat) (ps rest : List Pins) (s : State) (hin : s.env :: s.script = ps ++ rest)
    (hrun : running d ps s) :
    runUntil d (ps.length + k) s = runUntil d k (if ps = [] then s else s.worldAfter rest (play ps s)) := by
  induction ps generalizing s with
  | nil => simp
  | cons p ps ih =>
    obtain ⟨hd, hr, hrest⟩ := hrun
    simp only [List.cons_append, List.cons.injEq] at hin
    obtain ⟨he, hs⟩ := hin
    have hstep : runUntil d ((p :: ps).length + k) s = runUntil d (ps.length + k) s.tick := by
      have : (p :: ps).length + k = (ps.length + k) + 1 := by simp; omega
      rw [this, runUntil, if_neg]
      rw [he]; simp [hr]; omega
    have htick : s.tick = s.worldAfter (ps ++ rest) (s.react p) := by
      unfold State.tick State.passTime State.react
      have hdev : s.device = (s.withWorld p [] 0).device.withWorld s.env s.script s.envCount := by
        rw [← device_withWorld (s := s.withWorld p [] 0) (e := s.env) s.script s.envCount (by
          rw [he]; exact ⟨rfl, rfl, rfl⟩)]
        rfl
      rw [device_script, hs, device_envCount, hdev]
      cases h : ps ++ rest <;> rfl
    rw [hstep, htick]
    cases hps : ps with
    | nil => simp [play]
    | cons q qs =>
      subst hps
      rw [ih]
      · simp only [reduceCtorEq, if_false, play]
        congr 1
      · simp [State.worldAfter]
      · simpa [running, State.worldAfter, react_withWorld] using hrest

end Sys2Proof.Machine
end

