-- ==== Sys2Proof/Laws/Invariant.lean ====
section
/-!
SUPPORT. What one event of the running frame does to the parts of the invariant: the call graph (R31), the lines (R27),
the registry (R24, R207) and the locals of a frame.
-/

namespace Sys2Proof.Machine

/-- A frame without its step and the locals that change. -/
def Frame.kind (f : Frame) : Frame :=
  match f with
  | .poll _ => .poll (.bus .p0)
  | .press k q _ => .press k q .entry
  | .release k q _ => .release k q .entry
  | .releaseAll _ => .releaseAll 0
  | .handleCommand cmd _ => .handleCommand cmd .h0
  | .ack _ => .ack .s0
  | .transmit v _ => .transmit { b := v.b, sh := 0, par := false, i := 0 } (.bus .t0)
  | .receive _ _ => .receive { rx := 0, par := false, i := 0 } .rx0
  | .lineRelease l => .lineRelease l
  | .assertLow l => .assertLow l
  | .lineRead l => .lineRead l
  | .delay t => .delay t
  | .sendUntilOk b _ => .sendUntilOk b .s0
  | .sendSequence q _ => .sendSequence q .l0
  | .clockCycle _ => .clockCycle none

theorem external_kind (f : Frame) : f.kind.external = f.external := by cases f <;> rfl

theorem isPrimitive_kind (f : Frame) : f.kind.isPrimitive = f.isPrimitive := by cases f <;> rfl

theorem kind_of_primitive {f : Frame} (h : f.isPrimitive = true) : f.kind = f := by
  cases f <;> first | rfl | cases h

/-- What a frame calls at its bus events is a line primitive. -/
theorem primitive_isPrimitive {c : Config} {g f : Frame} (h : g.primitive c = some f) : f.isPrimitive = true := by
  have hb : ∀ l d, (busDrive l d).isPrimitive = true := fun l d => by cases d <;> rfl
  have hc : ∀ p : CyclePhase, p.primitive.isPrimitive = true := fun p => by cases p <;> rfl
  have hx : ∀ c v (p : CellPhase), (p.primitive c v).isPrimitive = true := fun c v p => by
    cases p <;> first | exact hb _ _ | rfl | exact hc _
  unfold Frame.primitive at h
  split at h <;> cases h
  · rename_i e; cases e <;> first | rfl | exact hx _ _ _
  · rename_i e; cases e <;> first | rfl | exact hc _ | (rename_i p; cases p <;> rfl)
  · rename_i e; cases e <;> rfl
  · exact hc _

/-- The call graph looks at the callee's kind only. -/
theorem calls_kind (c : Config) (g f : Frame) : Calls c g f ↔ Calls c g f.kind := by
  by_cases hp : f.isPrimitive = true
  · rw [kind_of_primitive hp]
  · have no : ∀ x : Frame, x.isPrimitive = f.isPrimitive → g.primitive c ≠ some x := fun x hx h =>
      hp (hx ▸ primitive_isPrimitive h)
    rcases g with (_ | _ | _ | _) | ⟨_, _, (_ | (_ | _ | _ | _ | _) | _ | _)⟩
      | ⟨_, _, (_ | (_ | _ | _ | _ | _) | _ | _)⟩ | _ | ⟨_, (_ | (_ | ⟨_ | _ | _ | _ | _, _⟩))⟩ | (_ | _) | _ | _ | _ | _ | _
      | _ | _ | _ | _ <;> cases f <;>
      first
      | exact Iff.rfl
      | exact absurd rfl hp
      | exact ⟨fun h => absurd h (no _ rfl), fun h => absurd h (no _ rfl)⟩

/-- Who calls a primitive is at a bus event. -/
theorem calls_primitive {c : Config} {g f : Frame} (h : Calls c g f) (hp : f.isPrimitive = true) :
    g.primitive c = some f := by
  unfold Calls at h
  split at h <;> first | exact h | cases hp

/-- A primitive calls nothing. -/
theorem not_primitive_of_calls {c : Config} {g f : Frame} (h : Calls c g f) : g.isPrimitive = false := by
  cases g <;> first | rfl | (cases f <;> cases h)

theorem txDeliver_kind (v : TxLocals) (r : Ret) (e : TxBus) :
    (e.deliver v r).kind = (Frame.transmit v (.bus e)).kind := by
  unfold TxBus.deliver
  split <;> (try split) <;> first | rfl | (unfold TxLocals.afterCell; split <;> rfl)

theorem rxDeliver_kind (v : RxLocals) (r : Ret) (e : RxBus) :
    (e.deliver v r).kind = (Frame.receive v (.bus e)).kind := by
  unfold RxBus.deliver
  split <;> (repeat' split) <;> first | rfl | (unfold RxLocals.afterRead; split <;> rfl)

theorem deliver_kind (c : Config) (r : Ret) (f : Frame) : (f.deliver c r).kind = f.kind := by
  unfold Frame.deliver
  split <;> first | rfl | exact txDeliver_kind _ _ _ | exact rxDeliver_kind _ _ _ | (split <;> rfl)

theorem calls_congr {c : Config} {g f f' : Frame} (hk : f'.kind = f.kind) (h : Calls c g f) : Calls c g f' := by
  rw [calls_kind, hk, ← calls_kind]; exact h

/-- The running frame goes on in the same operation. -/
theorem stackOk_goto {c : Config} {f f' : Frame} {fs : List Frame} (hk : f'.kind = f.kind) (h : StackOk c (f :: fs)) :
    StackOk c (f' :: fs) := by
  cases fs with
  | nil =>
    show f'.external = true
    rw [← external_kind, hk, external_kind]; exact h
  | cons g gs => exact ⟨calls_congr hk h.1, h.2⟩

theorem stackOk_call {c : Config} {f f' e : Frame} {fs : List Frame} (hk : f'.kind = f.kind) (hc : Calls c f' e)
    (h : StackOk c (f :: fs)) : StackOk c (e :: f' :: fs) := ⟨hc, stackOk_goto hk h⟩

theorem stackOk_tail {c : Config} {f : Frame} {fs : List Frame} (h : StackOk c (f :: fs)) : StackOk c fs := by
  cases fs with
  | nil => trivial
  | cons g gs => exact h.2

/-- The callers after a return. -/
def popped (c : Config) (r : Ret) (fs : List Frame) : List Frame :=
  match fs with
  | [] => []
  | g :: gs => g.deliver c r :: gs

theorem stackOk_return {c : Config} {f : Frame} {fs : List Frame} (r : Ret) (h : StackOk c (f :: fs)) :
    StackOk c (popped c r fs) := by
  cases fs with
  | nil => trivial
  | cons g gs => exact stackOk_goto (deliver_kind c r g) h.2

theorem returnFrom_ctl (s : State) (f : Frame) (r : Ret) (fs : List Frame) :
    (s.returnFrom f r fs).ctl = popped s.cfg r fs := by cases fs <;> rfl

/-- How deep a frame can stand (R31). -/
def Frame.depth (f : Frame) : Nat :=
  match f with
  | .releaseAll _ => 1
  | .press _ _ _ => 1
  | .release _ _ _ => 2
  | .poll _ => 3
  | .handleCommand _ _ => 4
  | .ack _ => 5
  | .receive _ _ => 5
  | .transmit _ _ => 6
  | .lineRelease _ => 7
  | .assertLow _ => 7
  | .lineRead _ => 7
  | .delay _ => 7
  | .sendUntilOk _ _ => 0
  | .sendSequence _ _ => 0
  | .clockCycle _ => 0

theorem depth_of_primitive {f : Frame} (h : f.isPrimitive = true) : f.depth = 7 := by
  cases f <;> first | rfl | cases h

theorem depth_le (f : Frame) : f.depth ≤ 7 := by cases f <;> simp [Frame.depth]

/-- Each call of the graph goes deeper. -/
theorem depth_lt_of_calls {c : Config} {g f : Frame} (h : Calls c g f) : g.depth < f.depth := by
  unfold Calls at h
  split at h
  iterate 11 (simp [Frame.depth])
  rw [depth_of_primitive (primitive_isPrimitive h)]
  unfold Frame.primitive at h
  split at h <;> first | (simp [Frame.depth]; done) | cases h

/-- R31: a stack of the call graph is at most seven deep. -/
theorem stackOk_depth {c : Config} {ctl : List Frame} (h : StackOk c ctl) : ctl.length ≤ 7 := by
  have hgt : ∀ (ctl : List Frame) (f : Frame), StackOk c (f :: ctl) → ctl.length + 1 ≤ f.depth := by
    intro ctl
    induction ctl with
    | nil => intro f hf; cases f <;> first | (simp [Frame.depth]; done) | cases hf
    | cons g gs ih =>
      intro f hf
      have hg := ih g hf.2
      have := depth_lt_of_calls hf.1
      simp only [List.length_cons]
      omega
  cases ctl with
  | nil => simp
  | cons f fs => exact (hgt fs f h).trans (depth_le f)

theorem inRange_deliver {q : List Byte} {l : LoopLabel} (r : Ret) (h : l.inRange q) : (l.deliver r).inRange q := by
  cases l <;> simp only [LoopLabel.deliver]
  · split <;> trivial
  · trivial
  · exact h
  · exact h
  · split
    · exact h
    · trivial

theorem parAfter_succ (b : Byte) (i : Nat) : parAfter b (i + 1) = parStep (parAfter b i) (b.getLsbD i) := by
  simp [parAfter, List.range_succ, List.foldl_append]

theorem parAfter_eight (b : Byte) : parAfter b 8 = parity b := by revert b; decide

/-- R124: a data cell presents bit `i` and keeps the shift register and the running parity right. -/
theorem shift_next {b : Byte} {v : TxLocals} (h : v.sh = b >>> v.i) (hp : v.par = parAfter b v.i) :
    v.next.sh = b >>> (v.i + 1) ∧ v.next.par = parAfter b (v.i + 1) := by
  constructor
  · simp [TxLocals.next, shiftNext, h, ← BitVec.shiftRight_add]
  · rw [parAfter_succ, ← hp]
    simp [TxLocals.next, shiftBit, h]

/-- R124, R125: what follows a bus event of `transmit` finds the shift register and the running parity right. -/
theorem frameOk_txDeliver {c : Config} {reg : Registry} {v : TxLocals} {e : TxBus} (r : Ret)
    (h : FrameOk c reg (.transmit v (.bus e))) : FrameOk c reg (e.deliver v r) := by
  cases e with
  | t0 => simp only [TxBus.deliver]; split <;> trivial
  | t1 => simp only [TxBus.deliver]; split <;> trivial
  | t3 p =>
    obtain ⟨h1, h2, h3⟩ := h
    simp only [TxBus.deliver]
    split
    · exact ⟨h1, h2, h3⟩
    · exact ⟨by omega, by rw [h1, h2]; simp, by rw [h1, h3]; rfl⟩
  | t4 p =>
    obtain ⟨h1, h2, h3⟩ := h
    obtain ⟨n1, n2⟩ := shift_next h2 h3
    simp only [TxBus.deliver]
    split
    · exact ⟨h1, h2, h3⟩
    · unfold TxLocals.afterCell
      split
      · exact ⟨by show v.i + 1 < 8; omega, n1, n2⟩
      · have : v.i + 1 = 8 := by omega
        show v.next.par = parity v.next.b
        rw [n2, this]; exact parAfter_eight _
  | t5 p => simp only [TxBus.deliver]; split <;> first | exact h | trivial
  | t6 p => simp only [TxBus.deliver]; split <;> trivial
  | t7Low n =>
    simp only [TxBus.deliver]
    split
    · trivial
    · cases n <;> trivial
  | t7High n =>
    simp only [TxBus.deliver]
    split
    · trivial
    · cases n <;> trivial

theorem frameOk_rxDeliver {c : Config} {reg : Registry} {v : RxLocals} {e : RxBus} (r : Ret)
    (h : FrameOk c reg (.receive v (.bus e))) : FrameOk c reg (e.deliver v r) := by
  cases e with
  | rx3 p =>
    have hv : v.i < 8 := h
    cases p with
    | high =>
      simp only [RxBus.deliver, RxLocals.afterRead]
      split
      · show v.i + 1 < 8; omega
      · trivial
    | _ => exact hv
  | rx0 n =>
    simp only [RxBus.deliver]
    split
    · trivial
    · cases n <;> trivial
  | rx1 => simp only [RxBus.deliver]; split <;> trivial
  | rx4 p => simp only [RxBus.deliver]; split <;> trivial
  | rx5 p => simp only [RxBus.deliver]; split <;> trivial
  | rx6 p => simp only [RxBus.deliver]; split <;> trivial
  | _ => trivial

/-- What a frame delivers to keeps its locals. -/
theorem frameOk_deliver {c : Config} {r : Registry} {g : Frame} (ret : Ret) (h : FrameOk c r g) :
    FrameOk c r (g.deliver c ret) := by
  cases g with
  | poll l =>
    have : ((Frame.poll l).deliver c ret).kind = .poll (.bus .p0) := deliver_kind c ret _
    revert this
    cases (Frame.poll l).deliver c ret <;> intro h <;> first | trivial | cases h
  | transmit v l => cases l <;> first | exact frameOk_txDeliver ret h | trivial
  | receive v l => cases l <;> first | exact frameOk_rxDeliver ret h | trivial
  | press k q l =>
    cases l with
    | loop m => exact ⟨h.1, h.2.1, h.2.2.1, h.2.2.2.1, inRange_deliver ret h.2.2.2.2⟩
    | entry => exact h
    | write => exact h
    | finish => exact h
  | release k q l =>
    cases l with
    | loop m => exact ⟨h.1, h.2.1, h.2.2.1, inRange_deliver ret h.2.2.2⟩
    | entry => exact h
    | write => exact h
    | finish => exact h
  | handleCommand cmd l => cases l <;> trivial
  | clockCycle p => cases p <;> trivial
  | ack l => trivial
  | sendUntilOk b l => trivial
  | sendSequence q l => trivial
  | _ => exact h

theorem frames_return {c : Config} {r : Registry} {f : Frame} {fs : List Frame} (ret : Ret)
    (h : ∀ g ∈ f :: fs, FrameOk c r g) : ∀ g ∈ popped c ret fs, FrameOk c r g := by
  cases fs with
  | nil => intro g hg; cases hg
  | cons g gs =>
    intro x hx
    rcases List.mem_cons.1 hx with rfl | hx
    · exact frameOk_deliver ret (h g (by simp))
    · exact h x (by simp [hx])

theorem frames_goto {c : Config} {r : Registry} {f f' : Frame} {fs : List Frame} (hf : FrameOk c r f')
    (h : ∀ g ∈ f :: fs, FrameOk c r g) : ∀ g ∈ f' :: fs, FrameOk c r g := by
  intro g hg
  rcases List.mem_cons.1 hg with rfl | hg
  · exact hf
  · exact h g (by simp [hg])

/-- Whether a frame drives lines between its bus events: a `transmit`, a `receive`, a clock cycle. -/
def Frame.framed (f : Frame) : Bool :=
  match f with
  | .transmit _ _ => true
  | .receive _ _ => true
  | .clockCycle _ => true
  | _ => false

theorem framed_kind (f : Frame) : f.kind.framed = f.framed := by cases f <;> rfl

theorem lines_of_not_framed {f : Frame} (d : Drive) (h : f.framed = false) : f.clk = .rel ∧ (f.datOk d ↔ d = .rel) := by
  cases f <;> first | exact ⟨rfl, Iff.rfl⟩ | cases h

theorem not_framed_of_calls {c : Config} {g f : Frame} (hc : Calls c g f) (hp : f.isPrimitive = false) :
    g.framed = false := by
  unfold Calls at hc
  split at hc <;> first | rfl | (have := primitive_isPrimitive hc; simp [hp] at this)

/-- A frame that has called an operation which is no primitive waits, and goes on, with both lines released. -/
theorem lines_caller {c : Config} {g f : Frame} {d : Drive} (r : Ret) (hc : Calls c g f) (hp : f.isPrimitive = false) :
    (g.deliver c r).clk = .rel ∧ ((g.deliver c r).datOk d ↔ d = .rel) :=
  lines_of_not_framed d (by rw [← framed_kind, deliver_kind, framed_kind]; exact not_framed_of_calls hc hp)

theorem operating_of_kind {f f' : Frame} {fs : List Frame} (hk : f'.kind = f.kind) (hp : f.isPrimitive = false) :
    operating (f' :: fs) = some f' := by
  have : f'.isPrimitive = false := by rw [← isPrimitive_kind, hk, isPrimitive_kind, hp]
  simp [operating, this]

/-- The drivers after a primitive. -/
def Frame.drives (p : Frame) (s : State) : State :=
  match p with
  | .lineRelease l => s.setDrv l .rel
  | .assertLow l => s.setDrv l .drvLow
  | _ => s

theorem drives_busDrive_dat (d : Drive) (s : State) :
    ((busDrive .dat d).drives s).drvClk = s.drvClk ∧ ((busDrive .dat d).drives s).drvDat = d := by
  cases d <;> exact ⟨rfl, rfl⟩

/-- An event of a clock cycle. -/
theorem lines_cycle (p : CyclePhase) (s : State) (h : s.drvClk = p.clk) :
    (p.primitive.drives s).drvClk = (match p.succ with | some q => q.clk | none => .rel)
      ∧ (p.primitive.drives s).drvDat = s.drvDat := by
  cases p <;> first | exact ⟨rfl, rfl⟩ | exact ⟨h, rfl⟩

/-- An event of a bit cell that presents `v`. -/
theorem lines_cell (c : Config) (v : Bool) (p : CellPhase) (s : State) (h : s.drvClk = p.clk)
    (hd : p ≠ .data → s.drvDat = driveOfBit v) :
    ((p.primitive c v).drives s).drvClk = (match p.succ with | some q => q.clk | none => .rel)
      ∧ ((p.primitive c v).drives s).drvDat = driveOfBit v := by
  cases p with
  | data => exact ⟨(drives_busDrive_dat _ s).1.trans h, (drives_busDrive_dat _ s).2⟩
  | setup => exact ⟨h, hd (by simp)⟩
  | cycle q =>
    obtain ⟨h1, h2⟩ := lines_cycle q s h
    refine ⟨h1.trans ?_, h2.trans (hd (by simp))⟩
    cases q <;> rfl

theorem succ_ne_data {p q : CellPhase} (h : p.succ = some q) : q ≠ .data := by
  cases p with
  | cycle p => cases p <;> cases h <;> simp
  | _ => cases h; simp

/-- R27, R123 to R126, R143 to R147: one bus event takes the lines from what its step says to what the next one says. -/
theorem lines_event {c : Config} {g p : Frame} (s : State) (r : Ret) (h : g.primitive c = some p)
    (hc : s.drvClk = g.clk) (hd : g.datOk s.drvDat) :
    (p.drives s).drvClk = (g.deliver c r).clk ∧ (g.deliver c r).datOk (p.drives s).drvDat := by
  unfold Frame.primitive at h
  split at h <;> cases h
  · rename_i v e
    show _ = (e.deliver v r).clk ∧ (e.deliver v r).datOk _
    cases e with
    | t0 => simp only [TxBus.deliver]; split <;> exact ⟨hc, hd⟩
    | t1 => simp only [TxBus.deliver]; split <;> exact ⟨hc, hd⟩
    | t3 q =>
      obtain ⟨h1, h2⟩ := lines_cell c false q s hc (fun hq => by cases q <;> first | exact absurd rfl hq | exact hd)
      simp only [TxBus.deliver, TxBus.primitive]
      cases hs : q.succ with
      | some q' =>
        rw [hs] at h1
        refine ⟨h1, ?_⟩
        rw [h2]
        have := succ_ne_data hs
        cases q' <;> first | exact absurd rfl this | rfl
      | none => rw [hs] at h1; exact ⟨h1, trivial⟩
    | t4 q =>
      obtain ⟨h1, h2⟩ := lines_cell c (shiftBit v.sh) q s hc
        (fun hq => by cases q <;> first | exact absurd rfl hq | exact hd)
      simp only [TxBus.deliver, TxBus.primitive]
      cases hs : q.succ with
      | some q' =>
        rw [hs] at h1
        refine ⟨h1, ?_⟩
        rw [h2]
        have := succ_ne_data hs
        cases q' <;> first | exact absurd rfl this | rfl
      | none =>
        rw [hs] at h1
        simp only [TxLocals.afterCell]
        split <;> exact ⟨h1, trivial⟩
    | t5 q =>
      obtain ⟨h1, h2⟩ := lines_cell c v.par q s hc (fun hq => by cases q <;> first | exact absurd rfl hq | exact hd)
      simp only [TxBus.deliver, TxBus.primitive]
      cases hs : q.succ with
      | some q' =>
        rw [hs] at h1
        refine ⟨h1, ?_⟩
        rw [h2]
        have := succ_ne_data hs
        cases q' <;> first | exact absurd rfl this | rfl
      | none => rw [hs] at h1; exact ⟨h1, trivial⟩
    | t6 q =>
      obtain ⟨h1, h2⟩ := lines_cell c true q s hc (fun hq => by cases q <;> first | exact absurd rfl hq | exact hd)
      simp only [TxBus.deliver, TxBus.primitive]
      cases hs : q.succ with
      | some q' =>
        rw [hs] at h1
        refine ⟨h1, ?_⟩
        rw [h2]
        have := succ_ne_data hs
        cases q' <;> first | exact absurd rfl this | rfl
      | none => rw [hs] at h1; exact ⟨h1, h2⟩
    | t7Low n =>
      simp only [TxBus.deliver]
      split
      · exact ⟨hc, hd⟩
      · cases n <;> exact ⟨hc, hd⟩
    | t7High n =>
      simp only [TxBus.deliver]
      split
      · exact ⟨hc, hd⟩
      · cases n <;> exact ⟨hc, hd⟩
  · rename_i v e
    show _ = (e.deliver v r).clk ∧ (e.deliver v r).datOk _
    cases e with
    | rx0 n =>
      simp only [RxBus.deliver]
      split
      · exact ⟨hc, hd⟩
      · cases n <;> exact ⟨hc, hd⟩
    | rx1 => simp only [RxBus.deliver]; split <;> exact ⟨hc, hd⟩
    | rx1Lead => exact ⟨hc, hd⟩
    | rx3 q =>
      cases q with
      | fall => exact ⟨rfl, hd⟩
      | low => exact ⟨hc, hd⟩
      | rise => exact ⟨rfl, hd⟩
      | sample => exact ⟨hc, hd⟩
      | high => simp only [RxBus.deliver, RxLocals.afterRead]; split <;> exact ⟨hc, hd⟩
    | rx4 q => cases q <;> first | exact ⟨hc, hd⟩ | exact ⟨rfl, hd⟩
    | rx5 q => cases q <;> first | exact ⟨hc, hd⟩ | exact ⟨rfl, hd⟩
    | rx6Assert => exact ⟨hc, rfl⟩
    | rx6 q => cases q <;> first | exact ⟨hc, hd⟩ | exact ⟨rfl, hd⟩
    | rx6Release => exact ⟨hc, rfl⟩
  · rename_i e
    cases e with
    | p1 => show _ = (Frame.poll (PollBus.deliver r .p1)).clk ∧ _; exact ⟨hc, hd⟩
    | _ => exact ⟨hc, hd⟩
  · rename_i q
    cases q <;> first | exact ⟨hc, hd⟩ | exact ⟨rfl, hd⟩

/-- The lines after a return of an operation that leaves them released. -/
theorem lines_return {c : Config} {f : Frame} {fs : List Frame} (s : State) (r : Ret) (h : StackOk c (f :: fs))
    (hp : f.isPrimitive = false) (hc : s.drvClk = .rel) (hd : s.drvDat = .rel) (hctl : s.ctl = popped c r fs) :
    LinesOk s := by
  unfold LinesOk
  rw [hctl]
  cases fs with
  | nil => exact ⟨hc, hd⟩
  | cons g gs =>
    have := lines_caller (d := s.drvDat) r h.1 hp
    rw [popped, operating_of_kind (deliver_kind c r g) (not_primitive_of_calls h.1)]
    exact ⟨hc.trans this.1.symm, this.2.2 hd⟩

/-! ### One event keeps the invariant -/

/-- The parts of the invariant that no event but a slot write touches. -/
theorem inv_of {s t : State} (hs : Inv s) (hcfg : t.cfg = s.cfg) (hinj : t.inject = s.inject)
    (hslots : t.slots = s.slots) (hstack : StackOk s.cfg t.ctl) (hframes : ∀ f ∈ t.ctl, FrameOk s.cfg s.slots f)
    (hlines : LinesOk t) : Inv t where
  config := hcfg ▸ hs.config
  clientOnly := hinj ▸ hs.clientOnly
  unique := by have := hs.unique; unfold RegistryUnique at this ⊢; rwa [hcfg, hslots]
  slotsWf := by have := hs.slotsWf; unfold SlotsWellFormed at this ⊢; rwa [hcfg, hslots]
  stack := hcfg ▸ hstack
  frames := by rw [hcfg, hslots]; exact hframes
  lines := hlines

section

variable {s : State} {f : Frame} {fs : List Frame} (hs : Inv s) (hctl : s.ctl = f :: fs)
include hs hctl

theorem Inv.stack' : StackOk s.cfg (f :: fs) := hctl ▸ hs.stack
theorem Inv.frames' : ∀ g ∈ f :: fs, FrameOk s.cfg s.slots g := hctl ▸ hs.frames
theorem Inv.frame : FrameOk s.cfg s.slots f := hs.frames' hctl f (by simp)

theorem Inv.lines' (hp : f.isPrimitive = false) : s.drvClk = f.clk ∧ f.datOk s.drvDat := by
  have := hs.lines
  unfold LinesOk at this
  rw [hctl, operating_of_kind rfl hp] at this
  exact this

/-- A return with both lines released. -/
theorem inv_return {t : State} (r : Ret) (hp : f.isPrimitive = false) (hcfg : t.cfg = s.cfg) (hinj : t.inject = s.inject)
    (hslots : t.slots = s.slots) (ht : t.ctl = popped s.cfg r fs) (hc : t.drvClk = .rel) (hd : t.drvDat = .rel) :
    Inv t :=
  inv_of hs hcfg hinj hslots (ht ▸ stackOk_return r (hs.stack' hctl)) (ht ▸ frames_return r (hs.frames' hctl))
    (lines_return t r (hs.stack' hctl) hp hc hd ht)

/-- A step to another step of the same operation. -/
theorem inv_goto {t : State} {f' : Frame} (hp : f.isPrimitive = false) (hcfg : t.cfg = s.cfg) (hinj : t.inject = s.inject)
    (hslots : t.slots = s.slots) (ht : t.ctl = f' :: fs) (hk : f'.kind = f.kind) (hf : FrameOk s.cfg s.slots f')
    (hc : t.drvClk = f'.clk) (hd : f'.datOk t.drvDat) : Inv t :=
  inv_of hs hcfg hinj hslots (ht ▸ stackOk_goto hk (hs.stack' hctl)) (ht ▸ frames_goto hf (hs.frames' hctl))
    (by unfold LinesOk; rw [ht, operating_of_kind hk hp]; exact ⟨hc, hd⟩)

/-- A call of an operation that is no primitive. -/
theorem inv_call {t : State} {f' e : Frame} (hp : e.isPrimitive = false) (hcfg : t.cfg = s.cfg)
    (hinj : t.inject = s.inject) (hslots : t.slots = s.slots) (ht : t.ctl = e :: f' :: fs) (hk : f'.kind = f.kind)
    (hcall : Calls s.cfg f' e) (hf : FrameOk s.cfg s.slots f') (he : FrameOk s.cfg s.slots e) (hc : t.drvClk = e.clk)
    (hd : e.datOk t.drvDat) : Inv t :=
  inv_of hs hcfg hinj hslots (ht ▸ stackOk_call hk hcall (hs.stack' hctl))
    (ht ▸ fun g hg => by
      rcases List.mem_cons.1 hg with rfl | hg
      · exact he
      · exact frames_goto hf (hs.frames' hctl) g hg)
    (by unfold LinesOk; rw [ht, operating_of_kind rfl hp]; exact ⟨hc, hd⟩)

/-- A bus event begins: the running operation calls its primitive. -/
theorem inv_bus {p : Frame} (hp : f.isPrimitive = false) (h : f.primitive s.cfg = some p)
    (hcall : Calls s.cfg f p) : Inv (s.callFrom p f fs) := by
  have hpp := primitive_isPrimitive h
  refine inv_of hs rfl rfl rfl (stackOk_call rfl hcall (hs.stack' hctl)) ?_ ?_
  · intro g hg
    rcases List.mem_cons.1 hg with rfl | hg
    · cases g <;> first | trivial | cases hpp
    · exact hs.frames' hctl g hg
  · have : operating (s.callFrom p f fs).ctl = some f := by simp [operating, hpp]
    unfold LinesOk
    rw [this]
    exact hs.lines' hctl hp

/-- A bus event: the primitive makes it and returns to its caller. -/
theorem inv_event {t : State} (r : Ret) (hp : f.isPrimitive = true) (hcfg : t.cfg = s.cfg) (hinj : t.inject = s.inject)
    (hslots : t.slots = s.slots) (ht : t.ctl = popped s.cfg r fs) (hc : t.drvClk = (f.drives s).drvClk)
    (hd : t.drvDat = (f.drives s).drvDat) : Inv t := by
  refine inv_of hs hcfg hinj hslots (ht ▸ stackOk_return r (hs.stack' hctl)) (ht ▸ frames_return r (hs.frames' hctl)) ?_
  have hst := hs.stack' hctl
  cases fs with
  | nil => cases f <;> first | (cases hst; done) | (cases hp; done)
  | cons g gs =>
    have hg := not_primitive_of_calls hst.1
    have hl := hs.lines
    unfold LinesOk at hl
    rw [hctl] at hl
    simp only [operating, hp, if_true, List.head?_cons] at hl
    have := lines_event s r (calls_primitive hst.1 hp) hl.1 hl.2
    unfold LinesOk
    rw [ht, popped, operating_of_kind (deliver_kind s.cfg r g) hg]
    exact ⟨hc.trans this.1, hd ▸ this.2⟩

end

end Sys2Proof.Machine
end

