-- ==== Sys2Proof/Laws/InvariantSteps.lean ====
section
/-!
SUPPORT. One event of each operation keeps the invariant (R24, R27, R31, R72, R207).
-/

namespace Sys2Proof.Machine

/-- R78: the class `NONE` is the sentinel alone. -/
theorem classify_none {c : Config} {k : Keycode} : classify c k = .none ↔ k = c.keyNone := by
  unfold classify
  by_cases h : k = c.keyNone
  · simp [h]
  · simp only [h, if_false, iff_false]
    repeat' split
    all_goals simp

section

variable {s : State} {fs : List Frame}

theorem inv_transmit (hs : Inv s) {v : TxLocals} {l : TxLabel} (hctl : s.ctl = .transmit v l :: fs) :
    Inv (stepTransmit v l fs s) := by
  obtain ⟨hc, hd⟩ := hs.lines' hctl rfl
  cases l with
  | bus e => exact inv_bus hs hctl rfl rfl rfl
  | t2 => exact inv_goto hs hctl rfl rfl rfl rfl rfl rfl ⟨rfl, rfl, rfl⟩ hc hd
  | t7 => exact inv_goto hs hctl rfl rfl rfl rfl rfl rfl trivial hc hd
  | t8 =>
    exact inv_return hs hctl _ rfl (by cases fs <;> rfl) (by cases fs <;> rfl) (by cases fs <;> rfl)
      (returnFrom_ctl _ _ _ _) (by cases fs <;> exact hc) (by cases fs <;> exact hd)
  | fail r =>
    exact inv_return hs hctl _ rfl (by cases fs <;> rfl) (by cases fs <;> rfl) (by cases fs <;> rfl)
      (returnFrom_ctl _ _ _ _) (by cases fs <;> exact hc) (by cases fs <;> exact hd)

theorem inv_receive (hs : Inv s) {v : RxLocals} {l : RxLabel} (hctl : s.ctl = .receive v l :: fs) :
    Inv (stepReceive v l fs s) := by
  obtain ⟨hc, hd⟩ := hs.lines' hctl rfl
  cases l with
  | rx0 => exact inv_goto hs hctl rfl rfl rfl rfl rfl rfl trivial hc hd
  | bus e => exact inv_bus hs hctl rfl rfl rfl
  | rx2 => exact inv_goto hs hctl rfl rfl rfl rfl rfl rfl (by decide : (0 : Nat) < 8) hc hd
  | rx0Out =>
    exact inv_return hs hctl _ rfl (by cases fs <;> rfl) (by cases fs <;> rfl) (by cases fs <;> rfl)
      (returnFrom_ctl _ _ _ _) (by cases fs <;> exact hc) (by cases fs <;> exact hd)
  | rx7 =>
    exact inv_return hs hctl _ rfl (by cases fs <;> rfl) (by cases fs <;> rfl) (by cases fs <;> rfl)
      (returnFrom_ctl _ _ _ _) (by cases fs <;> exact hc) (by cases fs <;> exact hd)

theorem inv_poll (hs : Inv s) {l : PollLabel} (hctl : s.ctl = .poll l :: fs) : Inv (stepPoll l fs s) := by
  obtain ⟨hc, hd⟩ := hs.lines' hctl rfl
  cases l with
  | bus e => exact inv_bus hs hctl rfl rfl rfl
  | p2 => exact inv_call hs hctl rfl rfl rfl rfl rfl rfl trivial trivial trivial hc hd
  | p3 b => exact inv_call hs hctl rfl rfl rfl rfl rfl rfl rfl trivial trivial hc hd
  | out v =>
    exact inv_return hs hctl _ rfl (by cases fs <;> rfl) (by cases fs <;> rfl) (by cases fs <;> rfl)
      (returnFrom_ctl _ _ _ _) (by cases fs <;> exact hc) (by cases fs <;> exact hd)

theorem inv_handle (hs : Inv s) {cmd : Byte} {l : HandlerLabel} (hctl : s.ctl = .handleCommand cmd l :: fs) :
    Inv (stepHandle cmd l fs s) := by
  obtain ⟨hc, hd⟩ := hs.lines' hctl rfl
  rcases l with _ | (_ | ⟨_ | b | _ | v | _, rest⟩)
  · exact inv_goto hs hctl rfl rfl rfl rfl rfl rfl trivial hc hd
  · exact inv_return hs hctl _ rfl (by cases fs <;> rfl) (by cases fs <;> rfl) (by cases fs <;> rfl)
      (returnFrom_ctl _ _ _ _) (by cases fs <;> exact hc) (by cases fs <;> exact hd)
  · exact inv_call hs hctl rfl rfl rfl rfl rfl rfl trivial trivial trivial hc hd
  · exact inv_call hs hctl rfl rfl rfl rfl rfl rfl rfl trivial trivial hc hd
  · exact inv_call hs hctl rfl rfl rfl rfl rfl rfl trivial trivial trivial hc hd
  · exact inv_goto hs hctl rfl rfl rfl rfl rfl rfl trivial hc hd
  · exact inv_goto hs hctl rfl rfl rfl rfl rfl rfl trivial hc hd

theorem inv_ack (hs : Inv s) {l : RetryLabel} (hctl : s.ctl = .ack l :: fs) : Inv (stepAck l fs s) := by
  obtain ⟨hc, hd⟩ := hs.lines' hctl rfl
  cases l with
  | s0 => exact inv_call hs hctl rfl rfl rfl rfl rfl rfl rfl trivial trivial hc hd
  | s2 =>
    exact inv_return hs hctl _ rfl (by cases fs <;> rfl) (by cases fs <;> rfl) (by cases fs <;> rfl)
      (returnFrom_ctl _ _ _ _) (by cases fs <;> exact hc) (by cases fs <;> exact hd)

end

/-- No engine that its client starts runs a pseudo-operation as a frame of its own. -/
theorem not_stackOk_pseudo {c : Config} {f : Frame} {fs : List Frame} (he : f.external = false) (hd : f.depth = 0) :
    ¬ StackOk c (f :: fs) := by
  intro h
  cases fs with
  | nil => rw [StackOk, he] at h; cases h
  | cons g gs => have := depth_lt_of_calls h.1; omega

/-- What can only stand at the bottom of the stack does. -/
theorem alone_of_depth {c : Config} {f : Frame} {fs : List Frame} (h : StackOk c (f :: fs)) (hd : f.depth ≤ 1) :
    fs = [] := by
  cases fs with
  | nil => rfl
  | cons g gs =>
    have h0 : g.depth = 0 := by have := depth_lt_of_calls h.1; omega
    have he : g.external = false := by cases g <;> first | rfl | (cases h0; done)
    exact absurd h.2 (not_stackOk_pseudo he h0)

/-- A `release` stands at the bottom of the stack or on a `releaseAll` there. -/
theorem release_callers {c : Config} {k : Keycode} {q : List Byte} {l : KeyLabel} {fs : List Frame}
    (h : StackOk c (.release k q l :: fs)) : fs = [] ∨ ∃ n, fs = [.releaseAll n] := by
  cases fs with
  | nil => exact .inl rfl
  | cons g gs =>
    have hg : ∃ n, g = .releaseAll n := by
      have h1 := h.1
      have hlt := depth_lt_of_calls h1
      cases g with
      | releaseAll n => exact ⟨n, rfl⟩
      | press k' q' l' =>
        exfalso
        rcases l' with _ | (_ | _ | _ | _ | _) | _ | _ <;> cases h1
      | sendUntilOk b l => exact absurd h.2 (not_stackOk_pseudo rfl rfl)
      | sendSequence q l => exact absurd h.2 (not_stackOk_pseudo rfl rfl)
      | clockCycle p => exact absurd h.2 (not_stackOk_pseudo rfl rfl)
      | _ => simp [Frame.depth] at hlt
    obtain ⟨n, rfl⟩ := hg
    rw [alone_of_depth h.2 (Nat.le_refl 1)]
    exact .inr ⟨n, rfl⟩

section

variable {s : State} {fs : List Frame}

/-- The retry loop of a frame that sends `q`. -/
theorem inv_loop (hs : Inv s) {q : List Byte} {at_ : LoopLabel → Frame} {exit : State} {l : LoopLabel}
    (hctl : s.ctl = at_ l :: fs) (hk : ∀ m, (at_ m).kind = (at_ l).kind)
    (hl : ∀ m, (at_ m).clk = .rel ∧ ∀ d, (at_ m).datOk d ↔ d = .rel) (hp : ∀ m, (at_ m).isPrimitive = false)
    (hok : ∀ m, m.inRange q → FrameOk s.cfg s.slots (at_ m)) (hr : l.inRange q)
    (hpoll : Calls s.cfg (at_ .l0) Frame.newPoll)
    (hsend : ∀ j b, j < q.length → q[j]? = some b → Calls s.cfg (at_ (.l3Send j)) (Frame.newTransmit b))
    (hexit : l.inRange q → Inv exit) : Inv (s.loopStep q l at_ exit fs) := by
  have hlines := hs.lines' hctl (hp l)
  have hc : s.drvClk = .rel := hlines.1.trans (hl l).1
  have hd : s.drvDat = .rel := ((hl l).2 _).1 hlines.2
  cases l with
  | l0 => exact inv_call hs hctl rfl rfl rfl rfl rfl (hk _) hpoll (hok _ trivial) trivial hc hd
  | l1 =>
    exact inv_goto hs hctl (hp _) rfl rfl rfl rfl (hk _) (hok (.l2 0) (Nat.zero_le _)) (hc.trans (hl _).1.symm)
      (((hl _).2 _).2 hd)
  | l2 j =>
    simp only [State.loopStep]
    split
    · exact hexit hr
    · exact inv_goto hs hctl (hp _) rfl rfl rfl rfl (hk _) (hok (.l3 j) (Nat.lt_of_not_le ‹_›)) (hc.trans (hl _).1.symm)
        (((hl _).2 _).2 hd)
  | l3 j =>
    exact inv_goto hs hctl (hp _) rfl rfl rfl rfl (hk _) (hok (.l3Send j) hr) (hc.trans (hl _).1.symm) (((hl _).2 _).2 hd)
  | l3Send j =>
    have hj : j < q.length := hr
    have hb : q[j]? = some (q.getD j 0) := by
      rw [List.getD_eq_getElem _ _ hj, List.getElem?_eq_getElem hj]
    exact inv_call hs hctl rfl rfl rfl rfl rfl (hk _) (hsend j _ hj hb) (hok _ hr) trivial hc hd

theorem inv_press (hs : Inv s) {k : Keycode} {q : List Byte} {l : KeyLabel} (hctl : s.ctl = .press k q l :: fs) :
    Inv (stepPress k q l fs s) := by
  obtain ⟨hc, hd⟩ := hs.lines' hctl rfl
  have hf := hs.frame hctl
  have ret : ∀ r, Inv (s.returnFrom (.press k q l) r fs) := fun r =>
    inv_return hs hctl r rfl (by cases fs <;> rfl) (by cases fs <;> rfl) (by cases fs <;> rfl)
      (returnFrom_ctl _ _ _ _) (by cases fs <;> exact hc) (by cases fs <;> exact hd)
  cases l with
  | entry =>
    simp only [stepPress]
    split
    · exact ret _
    · rename_i hne
      split
      · exact ret _
      · rename_i hnone
        obtain ⟨h1, h2⟩ := hf
        refine inv_goto hs hctl rfl rfl rfl rfl rfl rfl ⟨h1, ?_, ?_, ?_, trivial⟩ hc hd
        · unfold wfKey
          have : classify s.cfg k ≠ .none := fun h => hne (classify_none.1 h)
          revert h2 this; cases classify s.cfg k <;> simp
        · unfold pressCheck at hnone
          by_contra h; simp [h] at hnone
        · unfold pressCheck at hnone
          intro h
          by_cases h' : s.slots.find k = none <;> simp [h, h'] at hnone
  | loop m =>
    obtain ⟨h1, h2, h3, h4, h5⟩ := hf
    refine inv_loop hs (at_ := fun m => .press k q (.loop m)) hctl (fun _ => rfl) (fun _ => ⟨rfl, fun _ => Iff.rfl⟩) (fun _ => rfl)
      (fun m hm => ⟨h1, h2, h3, h4, hm⟩) h5 trivial (fun j b _ hb => hb) (fun _ => ?_)
    exact inv_goto hs hctl rfl rfl rfl rfl rfl rfl ⟨h1, h2, h3, h4, trivial⟩ hc hd
  | write =>
    obtain ⟨h1, h2, h3, h4, _⟩ := hf
    obtain ⟨i, hi⟩ := Option.ne_none_iff_exists'.1 h4
    have hi6 := (Registry.find_some hi).1
    have hfs := alone_of_depth (hs.stack' hctl) (Nat.le_refl 1)
    have hr : s.record k = { s with slots := s.slots.set i k } := by simp [State.record, hi]
    simp only [stepPress, hr]
    subst hfs
    refine ⟨hs.config, hs.clientOnly, unique_record hs.unique hi6 h3, ?_, stackOk_goto (f := .press k q .write) rfl
      (hs.stack' hctl), ?_, ⟨hc, hd⟩⟩
    · intro x hx
      obtain ⟨j, hj, rfl⟩ := Registry.mem_toList.1 hx
      show (s.slots.set i k).get j = s.cfg.keyNone ∨ wfKey s.cfg ((s.slots.set i k).get j) = true
      rw [Registry.get_set _ hi6 hj]
      split
      · exact .inr h2
      · exact hs.slotsWf _ (Registry.mem_toList.2 ⟨j, hj, rfl⟩)
    · intro x hx
      rw [List.mem_singleton.1 hx]
      refine ⟨h1, h2, ?_⟩
      intro hn
      have := Registry.find_none.1 hn i hi6
      simp [Registry.get_set _ hi6 hi6] at this
  | finish => exact ret _

theorem inv_release (hs : Inv s) {k : Keycode} {q : List Byte} {l : KeyLabel} (hctl : s.ctl = .release k q l :: fs) :
    Inv (stepRelease k q l fs s) := by
  obtain ⟨hc, hd⟩ := hs.lines' hctl rfl
  have hf := hs.frame hctl
  have ret : ∀ r, Inv (s.returnFrom (.release k q l) r fs) := fun r =>
    inv_return hs hctl r rfl (by cases fs <;> rfl) (by cases fs <;> rfl) (by cases fs <;> rfl)
      (returnFrom_ctl _ _ _ _) (by cases fs <;> exact hc) (by cases fs <;> exact hd)
  cases l with
  | entry =>
    simp only [stepRelease]
    split
    · exact ret _
    · rename_i hnone
      refine inv_goto hs hctl rfl rfl rfl rfl rfl rfl ⟨hf, ?_, ?_, trivial⟩ hc hd
      · intro h; simp [releaseCheck, h] at hnone
      · intro h
        unfold releaseCheck at hnone
        by_cases h' : k = s.cfg.keyNone <;> simp [h, h'] at hnone
  | loop m =>
    obtain ⟨h1, h2, h3, h5⟩ := hf
    refine inv_loop hs (at_ := fun m => .release k q (.loop m)) hctl (fun _ => rfl)
      (fun _ => ⟨rfl, fun _ => Iff.rfl⟩) (fun _ => rfl) (fun m hm => ⟨h1, h2, h3, hm⟩) h5 trivial (fun j b _ hb => hb) (fun _ => ?_)
    exact inv_goto hs hctl rfl rfl rfl rfl rfl rfl ⟨h1, h2, h3, trivial⟩ hc hd
  | write =>
    obtain ⟨h1, h2, h3, _⟩ := hf
    obtain ⟨i, hi⟩ := Option.ne_none_iff_exists'.1 h3
    obtain ⟨hi6, hget, _⟩ := Registry.find_some hi
    have hr : s.clear k = { s with slots := s.slots.set i s.cfg.keyNone } := by simp [State.clear, hi]
    simp only [stepRelease, hr]
    have hgone : (s.slots.set i s.cfg.keyNone).find k = none := by
      rw [Registry.find_none]
      intro j hj
      rw [Registry.get_set _ hi6 hj]
      split
      · exact fun h => h2 h.symm
      · rename_i hne
        intro he
        exact hne ((registryUnique_iff s).1 hs.unique j i hj hi6 (he ▸ h2) (he.trans hget.symm))
    refine ⟨hs.config, hs.clientOnly, unique_clear hs.unique hi6, ?_, stackOk_goto (f := .release k q .write) rfl
      (hs.stack' hctl), ?_, ⟨hc, hd⟩⟩
    · intro x hx
      obtain ⟨j, hj, rfl⟩ := Registry.mem_toList.1 hx
      show (s.slots.set i s.cfg.keyNone).get j = s.cfg.keyNone ∨ wfKey s.cfg ((s.slots.set i s.cfg.keyNone).get j) = true
      rw [Registry.get_set _ hi6 hj]
      split
      · exact .inl rfl
      · exact hs.slotsWf _ (Registry.mem_toList.2 ⟨j, hj, rfl⟩)
    · intro x hx
      rcases List.mem_cons.1 hx with rfl | hx
      · exact ⟨h1, h2, hgone⟩
      · rcases release_callers (hs.stack' hctl) with rfl | ⟨n, rfl⟩
        · cases hx
        · rw [List.mem_singleton.1 hx]
          exact hs.frames' hctl (.releaseAll n) (by simp)
  | finish => exact ret _

theorem inv_releaseAll (hs : Inv s) {n : Nat} (hctl : s.ctl = .releaseAll n :: fs) : Inv (stepReleaseAll n fs s) := by
  obtain ⟨hc, hd⟩ := hs.lines' hctl rfl
  have hf : n ≤ nSlots := hs.frame hctl
  cases n with
  | zero =>
    exact inv_return hs hctl _ rfl (by cases fs <;> rfl) (by cases fs <;> rfl) (by cases fs <;> rfl)
      (returnFrom_ctl _ _ _ _) (by cases fs <;> exact hc) (by cases fs <;> exact hd)
  | succ i =>
    have hi : i ≤ nSlots := by omega
    simp only [stepReleaseAll]
    split
    · exact inv_goto hs hctl rfl rfl rfl rfl rfl rfl hi hc hd
    · exact inv_call hs hctl rfl rfl rfl rfl rfl rfl trivial hi rfl hc hd

/-- A bus event keeps the invariant. -/
theorem inv_prim (hs : Inv s) {f : Frame} (hctl : s.ctl = f :: fs) (hp : f.isPrimitive = true) :
    Inv (stepFrame f fs s) := by
  cases f with
  | lineRelease l =>
    exact inv_event hs hctl .unit hp (by cases fs <;> cases l <;> rfl) (by cases fs <;> cases l <;> rfl)
      (by cases fs <;> cases l <;> rfl) ((returnFrom_ctl _ _ _ _).trans (by cases l <;> rfl))
      (by cases fs <;> cases l <;> rfl) (by cases fs <;> cases l <;> rfl)
  | assertLow l =>
    exact inv_event hs hctl .unit hp (by cases fs <;> cases l <;> rfl) (by cases fs <;> cases l <;> rfl)
      (by cases fs <;> cases l <;> rfl) ((returnFrom_ctl _ _ _ _).trans (by cases l <;> rfl))
      (by cases fs <;> cases l <;> rfl) (by cases fs <;> cases l <;> rfl)
  | lineRead l =>
    exact inv_event hs hctl (.level (s.level l)) hp (by cases fs <;> rfl) (by cases fs <;> rfl) (by cases fs <;> rfl)
      (returnFrom_ctl _ _ _ _) (by cases fs <;> rfl) (by cases fs <;> rfl)
  | delay n =>
    exact inv_event hs hctl .unit hp (by cases fs <;> rfl) (by cases fs <;> rfl) (by cases fs <;> rfl)
      (returnFrom_ctl _ _ _ _) (by cases fs <;> rfl) (by cases fs <;> rfl)
  | _ => cases hp

/-- One spec lemma of a step: it keeps the invariant. -/
theorem inv_device (hs : Inv s) : Inv s.device := by
  unfold State.device
  split
  · exact hs
  · rename_i f callers hctl
    cases f with
    | poll l => exact inv_poll hs hctl
    | press k q l => exact inv_press hs hctl
    | release k q l => exact inv_release hs hctl
    | releaseAll n => exact inv_releaseAll hs hctl
    | handleCommand cmd l => exact inv_handle hs hctl
    | ack l => exact inv_ack hs hctl
    | transmit v l => exact inv_transmit hs hctl
    | receive v l => exact inv_receive hs hctl
    | lineRelease l => exact inv_prim hs hctl rfl
    | assertLow l => exact inv_prim hs hctl rfl
    | lineRead l => exact inv_prim hs hctl rfl
    | delay n => exact inv_prim hs hctl rfl
    | sendUntilOk b l => exact absurd (hs.stack' hctl) (not_stackOk_pseudo rfl rfl)
    | sendSequence q l => exact absurd (hs.stack' hctl) (not_stackOk_pseudo rfl rfl)
    | clockCycle p => exact absurd (hs.stack' hctl) (not_stackOk_pseudo rfl rfl)

end

/-- The invariant says nothing of the world. -/
theorem inv_withWorld {s : State} (hs : Inv s) (e : Pins) (sc : List Pins) (n : Nat) : Inv (s.withWorld e sc n) :=
  ⟨hs.config, hs.clientOnly, hs.unique, hs.slotsWf, hs.stack, hs.frames, hs.lines⟩

theorem inv_passTime {s : State} (hs : Inv s) : Inv s.passTime := by
  unfold State.passTime
  split
  · exact inv_withWorld hs _ _ _
  · exact inv_withWorld hs _ s.script _

end Sys2Proof.Machine
end

