-- ==== Sys2Proof/Laws/PerInstr.lean ====
section
/-!
SUPPORT. Statements made of every instruction as syntax, one lemma per constructor. `Layout`: the word of a
well-formed instruction stands in the format of its row of the opcode table and is at most nine bytes long.
-/

namespace Sys2Proof.Laws.Layout

/-- The format the opcode table gives an instruction's row (`param8` is HOSTCMD8 in the place of a parameter). -/
def rowFormat (i : Instr) : Format :=
  match i with
  | .reset | .resend | .setDefaults | .disableReporting | .enableReporting | .setTypematicRate | .getDeviceId
  | .setScanCodeSet | .echo | .setResetLeds | .unknownCommand _ => .hostCmd8
  | .parameterByte _ => .param8
  | .ackReply | .selfTestPassed | .identityByte0 | .identityByte1 | .echoReply => .resp8
  | .frameDeviceToHost _ => .frameD2H
  | .frameHostToDevice _ _ => .frameH2D
  | .keycodePlain _ | .keycodeExtended _ | .keycodeSpecialPrtsc | .keycodeSpecialPause | .keycodeNone
  | .keycodeReserved _ => .keycode16
  | .seqPlainPress _ | .seqExtendedPress _ | .seqPlainRelease _ | .seqExtendedRelease _ | .seqPrtscPress
  | .seqPrtscRelease | .seqPausePress | .seqPauseRelease => .byteSeq
  | .poll | .press _ | .release _ | .releaseAll => .req18
  | .opPoll | .opPress _ | .opRelease _ | .opReleaseAll | .opHandleCommand _ | .opAck | .opTransmit _ | .opReceive
  | .opLineRelease _ | .opAssertLow _ | .opLineRead _ | .opDelay _ => .opId4
  | .opSendUntilOk _ | .opSendSequence _ | .opClockCycle => .pseudo

/-- The family's statement. -/
def Statement (i : Instr) : Prop :=
  ∀ c : Config, WellFormed c i = true → (encode c i).fmt = rowFormat i ∧ (encode c i).bytes.length ≤ 9

theorem reset : Statement .reset := fun _ _ => ⟨rfl, Nat.le_of_ble_eq_true rfl⟩
theorem resend : Statement .resend := fun _ _ => ⟨rfl, Nat.le_of_ble_eq_true rfl⟩
theorem setDefaults : Statement .setDefaults := fun _ _ => ⟨rfl, Nat.le_of_ble_eq_true rfl⟩
theorem disableReporting : Statement .disableReporting := fun _ _ => ⟨rfl, Nat.le_of_ble_eq_true rfl⟩
theorem enableReporting : Statement .enableReporting := fun _ _ => ⟨rfl, Nat.le_of_ble_eq_true rfl⟩
theorem setTypematicRate : Statement .setTypematicRate := fun _ _ => ⟨rfl, Nat.le_of_ble_eq_true rfl⟩
theorem getDeviceId : Statement .getDeviceId := fun _ _ => ⟨rfl, Nat.le_of_ble_eq_true rfl⟩
theorem setScanCodeSet : Statement .setScanCodeSet := fun _ _ => ⟨rfl, Nat.le_of_ble_eq_true rfl⟩
theorem echo : Statement .echo := fun _ _ => ⟨rfl, Nat.le_of_ble_eq_true rfl⟩
theorem setResetLeds : Statement .setResetLeds := fun _ _ => ⟨rfl, Nat.le_of_ble_eq_true rfl⟩
theorem unknownCommand (cmd : Byte) : Statement (.unknownCommand cmd) := fun _ _ => ⟨rfl, Nat.le_of_ble_eq_true rfl⟩
theorem parameterByte (v : Byte) : Statement (.parameterByte v) := fun _ _ => ⟨rfl, Nat.le_of_ble_eq_true rfl⟩
theorem ackReply : Statement .ackReply := fun _ _ => ⟨rfl, Nat.le_of_ble_eq_true rfl⟩
theorem selfTestPassed : Statement .selfTestPassed := fun _ _ => ⟨rfl, Nat.le_of_ble_eq_true rfl⟩
theorem identityByte0 : Statement .identityByte0 := fun _ _ => ⟨rfl, Nat.le_of_ble_eq_true rfl⟩
theorem identityByte1 : Statement .identityByte1 := fun _ _ => ⟨rfl, Nat.le_of_ble_eq_true rfl⟩
theorem echoReply : Statement .echoReply := fun _ _ => ⟨rfl, Nat.le_of_ble_eq_true rfl⟩
theorem frameDeviceToHost (b : Byte) : Statement (.frameDeviceToHost b) := fun _ _ => ⟨rfl, Nat.le_of_ble_eq_true rfl⟩
theorem frameHostToDevice (b : Byte) (p : Bool) : Statement (.frameHostToDevice b p) := fun _ _ => ⟨rfl, Nat.le_of_ble_eq_true rfl⟩
theorem keycodePlain (l : Byte) : Statement (.keycodePlain l) := fun _ _ => ⟨rfl, Nat.le_of_ble_eq_true rfl⟩
theorem keycodeExtended (l : Byte) : Statement (.keycodeExtended l) := fun _ _ => ⟨rfl, Nat.le_of_ble_eq_true rfl⟩
theorem keycodeSpecialPrtsc : Statement .keycodeSpecialPrtsc := fun _ _ => ⟨rfl, Nat.le_of_ble_eq_true rfl⟩
theorem keycodeSpecialPause : Statement .keycodeSpecialPause := fun _ _ => ⟨rfl, Nat.le_of_ble_eq_true rfl⟩
theorem keycodeNone : Statement .keycodeNone := fun _ _ => ⟨rfl, Nat.le_of_ble_eq_true rfl⟩
theorem keycodeReserved (k : Keycode) : Statement (.keycodeReserved k) := fun _ _ => ⟨rfl, Nat.le_of_ble_eq_true rfl⟩
theorem seqPlainPress (l : Byte) : Statement (.seqPlainPress l) := fun _ _ => ⟨rfl, Nat.le_of_ble_eq_true rfl⟩
theorem seqExtendedPress (l : Byte) : Statement (.seqExtendedPress l) := fun _ _ => ⟨rfl, Nat.le_of_ble_eq_true rfl⟩
theorem seqPlainRelease (l : Byte) : Statement (.seqPlainRelease l) := fun _ _ => ⟨rfl, Nat.le_of_ble_eq_true rfl⟩
theorem seqExtendedRelease (l : Byte) : Statement (.seqExtendedRelease l) := fun _ _ => ⟨rfl, Nat.le_of_ble_eq_true rfl⟩
theorem seqPrtscPress : Statement .seqPrtscPress := fun _ _ => ⟨rfl, Nat.le_of_ble_eq_true rfl⟩
theorem seqPrtscRelease : Statement .seqPrtscRelease := fun _ _ => ⟨rfl, Nat.le_of_ble_eq_true rfl⟩
theorem seqPausePress : Statement .seqPausePress := fun _ _ => ⟨rfl, Nat.le_of_ble_eq_true rfl⟩
theorem seqPauseRelease : Statement .seqPauseRelease := fun _ _ => ⟨rfl, Nat.le_of_ble_eq_true rfl⟩
theorem poll : Statement .poll := fun _ _ => ⟨rfl, Nat.le_of_ble_eq_true rfl⟩
theorem press (k : Keycode) : Statement (.press k) := fun _ _ => ⟨rfl, Nat.le_of_ble_eq_true rfl⟩
theorem release (k : Keycode) : Statement (.release k) := fun _ _ => ⟨rfl, Nat.le_of_ble_eq_true rfl⟩
theorem releaseAll : Statement .releaseAll := fun _ _ => ⟨rfl, Nat.le_of_ble_eq_true rfl⟩
theorem opPoll : Statement .opPoll := fun _ _ => ⟨rfl, Nat.le_of_ble_eq_true rfl⟩
theorem opPress (k : Keycode) : Statement (.opPress k) := fun _ _ => ⟨rfl, Nat.le_of_ble_eq_true rfl⟩
theorem opRelease (k : Keycode) : Statement (.opRelease k) := fun _ _ => ⟨rfl, Nat.le_of_ble_eq_true rfl⟩
theorem opReleaseAll : Statement .opReleaseAll := fun _ _ => ⟨rfl, Nat.le_of_ble_eq_true rfl⟩
theorem opHandleCommand (cmd : Byte) : Statement (.opHandleCommand cmd) := fun _ _ => ⟨rfl, Nat.le_of_ble_eq_true rfl⟩
theorem opAck : Statement .opAck := fun _ _ => ⟨rfl, Nat.le_of_ble_eq_true rfl⟩
theorem opTransmit (b : Byte) : Statement (.opTransmit b) := fun _ _ => ⟨rfl, Nat.le_of_ble_eq_true rfl⟩
theorem opReceive : Statement .opReceive := fun _ _ => ⟨rfl, Nat.le_of_ble_eq_true rfl⟩
theorem opLineRelease (l : Line) : Statement (.opLineRelease l) := fun _ _ => ⟨rfl, Nat.le_of_ble_eq_true rfl⟩
theorem opAssertLow (l : Line) : Statement (.opAssertLow l) := fun _ _ => ⟨rfl, Nat.le_of_ble_eq_true rfl⟩
theorem opLineRead (l : Line) : Statement (.opLineRead l) := fun _ _ => ⟨rfl, Nat.le_of_ble_eq_true rfl⟩
theorem opDelay (t : Nat) : Statement (.opDelay t) := fun _ _ => ⟨rfl, Nat.le_of_ble_eq_true rfl⟩
theorem opSendUntilOk (b : Byte) : Statement (.opSendUntilOk b) := fun _ _ => ⟨rfl, Nat.le_of_ble_eq_true rfl⟩
theorem opSendSequence (bs : List Byte) : Statement (.opSendSequence bs) := fun _ h => by
  have := of_decide_eq_true h
  exact ⟨rfl, Nat.succ_le_succ this⟩
theorem opClockCycle : Statement .opClockCycle := fun _ _ => ⟨rfl, Nat.le_of_ble_eq_true rfl⟩

end Sys2Proof.Laws.Layout
end

