-- ==== Sys2Proof/Laws/Point.lean ====
section
/-!
SUPPORT. A point of a run with what a step changes made visible, and one lemma per shared operation at such a point:
with them a run of the sequencer is rewriting.
-/

namespace Sys2Proof.Machine

/-- A point of a run: the lines' drivers, the stack, the record, the inputs and the result register made visible, the
rest as in `s`. -/
def State.pt (s : State) (c d : Drive) (ctl : List Frame) (ev : List Event) (p : Pins) (x : Ret) : State :=
  { s with drvClk := c, drvDat := d, ctl := ctl, events := ev, env := p, script := [], envCount := 0, ret := x }

section
variable (s : State) (c d : Drive) (ctl : List Frame) (ev : List Event) (p q : Pins) (x : Ret)

@[simp] theorem pt_cfg : (s.pt c d ctl ev p x).cfg = s.cfg := rfl
@[simp] theorem pt_slots : (s.pt c d ctl ev p x).slots = s.slots := rfl
@[simp] theorem pt_enabled : (s.pt c d ctl ev p x).enabled = s.enabled := rfl
@[simp] theorem pt_drvClk : (s.pt c d ctl ev p x).drvClk = c := rfl
@[simp] theorem pt_drvDat : (s.pt c d ctl ev p x).drvDat = d := rfl
@[simp] theorem pt_ctl : (s.pt c d ctl ev p x).ctl = ctl := rfl
@[simp] theorem pt_ret : (s.pt c d ctl ev p x).ret = x := rfl
@[simp] theorem pt_events : (s.pt c d ctl ev p x).events = ev := rfl
@[simp] theorem pt_env : (s.pt c d ctl ev p x).env = p := rfl
theorem pt_react (f : Frame) (fs : List Frame) :
    (s.pt c d (f :: fs) ev p x).react q = stepFrame f fs (s.pt c d (f :: fs) ev q x) := rfl
@[simp] theorem pt_level_clk : (s.pt c d ctl ev p x).level .clk = wireLevel c p.hclk := rfl
@[simp] theorem pt_level_dat : (s.pt c d ctl ev p x).level .dat = wireLevel d p.hdat := rfl
theorem pt_emit (e : Event) : (s.pt c d ctl ev p x).emit e = s.pt c d ctl (e :: ev) p x := rfl
theorem pt_wait (t : Nat) : (s.pt c d ctl ev p x).wait t = s.pt c d ctl (.delayed t :: ev) p x := rfl
theorem pt_goto (f : Frame) (fs : List Frame) : (s.pt c d ctl ev p x).goto f fs = s.pt c d (f :: fs) ev p x := rfl
theorem pt_callFrom (g f : Frame) (fs : List Frame) :
    (s.pt c d ctl ev p x).callFrom g f fs = s.pt c d (g :: f :: fs) ev p x := rfl

/-- What a return leaves in the fields of the port. -/
def State.returned (s : State) (f : Frame) (r : Ret) (fs : List Frame) : State :=
  match fs with
  | [] => { s with done := f.external, result := if f.external then resultBit r else s.result }
  | _ :: _ => s

/-- The callers after a return. -/
def deliverTo (c : Config) (r : Ret) (fs : List Frame) : List Frame :=
  match fs with
  | [] => []
  | g :: gs => g.deliver c r :: gs

theorem pt_returnFrom (f : Frame) (r : Ret) (fs : List Frame) :
    (s.pt c d ctl ev p x).returnFrom f r fs
      = (s.returned f r fs).pt c d (deliverTo s.cfg r fs) (.returned f r :: ev) p r := by cases fs <;> rfl

/-- The four primitives, called by `g`: the event, and the caller's next step. -/
theorem pt_assertLow_clk (g : Frame) (fs : List Frame) :
    stepFrame (.assertLow .clk) (g :: fs) (s.pt c d ctl ev p x)
      = s.pt .drvLow d (g.deliver s.cfg .unit :: fs)
        (.returned (.assertLow .clk) .unit :: .drove .clk .drvLow (wireLevel .drvLow p.hclk) (wireLevel d p.hdat) :: ev)
        p .unit := rfl
theorem pt_lineRelease_clk (g : Frame) (fs : List Frame) :
    stepFrame (.lineRelease .clk) (g :: fs) (s.pt c d ctl ev p x)
      = s.pt .rel d (g.deliver s.cfg .unit :: fs)
        (.returned (.lineRelease .clk) .unit :: .drove .clk .rel (wireLevel .rel p.hclk) (wireLevel d p.hdat) :: ev)
        p .unit := rfl
theorem pt_busDrive_dat (y : Drive) (g : Frame) (fs : List Frame) :
    stepFrame (busDrive .dat y) (g :: fs) (s.pt c d ctl ev p x)
      = s.pt c y (g.deliver s.cfg .unit :: fs)
        (.returned (busDrive .dat y) .unit :: .drove .dat y (wireLevel c p.hclk) (wireLevel y p.hdat) :: ev)
        p .unit := by cases y <;> rfl
theorem pt_lineRead_clk (g : Frame) (fs : List Frame) :
    stepFrame (.lineRead .clk) (g :: fs) (s.pt c d ctl ev p x)
      = s.pt c d (g.deliver s.cfg (.level (wireLevel c p.hclk)) :: fs)
        (.returned (.lineRead .clk) (.level (wireLevel c p.hclk)) :: .sampled .clk (wireLevel c p.hclk) :: ev)
        p (.level (wireLevel c p.hclk)) := rfl
theorem pt_lineRead_dat (g : Frame) (fs : List Frame) :
    stepFrame (.lineRead .dat) (g :: fs) (s.pt c d ctl ev p x)
      = s.pt c d (g.deliver s.cfg (.level (wireLevel d p.hdat)) :: fs)
        (.returned (.lineRead .dat) (.level (wireLevel d p.hdat)) :: .sampled .dat (wireLevel d p.hdat) :: ev)
        p (.level (wireLevel d p.hdat)) := rfl
theorem pt_delay (n : Nat) (g : Frame) (fs : List Frame) :
    stepFrame (.delay n) (g :: fs) (s.pt c d ctl ev p x)
      = s.pt c d (g.deliver s.cfg .unit :: fs) (.returned (.delay n) .unit :: .delayed n :: ev) p .unit := rfl
end

/-- A bus event is a call of its primitive. -/
theorem step_txBus (v : TxLocals) (e : TxBus) (fs : List Frame) (t : State) :
    stepFrame (.transmit v (.bus e)) fs t = t.callFrom (e.primitive t.cfg v) (.transmit v (.bus e)) fs := rfl
theorem step_rxBus (v : RxLocals) (e : RxBus) (fs : List Frame) (t : State) :
    stepFrame (.receive v (.bus e)) fs t = t.callFrom (e.primitive t.cfg) (.receive v (.bus e)) fs := rfl
theorem step_pollBus (e : PollBus) (fs : List Frame) (t : State) :
    stepFrame (.poll (.bus e)) fs t = t.callFrom e.primitive (.poll (.bus e)) fs := rfl

theorem pt_record (s : State) (c d : Drive) (ctl : List Frame) (ev : List Event) (p : Pins) (x : Ret) (k : Keycode) :
    (s.pt c d ctl ev p x).record k = (s.record k).pt c d ctl ev p x := by
  simp only [State.record, pt_slots, pt_cfg]; split <;> rfl

theorem pt_clear (s : State) (c d : Drive) (ctl : List Frame) (ev : List Event) (p : Pins) (x : Ret) (k : Keycode) :
    (s.pt c d ctl ev p x).clear k = (s.clear k).pt c d ctl ev p x := by
  simp only [State.clear, pt_slots, pt_cfg]; split <;> rfl

@[simp] theorem deliverTo_nil (c : Config) (r : Ret) : deliverTo c r [] = [] := rfl
@[simp] theorem deliverTo_cons (c : Config) (r : Ret) (g : Frame) (gs : List Frame) :
    deliverTo c r (g :: gs) = g.deliver c r :: gs := rfl

@[simp] theorem returned_cons (s : State) (f : Frame) (r : Ret) (g : Frame) (gs : List Frame) :
    s.returned f r (g :: gs) = s := rfl
@[simp] theorem returned_cfg (s : State) (f : Frame) (r : Ret) (fs : List Frame) :
    (s.returned f r fs).cfg = s.cfg := by cases fs <;> rfl
@[simp] theorem returned_slots (s : State) (f : Frame) (r : Ret) (fs : List Frame) :
    (s.returned f r fs).slots = s.slots := by cases fs <;> rfl
@[simp] theorem returned_enabled (s : State) (f : Frame) (r : Ret) (fs : List Frame) :
    (s.returned f r fs).enabled = s.enabled := by cases fs <;> rfl
@[simp] theorem returned_inject (s : State) (f : Frame) (r : Ret) (fs : List Frame) :
    (s.returned f r fs).inject = s.inject := by cases fs <;> rfl

theorem resumed_eq_deliverTo (s : State) (r : Ret) : s.resumed r = deliverTo s.cfg r s.ctl := by
  unfold State.resumed; cases s.ctl <;> rfl

/-! ### Quiet inputs -/

/-- `n` inputs of a quiet world. -/
def quiets (n : Nat) : List Pins := List.replicate n Pins.quiet

theorem quiets_succ (n : Nat) : quiets (n + 1) = Pins.quiet :: quiets n := rfl
@[simp] theorem quiets_zero : quiets 0 = [] := rfl
@[simp] theorem quiets_length (n : Nat) : (quiets n).length = n := List.length_replicate
theorem quiets_add (m n : Nat) : quiets (m + n) = quiets m ++ quiets n :=
  (List.replicate_append_replicate).symm

@[simp] theorem quiet_hclk : Pins.quiet.hclk = .rel := rfl
@[simp] theorem quiet_hdat : Pins.quiet.hdat = .rel := rfl
@[simp] theorem quiet_bound : Pins.quiet.bound = 0 := rfl
@[simp] theorem quiet_rst : Pins.quiet.rst = false := rfl

@[simp] theorem wireLevel_rel_rel : wireLevel .rel .rel = .high := rfl
@[simp] theorem wireLevel_drvLow (d : Drive) : wireLevel .drvLow d = .low := by cases d <;> rfl
@[simp] theorem wireLevel_host_low (d : Drive) : wireLevel d .drvLow = .low := by cases d <;> rfl

/-! ### Stretches of a run -/

/-- Under the inputs `ps` the operation above depth `d` runs all the way from `s` to `t`. -/
def Runs (d : Nat) (ps : List Pins) (s t : State) : Prop := running d ps s ∧ play ps s = t

theorem Runs.nil (d : Nat) (s : State) : Runs d [] s s := ⟨trivial, rfl⟩

theorem Runs.trans {d : Nat} {ps qs : List Pins} {s t u : State} (h : Runs d ps s t) (k : Runs d qs t u) :
    Runs d (ps ++ qs) s u := by
  obtain ⟨h1, rfl⟩ := h
  exact ⟨(running_append d ps qs s).2 ⟨h1, k.1⟩, by rw [play_append]; exact k.2⟩

/-- One step: the running frame and its callers. -/
theorem Runs.one {d : Nat} (s : State) (c x : Drive) (f : Frame) (fs : List Frame) (ev : List Event) (p q : Pins)
    (r : Ret) (hd : d ≤ fs.length) (hq : q.rst = false) :
    Runs d [q] (s.pt c x (f :: fs) ev p r) (stepFrame f fs (s.pt c x (f :: fs) ev q r)) :=
  ⟨⟨Nat.lt_succ_of_le hd, hq, trivial⟩, rfl⟩

/-- A stretch of a quiet world, put together from two. -/
theorem Runs.quiet {d m n k : Nat} {s t u : State} (h : Runs d (quiets m) s t) (g : Runs d (quiets n) t u)
    (hk : k = m + n) : Runs d (quiets k) s u := by rw [hk, quiets_add]; exact h.trans g

theorem wireLevel_rel_driveOfBit (v : Bool) : wireLevel .rel (driveOfBit v) = levelOfBit v := by cases v <;> rfl

theorem wireLevel_driveOfBit (v : Bool) : wireLevel (driveOfBit v) .rel = levelOfBit v := by cases v <;> rfl

end Sys2Proof.Machine
end

