-- ==== Sys2Proof/Laws/Transmit.lean ====
section
/-!
SUPPORT. `transmit` under a quiet host: what it puts on the wire and where it returns (R121 to R132).
-/

namespace Sys2Proof.Machine

/-- The record of a bit cell of value `v` on an undisturbed wire, newest event first. -/
def cellEvents (tSu : Nat) (v : Bool) : List Event :=
  [.returned (.delay tHalf) .unit, .delayed tHalf,
    .returned (.lineRelease .clk) .unit, .drove .clk .rel .high (levelOfBit v),
    .returned (.delay tHalf) .unit, .delayed tHalf,
    .returned (.assertLow .clk) .unit, .drove .clk .drvLow .low (levelOfBit v),
    .returned (.delay tSu) .unit, .delayed tSu,
    .returned (busDrive .dat (driveOfBit v)) .unit, .drove .dat (driveOfBit v) .high (levelOfBit v)]

/-- The record of a sample, newest event first. -/
def sampleEvents (l : Line) (v : Level) : List Event := [.returned (.lineRead l) (.level v), .sampled l v]

/-- The record of the eleven cells of a frame, newest event first. -/
def frameEvents (tSu : Nat) (b : Byte) : List Event := (frameCells b).reverse.flatMap (cellEvents tSu)

/-- The record of a whole `transmit` that found the bus idle and saw no acknowledgment pulse. -/
def transmitEvents (tSu : Nat) (b : Byte) : List Event :=
  sampleEvents .clk .high ++ (frameEvents tSu b ++ (sampleEvents .dat .high ++ sampleEvents .clk .high))

/-- The locals of `transmit` when its data cells are done. -/
def TxLocals.done (b : Byte) : TxLocals := { b := b, sh := 0, par := parity b, i := 8 }

/-- R72, R124: eight shifts present the bits of `b`, least significant first, and leave `P(b)` and an empty register. -/
theorem cells_of_byte (b : Byte) :
    ∃ v1 v2 v3 v4 v5 v6 v7 : TxLocals,
      let v0 : TxLocals := { b := b, sh := b, par := parStart, i := 0 }
      (v1 = v0.next ∧ v2 = v1.next ∧ v3 = v2.next ∧ v4 = v3.next ∧ v5 = v4.next ∧ v6 = v5.next ∧ v7 = v6.next
        ∧ v7.next = TxLocals.done b)
      ∧ (shiftBit v0.sh = b.getLsbD 0 ∧ shiftBit v1.sh = b.getLsbD 1 ∧ shiftBit v2.sh = b.getLsbD 2
        ∧ shiftBit v3.sh = b.getLsbD 3 ∧ shiftBit v4.sh = b.getLsbD 4 ∧ shiftBit v5.sh = b.getLsbD 5
        ∧ shiftBit v6.sh = b.getLsbD 6 ∧ shiftBit v7.sh = b.getLsbD 7)
      ∧ (v1.i < 7 ∧ v2.i < 7 ∧ v3.i < 7 ∧ v4.i < 7 ∧ v5.i < 7 ∧ v6.i < 7 ∧ ¬ v7.i < 7) := by
  refine ⟨_, _, _, _, _, _, _, ⟨rfl, rfl, rfl, rfl, rfl, rfl, rfl, ?_⟩, ?_, ?_⟩
  · revert b; decide
  · revert b; decide
  · simp [TxLocals.next]

section

variable (s : State) (x : Drive) (fs : List Frame) (ev : List Event) (v : TxLocals) (p : Pins) (r : Ret) {d : Nat}
  (hd : d ≤ fs.length)
include hd

theorem runs_t0 (b : Byte) :
    Runs d (quiets 5) (s.pt .rel .rel (Frame.newTransmit b :: fs) ev p r)
      (s.pt .rel .rel (.transmit { b := b, sh := b, par := parStart, i := 0 } (.bus (.t3 .data)) :: fs)
        (sampleEvents .dat .high ++ (sampleEvents .clk .high ++ ev)) .quiet (.level .high)) :=
  have hl := Nat.lt_succ_of_le hd
  have hm := Nat.lt_succ_of_lt hl
  ⟨⟨hl, rfl, hm, rfl, hl, rfl, hm, rfl, hl, rfl, trivial⟩, rfl⟩

/-- One cell of a frame, whatever cell it is. -/
theorem runs_cell (bit : Bool) (at_ : CellPhase → Frame) (after : Frame)
    (h : ∀ (c : CellPhase) (t : State), stepFrame (at_ c) fs t = t.callFrom (c.primitive t.cfg bit) (at_ c) fs)
    (g : ∀ (c : CellPhase) (k : Config), (at_ c).deliver k .unit = match c.succ with | some q => at_ q | none => after) :
    Runs d (quiets 12) (s.pt .rel x (at_ .data :: fs) ev p r)
      (s.pt .rel (driveOfBit bit) (after :: fs) (cellEvents s.cfg.tSu bit ++ ev) .quiet .unit) := by
  have hl := Nat.lt_succ_of_le hd
  have hm := Nat.lt_succ_of_lt hl
  constructor
  · simp [running, quiets_succ, pt_react, h, g, pt_callFrom, CellPhase.primitive, CyclePhase.primitive, CellPhase.succ,
      CyclePhase.succ, pt_assertLow_clk, pt_lineRelease_clk, pt_busDrive_dat, pt_delay, hl, hm]
  · simp [play, quiets_succ, pt_react, h, g, pt_callFrom, CellPhase.primitive, CyclePhase.primitive, CellPhase.succ,
      CyclePhase.succ, pt_assertLow_clk, pt_lineRelease_clk, pt_busDrive_dat, pt_delay, cellEvents, wireLevel_driveOfBit]

theorem runs_t3 :
    Runs d (quiets 12) (s.pt .rel x (.transmit v (.bus (.t3 .data)) :: fs) ev p r)
      (s.pt .rel .drvLow (.transmit v (.bus (.t4 .data)) :: fs) (cellEvents s.cfg.tSu false ++ ev) .quiet .unit) :=
  runs_cell s x fs ev p r hd false (fun c => .transmit v (.bus (.t3 c))) _ (fun _ _ => rfl) fun _ _ => rfl

theorem runs_t4 :
    Runs d (quiets 12) (s.pt .rel x (.transmit v (.bus (.t4 .data)) :: fs) ev p r)
      (s.pt .rel (driveOfBit (shiftBit v.sh)) (v.afterCell :: fs)
        (cellEvents s.cfg.tSu (shiftBit v.sh) ++ ev) .quiet .unit) :=
  runs_cell s x fs ev p r hd _ (fun c => .transmit v (.bus (.t4 c))) _ (fun _ _ => rfl) fun _ _ => rfl

theorem runs_t5 :
    Runs d (quiets 12) (s.pt .rel x (.transmit v (.bus (.t5 .data)) :: fs) ev p r)
      (s.pt .rel (driveOfBit v.par) (.transmit v (.bus (.t6 .data)) :: fs) (cellEvents s.cfg.tSu v.par ++ ev) .quiet
        .unit) :=
  runs_cell s x fs ev p r hd _ (fun c => .transmit v (.bus (.t5 c))) _ (fun _ _ => rfl) fun _ _ => rfl

theorem runs_t6 :
    Runs d (quiets 12) (s.pt .rel x (.transmit v (.bus (.t6 .data)) :: fs) ev p r)
      (s.pt .rel .rel (.transmit v .t7 :: fs) (cellEvents s.cfg.tSu true ++ ev) .quiet .unit) :=
  runs_cell s x fs ev p r hd true (fun c => .transmit v (.bus (.t6 c))) _ (fun _ _ => rfl) fun _ _ => rfl

theorem runs_t7 :
    Runs d (quiets 4) (s.pt .rel .rel (.transmit v .t7 :: fs) ev p r)
      ((s.returned (.transmit v .t8) (.code .ok) fs).pt .rel .rel (deliverTo s.cfg (.code .ok) fs)
        (.returned (.transmit v .t8) (.code .ok) :: (sampleEvents .clk .high ++ ev)) .quiet (.code .ok)) := by
  have hl := Nat.lt_succ_of_le hd
  have hm := Nat.lt_succ_of_lt hl
  refine ⟨⟨hl, rfl, hl, rfl, hm, rfl, hl, rfl, trivial⟩, ?_⟩
  rw [← pt_returnFrom _ _ _ _ _ _ (.level .high)]
  rfl

end

theorem TxLocals.afterCell_lt {v : TxLocals} (h : v.i < 7) : v.afterCell = .transmit v.next (.bus (.t4 .data)) := by
  simp [TxLocals.afterCell, h]

theorem TxLocals.afterCell_last {v : TxLocals} (h : ¬ v.i < 7) : v.afterCell = .transmit v.next (.bus (.t5 .data)) := by
  simp [TxLocals.afterCell, h]

/-- The eleven cells of a frame and the acknowledgment window, T3 to T8. -/
theorem runs_frame (s : State) (fs : List Frame) (ev : List Event) (p : Pins) (r : Ret) (b : Byte) {d : Nat}
    (hd : d ≤ fs.length) :
    Runs d (quiets 136) (s.pt .rel .rel (.transmit { b := b, sh := b, par := parStart, i := 0 } (.bus (.t3 .data)) :: fs) ev p r)
      ((s.returned (.transmit (TxLocals.done b) .t8) (.code .ok) fs).pt .rel .rel (deliverTo s.cfg (.code .ok) fs)
        (.returned (.transmit (TxLocals.done b) .t8) (.code .ok) :: (sampleEvents .clk .high ++ (frameEvents s.cfg.tSu b ++ ev)))
        .quiet (.code .ok)) := by
  have h := cells_of_byte b
  obtain ⟨v1, v2, v3, v4, v5, v6, v7, ⟨e1, e2, e3, e4, e5, e6, e7, e8⟩, ⟨b0, b1, b2, b3, b4, b5, b6, b7⟩,
    ⟨i1, i2, i3, i4, i5, i6, i7⟩⟩ := h
  have g0 := fun x ev p r => runs_t4 (d := d) s x fs ev { b := b, sh := b, par := parStart, i := 0 } p r hd
  have g1 := fun x ev p r => runs_t4 (d := d) s x fs ev v1 p r hd
  have g2 := fun x ev p r => runs_t4 (d := d) s x fs ev v2 p r hd
  have g3 := fun x ev p r => runs_t4 (d := d) s x fs ev v3 p r hd
  have g4 := fun x ev p r => runs_t4 (d := d) s x fs ev v4 p r hd
  have g5 := fun x ev p r => runs_t4 (d := d) s x fs ev v5 p r hd
  have g6 := fun x ev p r => runs_t4 (d := d) s x fs ev v6 p r hd
  have g7 := fun x ev p r => runs_t4 (d := d) s x fs ev v7 p r hd
  rw [TxLocals.afterCell_lt (Nat.zero_lt_succ 6), b0, ← e1] at g0
  rw [TxLocals.afterCell_lt i1, b1, ← e2] at g1
  rw [TxLocals.afterCell_lt i2, b2, ← e3] at g2
  rw [TxLocals.afterCell_lt i3, b3, ← e4] at g3
  rw [TxLocals.afterCell_lt i4, b4, ← e5] at g4
  rw [TxLocals.afterCell_lt i5, b5, ← e6] at g5
  rw [TxLocals.afterCell_lt i6, b6, ← e7] at g6
  rw [TxLocals.afterCell_last i7, b7, e8] at g7
  have key := ((((((((((((runs_t3 s .rel fs ev _ p r hd).trans (g0 _ _ _ _)).trans (g1 _ _ _ _)).trans (g2 _ _ _ _)).trans
    (g3 _ _ _ _)).trans (g4 _ _ _ _)).trans (g5 _ _ _ _)).trans (g6 _ _ _ _)).trans (g7 _ _ _ _)).trans
    (runs_t5 s _ fs _ _ _ _ hd)).trans (runs_t6 s _ fs _ _ _ _ hd)).trans (runs_t7 s fs _ _ _ _ hd))
  simpa [quiets, frameEvents, frameCells, TxLocals.done] using key

/-- R121 to R128: `transmit` on an idle bus with a quiet host. -/
theorem runs_transmit (s : State) (fs : List Frame) (ev : List Event) (p : Pins) (r : Ret) (b : Byte) {d : Nat}
    (hd : d ≤ fs.length) :
    Runs d (quiets 141) (s.pt .rel .rel (Frame.newTransmit b :: fs) ev p r)
      ((s.returned (.transmit (TxLocals.done b) .t8) (.code .ok) fs).pt .rel .rel (deliverTo s.cfg (.code .ok) fs)
        (.returned (.transmit (TxLocals.done b) .t8) (.code .ok) :: (transmitEvents s.cfg.tSu b ++ ev)) .quiet (.code .ok)) := by
  have := (runs_t0 s fs ev p r hd b).quiet (runs_frame s fs _ _ _ b hd) rfl
  simpa [transmitEvents] using this

end Sys2Proof.Machine
end

