-- ==== Sys2Proof/Laws/Quiet.lean ====
section
/-!
SUPPORT. Every operation under a quiet host: how many events it takes, what it sends and what it leaves, composed from
its callees (one lemma per shape of step: return, goto, call).
-/

namespace Sys2Proof.Machine

/-! ### What a record shows -/

/-- The bytes sent in a record. -/
def sentOf (ev : List Event) : List Byte := (ev.filterMap Event.sentByte).reverse
/-- The data levels at the falling edges in a record. -/
def edgesOf (ev : List Event) : List Level := (ev.filterMap Event.edge).reverse
/-- The bytes logged in a record. -/
def loggedOf (ev : List Event) : List Byte := (ev.filterMap Event.loggedByte).reverse

theorem sentOf_append (a b : List Event) : sentOf (a ++ b) = sentOf b ++ sentOf a := by simp [sentOf]
theorem edgesOf_append (a b : List Event) : edgesOf (a ++ b) = edgesOf b ++ edgesOf a := by simp [edgesOf]
theorem loggedOf_append (a b : List Event) : loggedOf (a ++ b) = loggedOf b ++ loggedOf a := by simp [loggedOf]

/-- A record that shows exactly the frames of `bytes` and the logs `logs`. -/
structure Shows (ev : List Event) (bytes logs : List Byte) : Prop where
  sent : sentOf ev = bytes
  edges : edgesOf ev = (bytes.flatMap frameCells).map levelOfBit
  logged : loggedOf ev = logs

theorem Shows.append {a b : List Event} {x y l m : List Byte} (h : Shows a x l) (g : Shows b y m) :
    Shows (b ++ a) (x ++ y) (l ++ m) where
  sent := by rw [sentOf_append, h.sent, g.sent]
  edges := by rw [edgesOf_append, h.edges, g.edges]; simp
  logged := by rw [loggedOf_append, h.logged, g.logged]

theorem shows_nil : Shows [] [] [] := ⟨rfl, rfl, rfl⟩
theorem shows_sampled (l : Line) (v : Level) : Shows [.sampled l v] [] [] := ⟨rfl, rfl, rfl⟩
theorem shows_delayed (t : Nat) : Shows [.delayed t] [] [] := ⟨rfl, rfl, rfl⟩
theorem shows_log (b : Byte) : Shows [.logUnknown b] [] [b] := ⟨rfl, rfl, rfl⟩

theorem shows_returned (f : Frame) (r : Ret) (h : ∀ v l, f ≠ .transmit v l) : Shows [.returned f r] [] [] := by
  cases f <;> first | exact ⟨rfl, rfl, rfl⟩ | exact absurd rfl (h _ _)

theorem cell_records (tSu : Nat) (v : Bool) :
    (cellEvents tSu v).filterMap Event.sentByte = [] ∧ (cellEvents tSu v).filterMap Event.edge = [levelOfBit v]
      ∧ (cellEvents tSu v).filterMap Event.loggedByte = [] := by cases v <;> exact ⟨rfl, rfl, rfl⟩

theorem cells_records (tSu : Nat) (vs : List Bool) :
    (vs.flatMap (cellEvents tSu)).filterMap Event.sentByte = []
      ∧ (vs.flatMap (cellEvents tSu)).filterMap Event.edge = vs.map levelOfBit
      ∧ (vs.flatMap (cellEvents tSu)).filterMap Event.loggedByte = [] := by
  induction vs with
  | nil => exact ⟨rfl, rfl, rfl⟩
  | cons v vs ih =>
    obtain ⟨h1, h2, h3⟩ := ih
    obtain ⟨c1, c2, c3⟩ := cell_records tSu v
    simp only [List.flatMap_cons, List.filterMap_append, h1, h2, h3, c1, c2, c3, List.map_cons, List.append_nil,
      List.singleton_append, and_self]

/-- R132: the falling edges of a `transmit` show the eleven bits of its byte. -/
theorem shows_transmit (tSu : Nat) (b : Byte) (v : TxLocals) (hv : v.b = b) :
    Shows (.returned (.transmit v .t8) (.code .ok) :: transmitEvents tSu b) [b] [] := by
  obtain ⟨h1, h2, h3⟩ := cells_records tSu (frameCells b).reverse
  have e : (.returned (.transmit v .t8) (.code .ok) :: transmitEvents tSu b : List Event)
      = (.returned (.transmit v .t8) (.code .ok) :: sampleEvents .clk .high)
        ++ (frameEvents tSu b ++ (sampleEvents .dat .high ++ sampleEvents .clk .high)) := rfl
  subst hv
  rw [e]
  constructor
  · rw [sentOf_append, sentOf_append, sentOf, sentOf, sentOf, frameEvents, h1]; rfl
  · have a : edgesOf (.returned (.transmit v .t8) (.code .ok) :: sampleEvents .clk .high) = [] := rfl
    have c : edgesOf (sampleEvents .dat .high ++ sampleEvents .clk .high) = [] := rfl
    rw [edgesOf_append, edgesOf_append, a, c, edgesOf, frameEvents, h2]; simp
  · rw [loggedOf_append, loggedOf_append, loggedOf, loggedOf, loggedOf, frameEvents, h3]; rfl

/-! ### Completion of an operation -/

/-- The registry and the flag replaced. -/
def State.upd (u : State) (sl : Registry) (en : Bool) : State := { u with slots := sl, enabled := en }

@[simp] theorem upd_cfg (u : State) (sl : Registry) (en : Bool) : (u.upd sl en).cfg = u.cfg := rfl
@[simp] theorem upd_slots (u : State) (sl : Registry) (en : Bool) : (u.upd sl en).slots = sl := rfl
@[simp] theorem upd_enabled (u : State) (sl : Registry) (en : Bool) : (u.upd sl en).enabled = en := rfl
@[simp] theorem upd_self (u : State) : u.upd u.slots u.enabled = u := rfl

/-- In a quiet world the operation `f` returns `r` after `n` events, having sent `bytes` and logged `logs`, with the
registry `sl` and the flag `en`. -/
def Completes (u : State) (f : Frame) (n : Nat) (r : Ret) (sl : Registry) (en : Bool) (bytes logs : List Byte) :
    Prop :=
  ∀ (d : Nat) (fs : List Frame) (ev : List Event) (p : Pins) (x : Ret), d ≤ fs.length →
    ∃ (g : Frame) (ev' : List Event), g.external = f.external ∧ Shows ev' bytes logs ∧
      Runs d (quiets n) (u.pt .rel .rel (f :: fs) ev p x)
        (((u.upd sl en).returned g r fs).pt .rel .rel (deliverTo u.cfg r fs) (ev' ++ ev) .quiet r)

/-- A step that returns. -/
theorem completes_return (u : State) (f : Frame) (r : Ret) (e : List Event) (he : Shows e [] [])
    (hf : ∀ v l, f ≠ .transmit v l)
    (h : ∀ fs ev x, stepFrame f fs (u.pt .rel .rel (f :: fs) ev .quiet x)
      = (u.pt .rel .rel (f :: fs) (e ++ ev) .quiet x).returnFrom f r fs) :
    Completes u f 1 r u.slots u.enabled [] [] := fun d fs ev p x hd =>
  ⟨f, .returned f r :: e, rfl, he.append (shows_returned f r hf), by
    rw [upd_self]
    have := Runs.one (d := d) u .rel .rel f fs ev p .quiet x hd rfl
    rw [h, pt_returnFrom] at this
    exact this⟩

/-- A step that goes on in the same operation. -/
theorem completes_goto {u u1 : State} {f f1 : Frame} {n : Nat} {r : Ret} {sl : Registry} {en : Bool}
    {bytes logs x l : List Byte} (e : List Event) (he : Shows e x l) (hext : f1.external = f.external)
    (hu : u1.cfg = u.cfg) (hsame : u1.upd sl en = u.upd sl en)
    (h : ∀ fs ev x, stepFrame f fs (u.pt .rel .rel (f :: fs) ev .quiet x) = u1.pt .rel .rel (f1 :: fs) (e ++ ev) .quiet x)
    (hc : Completes u1 f1 n r sl en bytes logs) :
    Completes u f (1 + n) r sl en (x ++ bytes) (l ++ logs) := fun d fs ev p x hd => by
  obtain ⟨g, ev', hg, hs, hr⟩ := hc d fs (e ++ ev) .quiet x hd
  refine ⟨g, ev' ++ e, hg.trans hext, he.append hs, ?_⟩
  have one : Runs d (quiets 1) _ _ := Runs.one (d := d) u .rel .rel f fs ev p .quiet x hd rfl
  rw [h] at one
  rw [← hsame, ← hu, List.append_assoc]
  exact one.quiet hr rfl

theorem returned_returned (u : State) (sl sl1 : Registry) (en en1 : Bool) (g h k : Frame) (r r1 : Ret)
    (fs gs : List Frame) :
    (((u.upd sl1 en1).returned h r1 (k :: gs)).upd sl en).returned g r fs = (u.upd sl en).returned g r fs := by
  cases fs <;> rfl

/-- A step that calls `f1`, and what follows its return. -/
theorem completes_call {u : State} {f f1 f2 : Frame} {n m : Nat} {r r1 : Ret} {sl sl1 : Registry} {en en1 : Bool}
    {bytes logs bytes1 logs1 : List Byte} (e : List Event) (he : Shows e [] [])
    (hext : (f2.deliver u.cfg r1).external = f.external)
    (h : ∀ fs ev x, stepFrame f fs (u.pt .rel .rel (f :: fs) ev .quiet x)
      = u.pt .rel .rel (f1 :: f2 :: fs) (e ++ ev) .quiet x)
    (h1 : Completes u f1 n r1 sl1 en1 bytes1 logs1)
    (h2 : ∀ u1 : State, u1.cfg = u.cfg → u1.slots = sl1 → u1.enabled = en1 →
      Completes u1 (f2.deliver u.cfg r1) m r sl en bytes logs) :
    Completes u f (1 + (n + m)) r sl en (bytes1 ++ bytes) (logs1 ++ logs) := fun d fs ev p x hd => by
  obtain ⟨g1, ev1, _, hs1, hr1⟩ := h1 d (f2 :: fs) (e ++ ev) .quiet x (Nat.le_succ_of_le hd)
  obtain ⟨g2, ev2, hg2, hs2, hr2⟩ := h2 ((u.upd sl1 en1).returned g1 r1 (f2 :: fs)) rfl rfl rfl d fs
    (ev1 ++ (e ++ ev)) .quiet r1 hd
  refine ⟨g2, ev2 ++ ev1 ++ e, hg2.trans hext, ?_, ?_⟩
  · simpa using he.append (hs1.append hs2)
  · have one : Runs d (quiets 1) _ _ := Runs.one (d := d) u .rel .rel f fs ev p .quiet x hd rfl
    rw [h] at one
    rw [returned_returned, returned_cfg, upd_cfg] at hr2
    simpa only [List.append_assoc] using one.quiet (hr1.quiet hr2 rfl) rfl

/-! ### The operations -/

theorem completes_transmit (u : State) (b : Byte) :
    Completes u (Frame.newTransmit b) 141 (.code .ok) u.slots u.enabled [b] [] := fun d fs ev p x hd =>
  ⟨_, _, rfl, shows_transmit u.cfg.tSu b (TxLocals.done b) rfl, runs_transmit u fs ev p x b hd⟩

theorem completes_lineRead (u : State) (l : Line) :
    Completes u (.lineRead l) 1 (.level .high) u.slots u.enabled [] [] :=
  completes_return u _ _ [.sampled l .high] (shows_sampled _ _) (by intro v l h; cases h) fun _ _ _ => by cases l <;> rfl

/-- A bus event of a quiet world that samples a line: the line is high. -/
theorem completes_sample {u : State} {f : Frame} {m : Nat} {r : Ret} {bytes logs : List Byte} (l : Line)
    (hext : (f.deliver u.cfg (.level .high)).external = f.external)
    (h : ∀ fs ev x, stepFrame f fs (u.pt .rel .rel (f :: fs) ev .quiet x)
      = u.pt .rel .rel (.lineRead l :: f :: fs) ([] ++ ev) .quiet x)
    (h2 : ∀ u1 : State, u1.cfg = u.cfg →
      Completes u1 (f.deliver u.cfg (.level .high)) m r u1.slots u1.enabled bytes logs) :
    Completes u f (1 + (1 + m)) r u.slots u.enabled ([] ++ bytes) ([] ++ logs) :=
  completes_call [] shows_nil hext h (completes_lineRead u l) fun u1 h1 h3 h4 => h3 ▸ h4 ▸ h2 u1 h1

theorem completes_receive (u : State) :
    Completes u Frame.newReceive 4 (.code .timeout) u.slots u.enabled [] [] :=
  completes_goto (u1 := u) (f := Frame.newReceive) (f1 := .receive ⟨0, false, 0⟩ (.bus (.rx0 0))) [] shows_nil rfl rfl rfl
    (fun _ _ _ => rfl)
    (completes_sample .dat rfl (fun _ _ _ => rfl) fun u1 _ =>
      completes_return u1 _ _ [] shows_nil (by intro v l h; cases h) fun _ _ _ => rfl)

theorem completes_poll (u : State) : Completes u Frame.newPoll 5 (.bit false) u.slots u.enabled [] [] :=
  completes_sample (f := .poll (.bus .p0)) .clk rfl (fun _ _ _ => rfl) fun u1 _ =>
    completes_sample (f := .poll (.bus .p1)) .dat rfl (fun _ _ _ => rfl) fun u2 _ =>
      completes_return u2 _ _ [] shows_nil (by intro v l h; cases h) fun _ _ _ => rfl

theorem completes_retry_end (u : State) (b : Byte) :
    Completes u (.sendUntilOk b .s2) 1 .unit u.slots u.enabled [] [] :=
  completes_return u _ _ [] shows_nil (by intro v l h; cases h) fun _ _ _ => rfl

theorem completes_sendUntilOk (u : State) (b : Byte) :
    Completes u (.sendUntilOk b .s0) 143 .unit u.slots u.enabled [b] [] :=
  completes_call (f := .sendUntilOk b .s0) (f2 := .sendUntilOk b .s0) [] shows_nil rfl (fun _ _ _ => rfl) (completes_transmit u b)
    fun u1 _ h2 h3 => h2 ▸ h3 ▸ completes_retry_end u1 b

theorem completes_ack_end (u : State) : Completes u (.ack .s2) 1 .unit u.slots u.enabled [] [] :=
  completes_return u _ _ [] shows_nil (by intro v l h; cases h) fun _ _ _ => rfl

theorem completes_ack (u : State) : Completes u (.ack .s0) 143 .unit u.slots u.enabled [u.cfg.ackByte] [] :=
  completes_call (f := .ack .s0) (f2 := .ack .s0) [] shows_nil rfl (fun _ _ _ => rfl) (completes_transmit u _)
    fun u1 _ h2 h3 => h2 ▸ h3 ▸ completes_ack_end u1

/-! ### `handle_command` -/

/-- The events a command's body takes. -/
def ticksOf (c : Config) : List HandlerAction → Nat
  | [] => 1
  | .ack :: rest => 1 + (143 + ticksOf c rest)
  | .send _ :: rest => 1 + (141 + ticksOf c rest)
  | .receiveParam :: rest => 1 + (4 + if c.ack2OnTimeout then ticksOf c rest else 1)
  | .setEnabled _ :: rest => 1 + ticksOf c rest
  | .logUnknown :: rest => 1 + ticksOf c rest

/-- The bytes a command's body sends, a parameter timing out. -/
def bytesOf (c : Config) : List HandlerAction → List Byte
  | [] => []
  | .ack :: rest => [c.ackByte] ++ bytesOf c rest
  | .send b :: rest => [b] ++ bytesOf c rest
  | .receiveParam :: rest => [] ++ if c.ack2OnTimeout then bytesOf c rest else []
  | .setEnabled _ :: rest => [] ++ bytesOf c rest
  | .logUnknown :: rest => [] ++ bytesOf c rest

/-- The flag after a command's body. -/
def flagOf (c : Config) (e : Bool) : List HandlerAction → Bool
  | [] => e
  | .ack :: rest => flagOf c e rest
  | .send _ :: rest => flagOf c e rest
  | .receiveParam :: rest => if c.ack2OnTimeout then flagOf c e rest else e
  | .setEnabled v :: rest => flagOf c v rest
  | .logUnknown :: rest => flagOf c e rest

/-- What a command's body logs. -/
def logOf (c : Config) (cmd : Byte) : List HandlerAction → List Byte
  | [] => []
  | .ack :: rest => [] ++ logOf c cmd rest
  | .send _ :: rest => [] ++ logOf c cmd rest
  | .receiveParam :: rest => [] ++ if c.ack2OnTimeout then logOf c cmd rest else []
  | .setEnabled _ :: rest => [] ++ logOf c cmd rest
  | .logUnknown :: rest => [cmd] ++ logOf c cmd rest

theorem completes_body_nil (u : State) (cmd : Byte) :
    Completes u (.handleCommand cmd (.body [])) 1 .unit u.slots u.enabled [] [] :=
  completes_return u _ _ [] shows_nil (by intro v l h; cases h) fun _ _ _ => rfl

/-- One spec lemma of a command's body. -/
theorem completes_body (cmd : Byte) (acts : List HandlerAction) (u : State) :
    Completes u (.handleCommand cmd (.body acts)) (ticksOf u.cfg acts) .unit u.slots (flagOf u.cfg u.enabled acts)
      (bytesOf u.cfg acts) (logOf u.cfg cmd acts) := by
  induction acts generalizing u with
  | nil => exact completes_body_nil u cmd
  | cons a rest ih =>
    cases a with
    | ack =>
      exact completes_call (f2 := .handleCommand cmd (.body (.ack :: rest))) [] shows_nil rfl (fun _ _ _ => rfl)
        (completes_ack u) fun u1 h1 h2 h3 => h1 ▸ h2 ▸ h3 ▸ ih u1
    | send b =>
      exact completes_call (f2 := .handleCommand cmd (.body (.send b :: rest))) [] shows_nil rfl (fun _ _ _ => rfl)
        (completes_transmit u b) fun u1 h1 h2 h3 => h1 ▸ h2 ▸ h3 ▸ ih u1
    | receiveParam =>
      refine completes_call (f2 := .handleCommand cmd (.body (.receiveParam :: rest))) [] shows_nil rfl
        (fun _ _ _ => rfl) (completes_receive u) fun u1 h1 h2 h3 => ?_
      simp only [Frame.deliver, deliverBody]
      cases hb : u.cfg.ack2OnTimeout
      · simpa [hb, flagOf, ← h2, ← h3] using completes_body_nil u1 cmd
      · have := ih u1
        simp only [h1, h2, h3] at this
        simpa [hb, flagOf, h1] using this
    | setEnabled v =>
      exact completes_goto (u1 := { u with enabled := v }) (f1 := .handleCommand cmd (.body rest)) [] shows_nil rfl rfl
        rfl (fun _ _ _ => rfl) (ih _)
    | logUnknown =>
      exact completes_goto (u1 := u) (f1 := .handleCommand cmd (.body rest)) [.logUnknown cmd] (shows_log cmd) rfl rfl
        rfl (fun _ _ _ => rfl) (ih _)

theorem completes_handle (cmd : Byte) (u : State) :
    Completes u (.handleCommand cmd .h0) (1 + ticksOf u.cfg (handlerBody u.cfg cmd)) .unit u.slots
      (flagOf u.cfg u.enabled (handlerBody u.cfg cmd)) (bytesOf u.cfg (handlerBody u.cfg cmd))
      (logOf u.cfg cmd (handlerBody u.cfg cmd)) :=
  completes_goto (u1 := u) (f1 := .handleCommand cmd (.body (handlerBody u.cfg cmd))) [] shows_nil rfl rfl rfl
    (fun _ _ _ => rfl) (completes_body cmd _ u)

end Sys2Proof.Machine
end

