-- ==== Sys2Proof/Laws/QuietKeys.lean ====
section
/-!
SUPPORT. The retry loop, `press`, `release` and `releaseAll` under a quiet host, and the run of a called operation in a
state whose next inputs are quiet.
-/

namespace Sys2Proof.Machine

/-! ### The retry loop (R190): one pass -/

section Loop

variable {seq : List Byte} {at_ : LoopLabel → Frame} {exit : LoopLabel → State → List Frame → State}
  (hstep : ∀ l fs s, stepFrame (at_ l) fs s = s.loopStep seq l at_ (exit l s fs) fs)
  (hdel : ∀ c r l, (at_ l).deliver c r = at_ (l.deliver r))
  (hext : ∀ l l', (at_ l).external = (at_ l').external)
include hstep hdel hext

theorem completes_loop_from {m : Nat} {r : Ret} {sl : Registry} {en : Bool} {bytes : List Byte} (c : Config)
    (sl0 : Registry) (en0 : Bool)
    (hexit : ∀ (j : Nat) (u1 : State), seq.length ≤ j → u1.cfg = c → u1.slots = sl0 → u1.enabled = en0 →
      Completes u1 (at_ (.l2 j)) m r sl en bytes [])
    (n : Nat) : ∀ (j : Nat) (u : State), seq.length - j = n → u.cfg = c → u.slots = sl0 → u.enabled = en0 →
      Completes u (at_ (.l2 j)) (144 * n + m) r sl en (seq.drop j ++ bytes) [] := by
  induction n with
  | zero =>
    intro j u hj h1 h2 h3
    rw [List.drop_of_length_le (by omega)]
    simpa using hexit j u (by omega) h1 h2 h3
  | succ n ih =>
    intro j u hj h1 h2 h3
    have hlt : j < seq.length := by omega
    have send : Completes u (at_ (.l3Send j)) (1 + (141 + (144 * n + m))) r sl en
        ([seq.getD j 0] ++ (seq.drop (j + 1) ++ bytes)) ([] ++ []) :=
      completes_call (f2 := at_ (.l3Send j)) [] shows_nil (by rw [hdel]; exact hext _ _)
        (fun fs ev x => by rw [hstep]; rfl) (completes_transmit u _)
        fun u1 g1 g2 g3 => by
          rw [hdel]
          exact ih (j + 1) u1 (by omega) (g1.trans h1) (g2.trans h2) (g3.trans h3)
    have gap : Completes u (at_ (.l3 j)) (1 + (1 + (141 + (144 * n + m)))) r sl en
        ([] ++ ([seq.getD j 0] ++ (seq.drop (j + 1) ++ bytes))) ([] ++ ([] ++ [])) :=
      completes_goto (u1 := u) (f1 := at_ (.l3Send j)) [.delayed u.cfg.tGap] (shows_delayed _) (hext _ _) rfl rfl
        (fun fs ev x => by rw [hstep]; rfl) send
    have test : Completes u (at_ (.l2 j)) (1 + (1 + (1 + (141 + (144 * n + m))))) r sl en
        ([] ++ ([] ++ ([seq.getD j 0] ++ (seq.drop (j + 1) ++ bytes)))) ([] ++ ([] ++ ([] ++ []))) :=
      completes_goto (u1 := u) (f1 := at_ (.l3 j)) [] shows_nil (hext _ _) rfl rfl
        (fun fs ev x => by rw [hstep]; simp [State.loopStep, Nat.not_le.2 hlt, pt_goto]) gap
    have e : seq.drop j = seq.getD j 0 :: seq.drop (j + 1) := by
      rw [List.drop_eq_getElem_cons hlt, List.getD_eq_getElem _ _ hlt]
    rw [e]
    have hn : 144 * (n + 1) + m = 1 + (1 + (1 + (141 + (144 * n + m)))) := by omega
    rw [hn]
    exact test

theorem completes_loop {m : Nat} {r : Ret} {sl : Registry} {en : Bool} (u : State)
    (hexit : ∀ (j : Nat) (u1 : State), seq.length ≤ j → u1.cfg = u.cfg → u1.slots = u.slots → u1.enabled = u.enabled →
      Completes u1 (at_ (.l2 j)) m r sl en [] []) :
    Completes u (at_ .l0) (7 + 144 * seq.length + m) r sl en seq [] := by
  have pass : ∀ u1 : State, u1.cfg = u.cfg → u1.slots = u.slots → u1.enabled = u.enabled →
      Completes u1 (at_ .l1) (1 + (144 * seq.length + m)) r sl en ([] ++ (seq.drop 0 ++ [])) ([] ++ []) :=
    fun u1 h1 h2 h3 =>
      completes_goto (u1 := u1) (f1 := at_ (.l2 0)) [] shows_nil (hext _ _) rfl rfl
        (fun fs ev x => by rw [hstep]; rfl)
        (completes_loop_from hstep hdel hext u.cfg u.slots u.enabled hexit seq.length 0 u1 rfl h1 h2 h3)
  have := completes_call (u := u) (f := at_ .l0) (f2 := at_ .l0) [] shows_nil (by rw [hdel]; exact hext _ _)
    (fun fs ev x => by rw [hstep]; rfl) (completes_poll u)
    (fun u1 h1 h2 h3 => by rw [hdel]; exact pass u1 h1 h2 h3)
  have hn : 7 + 144 * seq.length + m = 1 + (5 + (1 + (144 * seq.length + m))) := by omega
  rw [hn]
  simpa using this

end Loop

theorem completes_sendSequence (u : State) (seq : List Byte) :
    Completes u (.sendSequence seq .l0) (7 + 144 * seq.length + 1) .unit u.slots u.enabled seq [] :=
  completes_loop (at_ := fun l => .sendSequence seq l)
    (exit := fun l s fs => s.returnFrom (.sendSequence seq l) .unit fs) (fun _ _ _ => rfl) (fun _ _ _ => rfl)
    (fun _ _ => rfl) u fun j u1 hj h1 h2 h3 => h2 ▸ h3 ▸
      completes_return u1 _ _ [] shows_nil (by intro v l h; cases h) fun fs ev x => by
        simp [stepFrame, stepSendSequence, State.loopStep, hj]

/-! ### `press` (R194) -/

theorem completes_press_noop (u : State) (k : Keycode)
    (h : k = u.cfg.keyNone ∨ u.slots.find k ≠ none ∨ u.slots.free u.cfg = none) :
    Completes u (Frame.newPress u.cfg k) 1 (.bit false) u.slots u.enabled [] [] :=
  completes_return u _ _ [] shows_nil (by intro v l h; cases h) fun fs ev x => by
    by_cases hk : k = u.cfg.keyNone
    · simp [Frame.newPress, stepFrame, stepPress, hk]
    · have : pressCheck u.cfg u.slots k ≠ none := by
        unfold pressCheck
        rcases h with h | h | h
        · exact absurd h hk
        · simp [h]
        · by_cases h' : u.slots.find k = none <;> simp [h, h']
      obtain ⟨x, hx⟩ := Option.ne_none_iff_exists'.1 this
      simp [Frame.newPress, stepFrame, stepPress, hk, hx]

theorem completes_press (u : State) (k : Keycode) (i : Nat) (hk : k ≠ u.cfg.keyNone) (hf : u.slots.find k = none)
    (hi : u.slots.free u.cfg = some i) :
    Completes u (Frame.newPress u.cfg k) (1 + (7 + 144 * (seqOf u.cfg k .press).length + 3)) (.bit true)
      (u.slots.set i k) u.enabled (seqOf u.cfg k .press) [] := by
  have hc : pressCheck u.cfg u.slots k = none := by simp [pressCheck, hf, hi]
  have done : ∀ u1 : State, Completes u1 (.press k (seqOf u.cfg k .press) .finish) 1 (.bit true) u1.slots u1.enabled
      [] [] := fun u1 => completes_return u1 _ _ [] shows_nil (by intro v l h; cases h) fun _ _ _ => rfl
  have write : ∀ u1 : State, u1.cfg = u.cfg → u1.slots = u.slots → u1.enabled = u.enabled →
      Completes u1 (.press k (seqOf u.cfg k .press) .write) 2 (.bit true) (u.slots.set i k) u.enabled [] [] :=
    fun u1 h1 h2 h3 => by
      have hr : u1.record k = { u1 with slots := u.slots.set i k } := by simp [State.record, h1, h2, hi]
      have := completes_goto (f := .press k (seqOf u.cfg k .press) .write) (u := u1) (u1 := u1.record k)
        (f1 := .press k (seqOf u.cfg k .press) .finish) [] shows_nil rfl (by rw [hr]) (by rw [hr]; rfl)
        (fun fs ev x => by simp [stepFrame, stepPress, pt_record, pt_goto]) (done (u1.record k))
      rw [hr] at this
      simpa [h3] using this
  have loop := completes_loop (seq := seqOf u.cfg k .press) (at_ := fun l => .press k (seqOf u.cfg k .press) (.loop l))
    (exit := fun _ s fs => s.goto (.press k (seqOf u.cfg k .press) .write) fs) (fun _ _ _ => rfl) (fun _ _ _ => rfl)
    (fun _ _ => rfl) u (m := 3) (r := .bit true) (sl := u.slots.set i k) (en := u.enabled)
    fun j u1 hj h1 h2 h3 =>
      completes_goto (u := u1) (u1 := u1) (f := .press k (seqOf u.cfg k .press) (.loop (.l2 j)))
        (f1 := .press k (seqOf u.cfg k .press) .write) [] shows_nil rfl rfl rfl
        (fun fs ev x => by simp [stepFrame, stepPress, State.loopStep, hj, pt_goto]) (write u1 h1 h2 h3)
  exact completes_goto (f1 := .press k (seqOf u.cfg k .press) (.loop .l0)) [] shows_nil rfl rfl rfl
    (fun fs ev x => by simp [Frame.newPress, stepFrame, stepPress, hk, hc, pt_goto]) loop

/-! ### `release` (R199) -/

theorem completes_release_noop (u : State) (k : Keycode) (h : k = u.cfg.keyNone ∨ u.slots.find k = none) :
    Completes u (Frame.newRelease u.cfg k) 1 (.bit false) u.slots u.enabled [] [] :=
  completes_return u _ _ [] shows_nil (by intro v l h; cases h) fun fs ev x => by
    have : releaseCheck u.cfg u.slots k ≠ none := by
      unfold releaseCheck
      by_cases h' : k = u.cfg.keyNone
      · simp [h']
      · simp [h', h.resolve_left h']
    obtain ⟨x, hx⟩ := Option.ne_none_iff_exists'.1 this
    simp [Frame.newRelease, stepFrame, stepRelease, hx]

theorem completes_release (u : State) (k : Keycode) (i : Nat) (hk : k ≠ u.cfg.keyNone)
    (hi : u.slots.find k = some i) :
    Completes u (Frame.newRelease u.cfg k) (1 + (7 + 144 * (seqOf u.cfg k .release).length + 3)) (.bit true)
      (u.slots.set i u.cfg.keyNone) u.enabled (seqOf u.cfg k .release) [] := by
  have hc : releaseCheck u.cfg u.slots k = none := by simp [releaseCheck, hk, hi]
  have done : ∀ u1 : State, Completes u1 (.release k (seqOf u.cfg k .release) .finish) 1 (.bit true) u1.slots u1.enabled
      [] [] := fun u1 => completes_return u1 _ _ [] shows_nil (by intro v l h; cases h) fun _ _ _ => rfl
  have write : ∀ u1 : State, u1.cfg = u.cfg → u1.slots = u.slots → u1.enabled = u.enabled →
      Completes u1 (.release k (seqOf u.cfg k .release) .write) 2 (.bit true) (u.slots.set i u.cfg.keyNone) u.enabled
        [] [] :=
    fun u1 h1 h2 h3 => by
      have hr : u1.clear k = { u1 with slots := u.slots.set i u.cfg.keyNone } := by simp [State.clear, h1, h2, hi]
      have := completes_goto (f := .release k (seqOf u.cfg k .release) .write) (u := u1) (u1 := u1.clear k)
        (f1 := .release k (seqOf u.cfg k .release) .finish) [] shows_nil rfl (by rw [hr]) (by rw [hr]; rfl)
        (fun fs ev x => by simp [stepFrame, stepRelease, pt_clear, pt_goto]) (done (u1.clear k))
      rw [hr] at this
      simpa [h3] using this
  have loop := completes_loop (seq := seqOf u.cfg k .release)
    (at_ := fun l => .release k (seqOf u.cfg k .release) (.loop l))
    (exit := fun _ s fs => s.goto (.release k (seqOf u.cfg k .release) .write) fs) (fun _ _ _ => rfl)
    (fun _ _ _ => rfl) (fun _ _ => rfl) u (m := 3) (r := .bit true) (sl := u.slots.set i u.cfg.keyNone)
    (en := u.enabled)
    fun j u1 hj h1 h2 h3 =>
      completes_goto (u := u1) (u1 := u1) (f := .release k (seqOf u.cfg k .release) (.loop (.l2 j)))
        (f1 := .release k (seqOf u.cfg k .release) .write) [] shows_nil rfl rfl rfl
        (fun fs ev x => by simp [stepFrame, stepRelease, State.loopStep, hj, pt_goto]) (write u1 h1 h2 h3)
  exact completes_goto (f1 := .release k (seqOf u.cfg k .release) (.loop .l0)) [] shows_nil rfl rfl rfl
    (fun fs ev x => by simp [Frame.newRelease, stepFrame, stepRelease, hc, pt_goto]) loop

/-! ### `releaseAll` (R203) -/

/-- The bytes of the release sequences of the keys in a list, in list order, the sentinel standing for no key. -/
def releaseBytes (c : Config) (ks : List Keycode) : List Byte :=
  (ks.filter (fun k => k ≠ c.keyNone)).flatMap (fun k => seqOf c k .release)

theorem seqOf_release_length (c : Config) (k : Keycode) : (seqOf c k .release).length ≤ 6 := by
  unfold seqOf
  cases classify c k <;> simp [seqPrtscReleaseBytes, seqPauseReleaseBytes]

/-- Slots 0 to `n - 1`, the highest first. -/
def Registry.downFrom (r : Registry) : Nat → List Keycode
  | 0 => []
  | n + 1 => r.get n :: r.downFrom n

/-- The registry with slots 0 to `n - 1` emptied. -/
def Registry.emptied (r : Registry) (c : Config) : Nat → Registry
  | 0 => r
  | n + 1 => (r.set n c.keyNone).emptied c n

/-- The events `releaseAll` takes. -/
def releaseTicks (c : Config) : List Keycode → Nat
  | [] => 1
  | k :: ks =>
    if k = c.keyNone then 1 + releaseTicks c ks
    else 1 + ((1 + (7 + 144 * (seqOf c k .release).length + 3)) + releaseTicks c ks)

theorem releaseTicks_le (c : Config) (ks : List Keycode) : releaseTicks c ks ≤ 1 + 876 * ks.length := by
  induction ks with
  | nil => simp [releaseTicks]
  | cons k ks ih =>
    have := seqOf_release_length c k
    simp only [releaseTicks, List.length_cons]
    split <;> omega

theorem downFrom_length (r : Registry) (n : Nat) : (r.downFrom n).length = n := by
  induction n with
  | zero => rfl
  | succ n ih => simp [Registry.downFrom, ih]

theorem downFrom_set (r : Registry) {i : Nat} (hi : i < 6) (k : Keycode) (n : Nat) (hn : n ≤ i) :
    (r.set i k).downFrom n = r.downFrom n := by
  induction n with
  | zero => rfl
  | succ n ih =>
    have : n ≠ i := by omega
    simp [Registry.downFrom, Registry.get_set r hi (show n < 6 by omega), this, ih (by omega)]

theorem get_emptied (c : Config) (n : Nat) (r : Registry) (hn : n ≤ 6) {j : Nat} (hj : j < 6) :
    (r.emptied c n).get j = if j < n then c.keyNone else r.get j := by
  induction n generalizing r with
  | zero => simp [Registry.emptied]
  | succ n ih =>
    rw [Registry.emptied, ih _ (by omega), Registry.get_set r (by omega) hj]
    by_cases h1 : j < n
    · simp [h1, Nat.lt_succ_of_lt h1]
    · by_cases h2 : j = n
      · simp [h2]
      · have : ¬ j < n + 1 := by omega
        simp [h1, h2, this]

theorem completes_releaseAll (n : Nat) : ∀ u : State, n ≤ 6 → RegistryUnique u →
    Completes u (.releaseAll n) (releaseTicks u.cfg (u.slots.downFrom n)) .unit (u.slots.emptied u.cfg n) u.enabled
      (releaseBytes u.cfg (u.slots.downFrom n)) [] := by
  induction n with
  | zero =>
    intro u _ _
    exact completes_return u _ _ [] shows_nil (by intro v l h; cases h) fun _ _ _ => rfl
  | succ n ih =>
    intro u hn hu
    have h6 : n < 6 := by omega
    by_cases hk : u.slots.get n = u.cfg.keyNone
    · have e : u.slots.set n u.cfg.keyNone = u.slots := by rw [← hk]; exact Registry.set_get _ h6
      have step := completes_goto (u := u) (u1 := u) (f := .releaseAll (n + 1)) (f1 := .releaseAll n) [] shows_nil rfl rfl
        rfl (fun fs ev x => by simp [stepFrame, stepReleaseAll, hk, pt_goto]) (ih u (by omega) hu)
      simpa [Registry.downFrom, Registry.emptied, releaseTicks, releaseBytes, hk, e] using step
    · have hf := find_of_get hu h6 hk
      have tail : ∀ u1 : State, u1.cfg = u.cfg → u1.slots = u.slots.set n u.cfg.keyNone → u1.enabled = u.enabled →
          Completes u1 (.releaseAll n) (releaseTicks u.cfg (u.slots.downFrom n)) .unit
            ((u.slots.set n u.cfg.keyNone).emptied u.cfg n) u.enabled (releaseBytes u.cfg (u.slots.downFrom n)) [] := by
        intro u1 h1 h2 h3
        have := ih u1 (by omega) (by
          have := unique_clear hu h6
          unfold RegistryUnique at this ⊢
          rwa [h1, h2])
        rwa [h1, h2, h3, downFrom_set _ h6 _ _ (Nat.le_refl n)] at this
      have step := completes_call (u := u) (f := .releaseAll (n + 1)) (f1 := Frame.newRelease u.cfg (u.slots.get n))
        (f2 := .releaseAll n) [] shows_nil rfl (fun fs ev x => by simp [stepFrame, stepReleaseAll, hk, pt_callFrom])
        (completes_release u _ n hk hf) tail
      simpa [Registry.downFrom, Registry.emptied, releaseTicks, releaseBytes, hk] using step

/-! ### The call of an operation in a state -/

theorem Runs.withWorld {d : Nat} {ps : List Pins} {s t : State} (e : Pins) (sc : List Pins) (n : Nat) (hps : ps ≠ [])
    (h : Runs d ps s t) : Runs d ps (s.withWorld e sc n) t := by
  cases ps with
  | nil => exact absurd rfl hps
  | cons p ps => exact h

/-- Where `call` starts. -/
def State.start (s : State) (f : Frame) : State := { s with ctl := f :: s.ctl, inject := none, done := false }

/-- A called operation that runs through the described inputs `ps` and has returned then. -/
theorem call_runs {s t : State} {f : Frame} {ps rest : List Pins} (hin : s.env :: s.script = ps ++ rest)
    (hps : ps ≠ []) (h : Runs s.ctl.length ps (s.start f) t) (hstop : t.ctl.length ≤ s.ctl.length) :
    s.call f = s.worldAfter rest t := by
  have hlen : s.horizon = ps.length + rest.length := by
    have := congrArg List.length hin
    simpa [State.horizon] using this
  have := runUntil_play s.ctl.length rest.length ps rest (s.start f) hin h.1
  unfold State.call
  rw [hlen]
  refine this.trans ?_
  rw [if_neg hps, h.2]
  have e : (s.start f).worldAfter rest t = s.worldAfter rest t := by cases rest <;> rfl
  rw [e]
  refine runUntil_stop _ _ _ (Or.inl ?_)
  cases rest <;> exact hstop

theorem isQuiet_iff {p : Pins} : isQuiet p = true ↔ p.hclk = .rel ∧ p.hdat = .rel ∧ p.bound = 0 ∧ p.rst = false := by
  simp [isQuiet, and_assoc]

/-- The run of a called operation depends on the quiet inputs only in that they are quiet. -/
theorem Runs.sameQuiet {d n : Nat} {s t : State} (h : Runs d (quiets n) s t) (ps : List Pins) (hlen : ps.length = n)
    (hq : ∀ p ∈ ps, isQuiet p = true) (e : Pins) (sc : List Pins) (k : Nat) :
    running d ps s ∧ (play ps s).withWorld e sc k = t.withWorld e sc k := by
  have hf : List.Forall₂ SameBus ps (quiets n) := by
    subst hlen
    clear h
    induction ps with
    | nil => exact List.Forall₂.nil
    | cons p ps ih =>
      obtain ⟨h1, h2, h3, _⟩ := isQuiet_iff.1 (hq p (by simp))
      exact List.Forall₂.cons ⟨h1, h2, h3⟩ (ih fun q hq' => hq q (by simp [hq']))
  refine ⟨running_sameBus hf d s s (fun p hp => (isQuiet_iff.1 (hq p hp)).2.2.2) rfl h.1, ?_⟩
  rw [play_sameBus hf s s e sc k rfl, h.2]

theorem released_start (s : State) (f : Frame) (h : s.released) :
    s.start f = (({ s with inject := none, done := false } : State).pt .rel .rel (f :: s.ctl) s.events s.env s.ret).withWorld
      s.env s.script s.envCount := by
  obtain ⟨h1, h2⟩ := h
  cases s
  simp only at h1 h2
  subst h1 h2
  rfl

/-- The call of an operation in a released engine whose next inputs are quiet. -/
theorem call_completes {s : State} {f : Frame} {n N : Nat} {r : Ret} {sl : Registry} {en : Bool}
    {bytes logs : List Byte} (hs : s.released) (hq : s.quietFor N) (hn : n ≤ N + 1) (hpos : 0 < n)
    (h : Completes { s with inject := none, done := false } f n r sl en bytes logs) :
    Completed s (s.call f) r bytes logs ∧ FramesOnWire s (s.call f) bytes ∧ (s.call f).slots = sl ∧ (s.call f).enabled = en
      ∧ (s.call f).done = (s.ctl.isEmpty && f.external)
      ∧ (s.call f).result = (if s.ctl.isEmpty && f.external then resultBit r else s.result) := by
  obtain ⟨hN, hq⟩ := hq
  obtain ⟨g, ev, hg, hshow, hrun⟩ := h s.ctl.length s.ctl s.events s.env s.ret (Nat.le_refl _)
  have hrun' := hrun.withWorld s.env s.script s.envCount (by
    intro hnil; have := congrArg List.length hnil; simp at this; omega)
  rw [← released_start s f hs] at hrun'
  obtain ⟨m, rfl⟩ : ∃ m, n = m + 1 := ⟨n - 1, by omega⟩
  have hlen : (s.env :: s.script.take m).length = m + 1 := by simp; omega
  obtain ⟨hr1, hr2⟩ := hrun'.sameQuiet (s.env :: s.script.take m) hlen (fun p hp => hq p (by
    rcases List.mem_cons.1 hp with h | h
    · simp [State.inputs, h]
    · exact List.mem_cons_of_mem _ ((List.take_subset_take_left _ (by omega)) h))) s.env s.script s.envCount
  have hstop : (play (s.env :: s.script.take m) (s.start f)).ctl.length ≤ s.ctl.length := by
    have := congrArg State.ctl hr2
    simp only [withWorld_ctl, pt_ctl] at this
    rw [this]
    cases s.ctl <;> simp
  have hcall := call_runs (s := s) (f := f) (ps := s.env :: s.script.take m) (rest := s.script.drop m) (by simp)
    (by simp) ⟨hr1, rfl⟩ hstop
  have hw : ∃ e sc k, s.call f
      = ((({ s with inject := none, done := false } : State).upd sl en).returned g r s.ctl |>.pt .rel .rel
          (deliverTo s.cfg r s.ctl) (ev ++ s.events) .quiet r).withWorld e sc k := by
    have key : ∀ e sc k, (play (s.env :: s.script.take m) (s.start f)).withWorld e sc k
        = ((({ s with inject := none, done := false } : State).upd sl en).returned g r s.ctl |>.pt .rel .rel
          (deliverTo s.cfg r s.ctl) (ev ++ s.events) .quiet r).withWorld e sc k := by
      intro e sc k
      have := congrArg (fun x => x.withWorld e sc k) hr2
      simpa using this
    rw [hcall]
    unfold State.worldAfter
    cases s.script.drop m with
    | nil => exact ⟨_, _, _, key _ _ _⟩
    | cons q qs => exact ⟨_, _, _, key _ _ _⟩
  obtain ⟨e, sc, k, hw⟩ := hw
  rw [hw]
  refine ⟨?_, ?_, ?_, ?_, ?_, ?_⟩
  · constructor
    · simp [resumed_eq_deliverTo]
    · simp
    · show sentOf (ev ++ s.events) = _
      rw [sentOf_append, hshow.sent]; rfl
    · show loggedOf (ev ++ s.events) = _
      rw [loggedOf_append, hshow.logged]; rfl
    · exact ⟨rfl, rfl⟩
    · simp
    · simp [State.pt, State.withWorld]; rfl
  · show edgesOf (ev ++ s.events) = _
    rw [edgesOf_append, hshow.edges]; rfl
  · simp
  · simp
  · cases hc : s.ctl <;> simp [State.pt, State.withWorld, State.returned, hg] <;> rfl
  · cases hc : s.ctl <;> simp [State.pt, State.withWorld, State.returned, hg] <;> rfl

end Sys2Proof.Machine
end

