-- ==== Sys2Proof/Laws/Receive.lean ====
section
/-!
SUPPORT. `receive` with a host that keeps H-RX (R59): what it clocks and what it returns (R141 to R148), whatever parity
bit the host sent (R144).
-/

set_option linter.unusedSimpArgs false

namespace Sys2Proof.Machine

@[simp] theorem hostDat_hclk (x : Drive) : (hostDat x).hclk = .rel := rfl
@[simp] theorem hostDat_hdat (x : Drive) : (hostDat x).hdat = x := rfl
@[simp] theorem hostDat_rst (x : Drive) : (hostDat x).rst = false := rfl

/-- A half period, newest event first. -/
def halfEvents : List Event := [.returned (.delay tHalf) .unit, .delayed tHalf]
/-- The clock driven low, the data level as given. -/
def fallEvents (v : Level) : List Event := [.returned (.assertLow .clk) .unit, .drove .clk .drvLow .low v]
/-- The clock released, the data level as given. -/
def riseEvents (v : Level) : List Event := [.returned (.lineRelease .clk) .unit, .drove .clk .rel .high v]

/-- The record from one falling edge of a read cycle to the next, newest event first. -/
def readEvents (bit : Bool) : List Event :=
  fallEvents (levelOfBit bit) ++ halfEvents
    ++ [.returned (.lineRead .dat) (.level (levelOfBit bit)), .sampled .dat (levelOfBit bit)]
    ++ riseEvents (levelOfBit bit) ++ halfEvents

/-- The record of the parity pulse up to the falling edge of the stop pulse. -/
def parityEvents (bit : Bool) : List Event :=
  fallEvents (levelOfBit bit) ++ halfEvents ++ riseEvents (levelOfBit bit) ++ halfEvents

/-- The record of the stop pulse and the acknowledgment. -/
def ackEvents : List Event :=
  [.returned (.lineRelease .dat) .unit, .drove .dat .rel .high .high] ++ halfEvents ++ riseEvents .low ++ halfEvents
    ++ fallEvents .low ++ [.returned (.assertLow .dat) .unit, .drove .dat .drvLow .high .low] ++ halfEvents
    ++ riseEvents .high ++ halfEvents

/-- The record from the entry to the first falling edge. -/
def startEvents (tLead : Nat) : List Event :=
  fallEvents .low ++ [.returned (.delay tLead) .unit, .delayed tLead, .returned (.lineRead .clk) (.level .high),
    .sampled .clk .high, .returned (.lineRead .dat) (.level .low), .sampled .dat .low]

/-- The record of a whole `receive` of the byte `b` sent with the parity bit `p`, newest event first. -/
def receiveEvents (tLead : Nat) (b : Byte) (p : Bool) : List Event :=
  ackEvents ++ parityEvents p
  ++ readEvents (b.getLsbD 7) ++ readEvents (b.getLsbD 6) ++ readEvents (b.getLsbD 5) ++ readEvents (b.getLsbD 4)
  ++ readEvents (b.getLsbD 3) ++ readEvents (b.getLsbD 2) ++ readEvents (b.getLsbD 1) ++ readEvents (b.getLsbD 0)
  ++ startEvents tLead

/-- R76: eight bits inserted at 0 to 7, least significant first, are the byte. -/
theorem assemble_byte (b : Byte) :
    rxInsert (rxInsert (rxInsert (rxInsert (rxInsert (rxInsert (rxInsert (rxInsert 0 0 (b.getLsbD 0)) 1 (b.getLsbD 1)) 2
      (b.getLsbD 2)) 3 (b.getLsbD 3)) 4 (b.getLsbD 4)) 5 (b.getLsbD 5)) 6 (b.getLsbD 6)) 7 (b.getLsbD 7) = b := by
  revert b; decide

theorem high_levelOfBit (v : Bool) : decide (Ret.level (levelOfBit v) = .level .high) = v := by cases v <;> rfl

/-- Where the fall after a read cycle finds the locals. -/
theorem RxLocals.afterRead_lt {v : RxLocals} (h : v.i < 7) :
    v.afterRead = .receive { v with i := v.i + 1 } (.bus (.rx3 .fall)) := by simp [RxLocals.afterRead, h]

theorem RxLocals.afterRead_last {v : RxLocals} (h : ¬ v.i < 7) :
    v.afterRead = .receive { v with i := v.i + 1 } (.bus (.rx4 .fall)) := by simp [RxLocals.afterRead, h]

section

variable (s : State) (fs : List Frame) (ev : List Event) (p : Pins) (r : Ret) {d : Nat} (hd : d ≤ fs.length)
include hd

/-- From the entry to the first falling edge, the start bit on the line. -/
theorem runs_rx0 :
    Runs d (hostBit false) (s.pt .rel .rel (Frame.newReceive :: fs) ev p r)
      (s.pt .drvLow .rel (.receive { rx := 0, par := parStart, i := 0 } (.bus (.rx3 .low)) :: fs)
        (startEvents s.cfg.tRxLead ++ ev) (hostDat .drvLow) .unit) := by
  have hl := Nat.lt_succ_of_le hd
  have hm := Nat.lt_succ_of_lt hl
  have h0 : ∀ (v : RxLocals) (t : State), stepFrame (.receive v .rx0) fs t
      = t.goto (.receive v (.bus (.rx0 t.env.bound))) fs := fun _ _ => rfl
  have h2 : ∀ (v : RxLocals) (t : State), stepFrame (.receive v .rx2) fs t
      = t.goto (.receive ⟨0, parStart, 0⟩ (.bus (.rx3 .fall))) fs := fun _ _ => rfl
  constructor
  · simp [running, hostBit, List.replicate, pt_react, step_rxBus, pt_callFrom, pt_goto, RxBus.primitive,
      ReadPhase.primitive, pt_delay, pt_assertLow_clk, pt_lineRead_dat, pt_lineRead_clk, Frame.newReceive, driveOfBit, h0,
      h2, Frame.deliver, RxBus.deliver, hl, hm]
  · simp [play, hostBit, List.replicate, pt_react, step_rxBus, pt_callFrom, pt_goto, RxBus.primitive,
      ReadPhase.primitive, pt_delay, pt_assertLow_clk, pt_lineRead_dat, pt_lineRead_clk, Frame.newReceive, driveOfBit, h0,
      h2, Frame.deliver, RxBus.deliver, startEvents, fallEvents]

/-- A read cycle from the falling edge to its end. -/
theorem runs_read_cycle (v : RxLocals) (bit : Bool) :
    Runs d (List.replicate 8 (hostDat (driveOfBit bit))) (s.pt .drvLow .rel (.receive v (.bus (.rx3 .low)) :: fs) ev p r)
      (s.pt .rel .rel ((v.take bit).afterRead :: fs)
        (halfEvents ++ ([.returned (.lineRead .dat) (.level (levelOfBit bit)), .sampled .dat (levelOfBit bit)]
          ++ (riseEvents (levelOfBit bit) ++ (halfEvents ++ ev)))) (hostDat (driveOfBit bit)) .unit) := by
  have hl := Nat.lt_succ_of_le hd
  have hm := Nat.lt_succ_of_lt hl
  constructor
  · simp [running, List.replicate, pt_react, step_rxBus, pt_callFrom, RxBus.primitive, ReadPhase.primitive, pt_delay,
      pt_lineRelease_clk, pt_lineRead_dat, wireLevel_rel_driveOfBit, Frame.deliver, RxBus.deliver, hl, hm]
  · cases bit <;> simp [play, List.replicate, pt_react, step_rxBus, pt_callFrom, RxBus.primitive, ReadPhase.primitive,
      pt_delay, pt_lineRelease_clk, pt_lineRead_dat, Frame.deliver, RxBus.deliver, driveOfBit, levelOfBit,
      riseEvents, halfEvents]

/-- The falling edge that follows a cycle: the event `a` lowers the clock and leads to `b`. -/
theorem runs_fall (v : RxLocals) (a b : RxBus) (x : Drive) (q : Pins) (ha : ∀ c, a.primitive c = .assertLow .clk)
    (hb : ∀ c, (Frame.receive v (.bus a)).deliver c .unit = .receive v (.bus b)) (hq : q.rst = false) :
    Runs d (List.replicate 2 q) (s.pt .rel x (.receive v (.bus a) :: fs) ev p r)
      (s.pt .drvLow x (.receive v (.bus b) :: fs) (fallEvents (wireLevel x q.hdat) ++ ev) q .unit) := by
  have hl := Nat.lt_succ_of_le hd
  have hm := Nat.lt_succ_of_lt hl
  constructor
  · simp [running, List.replicate, pt_react, step_rxBus, pt_callFrom, ha, hl, hm, hq]
  · simp [play, List.replicate, pt_react, step_rxBus, pt_callFrom, ha, hb, pt_assertLow_clk, fallEvents]

/-- A read cycle up to the falling edge of what follows it. -/
theorem runs_read_to (v : RxLocals) (bit : Bool) (k : RxLocals) (a b : RxBus)
    (hk : (v.take bit).afterRead = .receive k (.bus a)) (ha : ∀ c, a.primitive c = .assertLow .clk)
    (hb : ∀ c, (Frame.receive k (.bus a)).deliver c .unit = .receive k (.bus b)) :
    Runs d (hostBit bit) (s.pt .drvLow .rel (.receive v (.bus (.rx3 .low)) :: fs) ev p r)
      (s.pt .drvLow .rel (.receive k (.bus b) :: fs) (readEvents bit ++ ev) (hostDat (driveOfBit bit)) .unit) := by
  have h := runs_read_cycle s fs ev p r hd v bit
  rw [hk] at h
  have := h.trans (runs_fall s fs _ _ _ hd k a b .rel (hostDat (driveOfBit bit)) ha hb rfl)
  rw [List.replicate_append_replicate, hostDat_hdat, wireLevel_rel_driveOfBit] at this
  simpa only [hostBit, readEvents, List.append_assoc, Nat.reduceAdd] using this

/-- A read cycle up to the falling edge of the next one, the bit `bit` on the line. -/
theorem runs_read (v : RxLocals) (bit : Bool) (h : v.i < 7) :
    Runs d (hostBit bit) (s.pt .drvLow .rel (.receive v (.bus (.rx3 .low)) :: fs) ev p r)
      (s.pt .drvLow .rel
        (.receive { rx := rxInsert v.rx v.i bit, par := parStep v.par bit, i := v.i + 1 } (.bus (.rx3 .low)) :: fs)
        (readEvents bit ++ ev) (hostDat (driveOfBit bit)) .unit) :=
  runs_read_to s fs ev p r hd v bit _ (.rx3 .fall) (.rx3 .low) (RxLocals.afterRead_lt h) (fun _ => rfl) fun _ => rfl

/-- The eighth read cycle, up to the falling edge of the parity pulse. -/
theorem runs_read_last (v : RxLocals) (bit : Bool) (h : ¬ v.i < 7) :
    Runs d (hostBit bit) (s.pt .drvLow .rel (.receive v (.bus (.rx3 .low)) :: fs) ev p r)
      (s.pt .drvLow .rel
        (.receive { rx := rxInsert v.rx v.i bit, par := parStep v.par bit, i := v.i + 1 } (.bus (.rx4 .low)) :: fs)
        (readEvents bit ++ ev) (hostDat (driveOfBit bit)) .unit) :=
  runs_read_to s fs ev p r hd v bit _ (.rx4 .fall) (.rx4 .low) (RxLocals.afterRead_last h) (fun _ => rfl) fun _ => rfl

/-- The rest of an unread pulse after its falling edge: `at_` names its bus events, `g` is the frame that follows it. -/
theorem runs_pulse (v : RxLocals) (at_ : CyclePhase → RxBus) (g : Frame) (x : Drive) (q : Pins)
    (ha : ∀ y c, (at_ y).primitive c = y.primitive)
    (hg : ∀ y c, (Frame.receive v (.bus (at_ y))).deliver c .unit
      = match y.succ with | some z => .receive v (.bus (at_ z)) | none => g)
    (hq : q.rst = false) (hc : q.hclk = .rel) :
    Runs d (List.replicate 6 q) (s.pt .drvLow x (.receive v (.bus (at_ .low)) :: fs) ev p r)
      (s.pt .rel x (g :: fs) (halfEvents ++ (riseEvents (wireLevel x q.hdat) ++ (halfEvents ++ ev))) q .unit) := by
  have hl := Nat.lt_succ_of_le hd
  have hm := Nat.lt_succ_of_lt hl
  constructor
  · simp [running, List.replicate, pt_react, step_rxBus, pt_callFrom, ha, hg, CyclePhase.primitive, CyclePhase.succ,
      pt_delay, pt_lineRelease_clk, hl, hm, hq]
  · simp [play, List.replicate, pt_react, step_rxBus, pt_callFrom, ha, hg, CyclePhase.primitive, CyclePhase.succ,
      pt_delay, pt_lineRelease_clk, halfEvents, riseEvents, hc]

/-- The parity pulse, unread, up to the falling edge of the stop pulse. -/
theorem runs_rx4 (v : RxLocals) (bit : Bool) :
    Runs d (List.replicate 8 (hostDat (driveOfBit bit))) (s.pt .drvLow .rel (.receive v (.bus (.rx4 .low)) :: fs) ev p r)
      (s.pt .drvLow .rel (.receive v (.bus (.rx5 .low)) :: fs) (parityEvents bit ++ ev) (hostDat (driveOfBit bit))
        .unit) := by
  have := (runs_pulse s fs ev p r hd v .rx4 (.receive v (.bus (.rx5 .fall))) .rel (hostDat (driveOfBit bit))
    (fun _ _ => rfl) (fun _ _ => rfl) rfl rfl).trans
    (runs_fall s fs _ _ _ hd v (.rx5 .fall) (.rx5 .low) .rel (hostDat (driveOfBit bit)) (fun _ => rfl) (fun _ => rfl) rfl)
  rw [List.replicate_append_replicate, hostDat_hdat, wireLevel_rel_driveOfBit] at this
  simpa only [parityEvents, List.append_assoc] using this

/-- The stop pulse and the acknowledgment, to the return. -/
theorem runs_rx5 (v : RxLocals) :
    Runs d (List.replicate 19 (hostDat .rel)) (s.pt .drvLow .rel (.receive v (.bus (.rx5 .low)) :: fs) ev p r)
      ((s.returned (.receive v .rx7) (.byte v.rx) fs).pt .rel .rel (deliverTo s.cfg (.byte v.rx) fs)
        (.returned (.receive v .rx7) (.byte v.rx) :: (ackEvents ++ ev)) (hostDat .rel) (.byte v.rx)) := by
  have hl := Nat.lt_succ_of_le hd
  have hm := Nat.lt_succ_of_lt hl
  have h1 := runs_pulse s fs ev p r hd v .rx5 (.receive v (.bus .rx6Assert)) .rel (hostDat .rel)
    (fun _ _ => rfl) (fun _ _ => rfl) rfl rfl
  have h2 : ∀ ev p r, Runs d (List.replicate 2 (hostDat .rel)) (s.pt .rel .rel (.receive v (.bus .rx6Assert) :: fs) ev p r)
      (s.pt .rel .drvLow (.receive v (.bus (.rx6 .fall)) :: fs)
        ([.returned (.assertLow .dat) .unit, .drove .dat .drvLow .high .low] ++ ev) (hostDat .rel) .unit) :=
    fun _ _ _ => ⟨⟨hl, rfl, hm, rfl, trivial⟩, rfl⟩
  have h3 := fun ev p r => runs_fall s fs ev p r hd v (.rx6 .fall) (.rx6 .low) .drvLow (hostDat .rel) (fun _ => rfl)
    (fun _ => rfl) rfl
  have h4 := fun ev p r => runs_pulse s fs ev p r hd v .rx6 (.receive v (.bus .rx6Release)) .drvLow (hostDat .rel)
    (fun _ _ => rfl) (fun _ _ => rfl) rfl rfl
  have h5 : ∀ ev p r, Runs d (List.replicate 3 (hostDat .rel))
      (s.pt .rel .drvLow (.receive v (.bus .rx6Release) :: fs) ev p r)
      ((s.returned (.receive v .rx7) (.byte v.rx) fs).pt .rel .rel (deliverTo s.cfg (.byte v.rx) fs)
        (.returned (.receive v .rx7) (.byte v.rx)
          :: ([.returned (.lineRelease .dat) .unit, .drove .dat .rel .high .high] ++ ev)) (hostDat .rel) (.byte v.rx)) :=
    fun _ _ _ => ⟨⟨hl, rfl, hm, rfl, hl, rfl, trivial⟩, by rw [← pt_returnFrom _ _ _ _ _ _ .unit]; rfl⟩
  have := (((h1.trans (h2 _ _ _)).trans (h3 _ _ _)).trans (h4 _ _ _)).trans (h5 _ _ _)
  simp only [List.replicate_append_replicate] at this
  simpa only [ackEvents, List.append_assoc, Nat.reduceAdd, hostDat_hdat, wireLevel_rel_rel, wireLevel_drvLow] using this

/-- R141 to R148 under H-RX. -/
theorem runs_receive (b : Byte) (par : Bool) :
    ∃ v : RxLocals, v.rx = b ∧
    Runs d (hostFrame b par) (s.pt .rel .rel (Frame.newReceive :: fs) ev p r)
      ((s.returned (.receive v .rx7) (.byte b) fs).pt .rel .rel (deliverTo s.cfg (.byte b) fs)
        (.returned (.receive v .rx7) (.byte b) :: (receiveEvents s.cfg.tRxLead b par ++ ev)) (hostDat .rel) (.byte b)) := by
  have g0 := fun ev p r v h => runs_read (d := d) s fs ev p r hd v (b.getLsbD 0) h
  have g1 := fun ev p r v h => runs_read (d := d) s fs ev p r hd v (b.getLsbD 1) h
  have g2 := fun ev p r v h => runs_read (d := d) s fs ev p r hd v (b.getLsbD 2) h
  have g3 := fun ev p r v h => runs_read (d := d) s fs ev p r hd v (b.getLsbD 3) h
  have g4 := fun ev p r v h => runs_read (d := d) s fs ev p r hd v (b.getLsbD 4) h
  have g5 := fun ev p r v h => runs_read (d := d) s fs ev p r hd v (b.getLsbD 5) h
  have g6 := fun ev p r v h => runs_read (d := d) s fs ev p r hd v (b.getLsbD 6) h
  have g7 := fun ev p r v h => runs_read_last (d := d) s fs ev p r hd v (b.getLsbD 7) h
  have a := assemble_byte b
  have lt : ∀ n, n ≤ 6 → n < 7 := fun n h => Nat.lt_succ_of_le h
  have key := ((runs_rx0 s fs ev p r hd).trans ((((((((g0 _ _ _ _ (lt 0 (by decide))).trans (g1 _ _ _ _ (lt 1 (by decide)))).trans
    (g2 _ _ _ _ (lt 2 (by decide)))).trans (g3 _ _ _ _ (lt 3 (by decide)))).trans (g4 _ _ _ _ (lt 4 (by decide)))).trans
    (g5 _ _ _ _ (lt 5 (by decide)))).trans (g6 _ _ _ _ (lt 6 (by decide)))).trans
    (g7 _ _ _ _ (by simp)))).trans ((runs_rx4 s fs _ _ _ hd _ par).trans (runs_rx5 s fs _ _ _ hd _))
  simp only [Nat.reduceAdd, Nat.zero_add] at key
  rw [a] at key
  have hh : hostFrame b par = hostBit false ++ (hostBit (b.getLsbD 0) ++ hostBit (b.getLsbD 1) ++ hostBit (b.getLsbD 2)
      ++ hostBit (b.getLsbD 3) ++ hostBit (b.getLsbD 4) ++ hostBit (b.getLsbD 5) ++ hostBit (b.getLsbD 6)
      ++ hostBit (b.getLsbD 7)) ++ (List.replicate 8 (hostDat (driveOfBit par)) ++ List.replicate 19 (hostDat .rel)) := by
    simp [hostFrame]
  have he : ∀ x : Event, x :: (receiveEvents s.cfg.tRxLead b par ++ ev)
      = x :: (ackEvents ++ (parityEvents par ++ (readEvents (b.getLsbD 7) ++ (readEvents (b.getLsbD 6)
        ++ (readEvents (b.getLsbD 5) ++ (readEvents (b.getLsbD 4) ++ (readEvents (b.getLsbD 3)
        ++ (readEvents (b.getLsbD 2) ++ (readEvents (b.getLsbD 1) ++ (readEvents (b.getLsbD 0)
        ++ (startEvents s.cfg.tRxLead ++ ev))))))))))) := fun x => by simp only [receiveEvents, List.append_assoc]
  rw [hh]
  refine ⟨_, ?_, by rw [he]; exact key⟩
  rfl

end

end Sys2Proof.Machine
end

