-- ==== Sys2Proof/Tests/Slice0.lean ====
section
/-!
SUPPORT. Tests: what `WellFormed` refuses, the decoding of words written out from spec/30_encoding.md, one step or one
call on small states with the results of spec/95_test_vectors.md (the vector is named in each comment), and a witness
for the hypotheses of every statement.
-/

namespace Sys2Proof.Tests

set_option Elab.async false

open Sys2Proof.Machine

/-! ### Helpers -/

/-- The engine after reset, the host quiet for `n` more steps. -/
def calm (n : Nat) : State := { State.reset with script := List.replicate n Pins.quiet }

/-- The same with a given registry. -/
def held (r : Registry) (n : Nat) : State := { calm n with slots := r }

/-- The same with an operation in progress. -/
def during (fs : List Frame) (n : Nat) : State := { calm n with ctl := fs }

/-- Parameters with another sentinel, so that lead byte E0 can be no key. -/
def otherNone : Config := { Config.default with keyNone := 0xE075 }

/-- The outcome is a next state of which `p` holds. -/
def answers (o : Host.Outcome State Fault Refusal) (p : State → Bool) : Bool :=
  match o with
  | .next t => p t
  | .fault _ => false
  | .refused _ => false

/-- The outcome is this refusal. -/
def refuses (o : Host.Outcome State Fault Refusal) (r : Refusal) : Bool :=
  match o with
  | .next _ => false
  | .fault _ => false
  | .refused q => decide (q = r)

/-- The next state has returned, with these bytes sent and this flag; the registry is `r`. -/
def shows (t : State) (bytes : List Byte) (e : Bool) (r : Registry) : Bool :=
  t.ctl.isEmpty && decide (t.sent = bytes) && decide (t.enabled = e) && decide (t.slots = r)

/-- An empty registry. -/
def noKeys : Registry := Registry.empty Config.default

/-- A registry with the given slots. -/
def keys (a b c d e f : Keycode) : Registry := ⟨a, b, c, d, e, f⟩

/-- The premise depends on the inputs alone. -/
theorem quietFor_of_inputs {s : State} {m n : Nat} (hs : s.script = List.replicate n Pins.quiet)
    (he : isQuiet s.env = true) (h : m ≤ n) : s.quietFor m := by
  refine ⟨by rw [hs, List.length_replicate]; exact h, fun p hp => ?_⟩
  rcases List.mem_cons.1 hp with rfl | hp
  · exact he
  · rw [hs] at hp
    rw [List.eq_of_mem_replicate (List.mem_of_mem_take hp)]
    rfl

theorem calm_quietFor (n : Nat) : (calm n).quietFor n := quietFor_of_inputs rfl rfl (Nat.le_refl n)

theorem calm_noReset (n : Nat) : (calm n).noReset n := by
  obtain ⟨h1, h2⟩ := calm_quietFor n
  refine ⟨h1, fun p hp => ?_⟩
  have := h2 p hp
  simp only [isQuiet, Bool.and_eq_true, Bool.not_eq_true'] at this
  exact this.2

theorem calm_released (n : Nat) : (calm n).released := ⟨rfl, rfl⟩

theorem inputAt_of {s : State} {n : Nat} {q : Pins → Prop} [DecidablePred q]
    (h : (s.env :: s.script)[n]?.any (fun p => decide (q p)) = true) : s.inputAt n q := by
  unfold State.inputAt
  cases hp : (s.env :: s.script)[n]? with
  | none => rw [hp] at h; cases h
  | some p => rw [hp] at h; exact ⟨p, rfl, of_decide_eq_true h⟩

theorem noReset_of {s : State} {n : Nat}
    (h : (decide (n ≤ s.script.length) && (s.inputs n).all (fun p => !p.rst)) = true) : s.noReset n := by
  simp only [Bool.and_eq_true, decide_eq_true_eq, List.all_eq_true, Bool.not_eq_true'] at h
  exact h

theorem hostOff_of {s : State} {n : Nat}
    (h : (s.inputs n).all (fun p => decide (p.hclk = .rel ∧ p.hdat = .rel)) = true) : s.hostOff n := by
  simp only [List.all_eq_true, decide_eq_true_eq] at h
  exact h

/-! ### WellFormed refuses an ill-formed term of every check, and Config.wf -/

theorem test_wf_known_command : WellFormed Config.default (.unknownCommand 0xF4) = false := by decide
theorem test_wf_bat_is_ack : WellFormed { Config.default with batOk := 0xFA } .selfTestPassed = false := by decide
theorem test_wf_id0_is_ack : WellFormed { Config.default with ackByte := 0xAB } .identityByte0 = false := by decide
theorem test_wf_id0_is_bat : WellFormed { Config.default with batOk := 0xAB } .identityByte0 = false := by decide
theorem test_wf_id1_is_ack : WellFormed { Config.default with ackByte := 0x83 } .identityByte1 = false := by decide
theorem test_wf_id1_is_bat : WellFormed { Config.default with batOk := 0x83 } .identityByte1 = false := by decide
theorem test_wf_echo_is_ack : WellFormed { Config.default with cmdEcho := 0xFA } .echoReply = false := by decide
theorem test_wf_echo_is_bat : WellFormed { Config.default with cmdEcho := 0xAA } .echoReply = false := by decide
theorem test_wf_echo_is_id0 : WellFormed { Config.default with cmdEcho := 0xAB } .echoReply = false := by decide
theorem test_wf_echo_is_id1 : WellFormed { Config.default with cmdEcho := 0x83 } .echoReply = false := by decide
theorem test_wf_plain_none : WellFormed Config.default (.keycodePlain 0x00) = false := by decide
theorem test_wf_extended_none : WellFormed otherNone (.keycodeExtended 0x75) = false := by decide
theorem test_wf_reserved_plain : WellFormed Config.default (.keycodeReserved 0x001C) = false := by decide
theorem test_wf_seq_plain_press : WellFormed Config.default (.seqPlainPress 0x00) = false := by decide
theorem test_wf_seq_extended_press : WellFormed otherNone (.seqExtendedPress 0x75) = false := by decide
theorem test_wf_seq_plain_release : WellFormed Config.default (.seqPlainRelease 0x00) = false := by decide
theorem test_wf_seq_extended_release : WellFormed otherNone (.seqExtendedRelease 0x75) = false := by decide
theorem test_wf_delay : WellFormed Config.default (.opDelay 4294967296) = false := by decide
theorem test_wf_sequence : WellFormed Config.default (.opSendSequence (List.replicate 9 0)) = false := by decide
theorem test_config_codes : Config.wf { Config.default with cmdEcho := 0xFF } = false := by decide
theorem test_config_selectors : Config.wf { Config.default with selPause := 0x01 } = false := by decide
theorem test_config_prtsc_none : Config.wf { Config.default with keyNone := 0xFF01 } = false := by decide
theorem test_config_pause_none : Config.wf { Config.default with keyNone := 0xFF02 } = false := by decide

/-! ### Decoding: every row's word, written out from spec/30_encoding.md -/

/-- R86: the ten command bytes. -/
theorem test_decode_commands :
    [0xFF, 0xFE, 0xF6, 0xF5, 0xF4, 0xF3, 0xF2, 0xF0, 0xEE, 0xED].map (decodeTableWord 8)
      = [some .reset, some .resend, some .setDefaults, some .disableReporting, some .enableReporting,
        some .setTypematicRate, some .getDeviceId, some .setScanCodeSet, some .echo, some .setResetLeds] := by decide

/-- R87 (M14, M16), R85, R88, R171. -/
theorem test_decode_bytes :
    decodeTableWord 8 0x00 = some (.unknownCommand 0x00) ∧ decodeTableWord 8 0xEF = some (.unknownCommand 0xEF)
      ∧ decode Config.default ⟨.param8, [0xFF]⟩ = .ok (.parameterByte 0xFF)
      ∧ decodeTableWord 8 0xFA = some .ackReply ∧ decodeTableWord 8 0xAA = some .selfTestPassed
      ∧ decodeTableWord 8 0xAB = some .identityByte0 ∧ decodeTableWord 8 0x83 = some .identityByte1
      ∧ decode Config.default ⟨.resp8, [0xEE]⟩ = .ok .echoReply := by decide

/-- R71, the frames of section 2.3 (last cell leftmost): 0x55 is `1 1 01010101 0`, 0x01 is `1 0 00000001 0`. -/
theorem test_decode_frames :
    decode Config.default ⟨.frameD2H, [0b10101010, 0b110]⟩ = .ok (.frameDeviceToHost 0x55)
      ∧ decode Config.default ⟨.frameD2H, [0b00000010, 0b100]⟩ = .ok (.frameDeviceToHost 0x01)
      ∧ decode Config.default ⟨.frameD2H, [0b10101011, 0b110]⟩ = .error .badStartBit
      ∧ decode Config.default ⟨.frameD2H, [0b10101010, 0b010]⟩ = .error .badStopBit
      ∧ decode Config.default ⟨.frameH2D, [0b11011010, 0b0111]⟩ = .ok (.frameHostToDevice 0xED true)
      ∧ decode Config.default ⟨.frameH2D, [0b11011010, 0b1111]⟩ = .error .badAcknowledgeBit
      ∧ decodeTableWord 11 0x438 = some (.frameDeviceToHost 0x1C) := by decide

/-- R78, R79 and section 2.7. -/
theorem test_decode_keycodes :
    [0x001C, 0x00FF, 0xE075, 0xE000, 0xFF01, 0xFF02, 0x0000, 0xE11C, 0x011C, 0xFF03, 0xFF00].map (decodeTableWord 16)
      = [some (.keycodePlain 0x1C), some (.keycodePlain 0xFF), some (.keycodeExtended 0x75),
        some (.keycodeExtended 0x00), some .keycodeSpecialPrtsc, some .keycodeSpecialPause, some .keycodeNone,
        some (.keycodeReserved 0xE11C), some (.keycodeReserved 0x011C), some (.keycodeReserved 0xFF03),
        some (.keycodeReserved 0xFF00)] := by decide

/-- R80 to R84 and section 2.7; a lone F0 is the one-byte press of 0x00F0. -/
theorem test_decode_sequences :
    decode Config.default ⟨.byteSeq, [0x1C]⟩ = .ok (.seqPlainPress 0x1C)
      ∧ decode Config.default ⟨.byteSeq, [0xF0]⟩ = .ok (.seqPlainPress 0xF0)
      ∧ decode Config.default ⟨.byteSeq, [0xE0, 0x75]⟩ = .ok (.seqExtendedPress 0x75)
      ∧ decode Config.default ⟨.byteSeq, [0xF0, 0x1C]⟩ = .ok (.seqPlainRelease 0x1C)
      ∧ decode Config.default ⟨.byteSeq, [0xE0, 0xF0, 0x75]⟩ = .ok (.seqExtendedRelease 0x75)
      ∧ decode Config.default ⟨.byteSeq, [0xE0, 0x12, 0xE0, 0x7C]⟩ = .ok .seqPrtscPress
      ∧ decode Config.default ⟨.byteSeq, [0xE0, 0xF0, 0x7C, 0xE0, 0xF0, 0x12]⟩ = .ok .seqPrtscRelease
      ∧ decode Config.default ⟨.byteSeq, [0xE1, 0x14, 0x77, 0xE1, 0xF0, 0x14, 0xF0, 0x77]⟩ = .ok .seqPausePress
      ∧ decode Config.default ⟨.byteSeq, []⟩ = .ok .seqPauseRelease
      ∧ decode Config.default ⟨.byteSeq, [0xE1, 0x14]⟩ = .error .notASequence := by decide

/-- R89 and the REQ18 columns of programs 1, 2 and 3. -/
theorem test_decode_requests :
    [0x00000, 0x1001C, 0x2001C, 0x30000].map (decodeTableWord 24)
      = [some .poll, some (.press 0x001C), some (.release 0x001C), some .releaseAll] := by decide

/-- R90: operation ids 1 to 12, operands zero; 0 and 13 to 15 are none. -/
theorem test_decode_operations :
    [1, 2, 3, 4, 5, 6, 7, 8, 9, 10, 11, 12].map (decodeTableWord 8)
      = [some .opPoll, some (.opPress 0), some (.opRelease 0), some .opReleaseAll, some (.opHandleCommand 0),
        some .opAck, some (.opTransmit 0), some .opReceive, some (.opLineRelease .clk), some (.opAssertLow .clk),
        some (.opLineRead .clk), some (.opDelay 0)]
      ∧ [0x00, 0x0D, 0x0E, 0x0F].map (fun b => decode Config.default ⟨.opId4, [b]⟩)
      = List.replicate 4 (.error .unusedOperationId) := by decide

/-- Log entry 4: the model's own layout of operand bytes and pseudo-operations. -/
theorem test_decode_own_layout :
    decode Config.default ⟨.opId4, [0x02, 0x1C, 0xE0]⟩ = .ok (.opPress 0xE01C)
      ∧ decode Config.default ⟨.opId4, [0x0A, 0x01]⟩ = .ok (.opAssertLow .dat)
      ∧ decode Config.default ⟨.opId4, [0x0A, 0x02]⟩ = .error .badOperand
      ∧ decode Config.default ⟨.opId4, [0x0C, 0x14, 0x00, 0x01]⟩ = .ok (.opDelay 65556)
      ∧ decode Config.default ⟨.pseudo, [0x00, 0xFA]⟩ = .ok (.opSendUntilOk 0xFA)
      ∧ decode Config.default ⟨.pseudo, [0x01, 0xE0, 0x75]⟩ = .ok (.opSendSequence [0xE0, 0x75])
      ∧ decode Config.default ⟨.pseudo, [0x02]⟩ = .ok .opClockCycle := by decide

/-! ### Host commands (section 2.6) -/

theorem test_reset_M1 : answers (exec .reset (calm 400)) (fun t => shows t [0xFA, 0xAA] true noKeys) = true := by
  decide +kernel
theorem test_reset_M18 :
    answers (exec .reset (held (keys 0x1C 0 0 0 0 0) 400)) (fun t => shows t [0xFA, 0xAA] true (keys 0x1C 0 0 0 0 0))
      = true := by decide +kernel
theorem test_resend_M2 : answers (exec .resend (calm 200)) (fun t => shows t [0xFA] false noKeys) = true := by
  decide +kernel
theorem test_setDefaults_M3 : answers (exec .setDefaults (calm 200)) (fun t => shows t [0xFA] false noKeys) = true := by
  decide +kernel
theorem test_disable_M4 :
    answers (exec .disableReporting { calm 200 with enabled := true }) (fun t => shows t [0xFA] false noKeys) = true := by
  decide +kernel
/-- M4: "already false while FA is sent". -/
theorem test_disable_first :
    answers (exec .disableReporting { calm 20 with enabled := true }) (fun t => !t.enabled && t.busy && t.sent.isEmpty)
      = true := by decide +kernel
theorem test_enable_M5 : answers (exec .enableReporting (calm 200)) (fun t => shows t [0xFA] true noKeys) = true := by
  decide +kernel
/-- M17: `dat` held low at the first two attempts. -/
theorem test_enable_M17 :
    answers
      (exec .enableReporting
        { calm 0 with script := List.replicate 14 (hostDat .drvLow) ++ List.replicate 200 Pins.quiet })
      (fun t => shows t [0xFA] true noKeys
        && decide (t.events.countP (fun e => match e with | .returned _ (.code .collisionData) => true | _ => false) = 2))
      = true := by decide +kernel
/-- M6: the parameter 0x20 after the first FA. -/
theorem test_typematic_M6 :
    answers
      (exec .setTypematicRate
        { calm 0 with script := List.replicate 144 Pins.quiet ++ hostFrame 0x20 false ++ List.replicate 200 Pins.quiet })
      (fun t => shows t [0xFA, 0xFA] false noKeys
        && t.events.any (fun e => match e with | .returned _ (.byte b) => b == 0x20 | _ => false)) = true := by
  decide +kernel
theorem test_getId_M7 :
    answers (exec .getDeviceId (calm 600)) (fun t => shows t [0xFA, 0xAB, 0x83] false noKeys) = true := by
  decide +kernel
/-- M8: the parameter 0x02. -/
theorem test_scanCodeSet_M8 :
    answers
      (exec .setScanCodeSet
        { calm 0 with script := List.replicate 144 Pins.quiet ++ hostFrame 0x02 false ++ List.replicate 200 Pins.quiet })
      (fun t => shows t [0xFA, 0xFA] false noKeys) = true := by decide +kernel
theorem test_echo_M10 : answers (exec .echo (calm 200)) (fun t => shows t [0xEE] false noKeys) = true := by
  decide +kernel
theorem test_leds_M12 :
    answers (exec .setResetLeds (calm 400)) (fun t => shows t [0xFA, 0xFA] false noKeys) = true := by decide +kernel
theorem test_leds_M12_one_ack :
    answers (exec .setResetLeds { calm 400 with cfg := { Config.default with ack2OnTimeout := false } })
      (fun t => shows t [0xFA] false noKeys) = true := by decide +kernel
theorem test_unknown_M14 :
    answers (exec (.unknownCommand 0x00) (calm 10))
      (fun t => shows t [] false noKeys && decide (t.logged = [0x00]) && t.driven.isEmpty) = true := by decide +kernel
/-- M13: the parameter 0xFF is not a reset. -/
theorem test_parameter_M13 :
    answers (exec (.parameterByte 0xFF) (calm 200)) (fun t => shows t [0xFA] false noKeys) = true := by decide +kernel
theorem test_handle_M15 :
    answers (exec (.opHandleCommand 0xFA) (calm 10)) (fun t => shows t [] false noKeys && decide (t.logged = [0xFA]))
      = true := by decide +kernel
theorem test_handle_M7 :
    answers (exec (.opHandleCommand 0xF2) (calm 600)) (fun t => shows t [0xFA, 0xAB, 0x83] false noKeys) = true := by
  decide +kernel

/-! ### Replies (R88) -/

theorem test_replies :
    [(Instr.ackReply, (0xFA : Byte)), (.selfTestPassed, 0xAA), (.identityByte0, 0xAB), (.identityByte1, 0x83),
      (.echoReply, 0xEE), (.opAck, 0xFA), (.opSendUntilOk 0x55, 0x55)].all
      (fun x => answers (exec x.1 (calm 160)) (fun t => shows t [x.2] false noKeys)) = true := by decide +kernel

/-! ### Frames, transmit, receive (sections 2.3 to 2.5) -/

/-- The `dat` levels at the eleven falling edges for 0x1C: 0,0,0,1,1,1,0,0,0,0,1. -/
theorem test_transmit_edges :
    answers (exec (.opTransmit 0x1C) (calm 200))
      (fun t => decide (t.edges = [0, 0, 0, 1, 1, 1, 0, 0, 0, 0, 1].map (fun (n : Nat) => levelOfBit (n == 1)))
        && decide (t.ret = .code .ok)) = true := by decide +kernel
/-- X4: both lines low, the clock is tested first. -/
theorem test_transmit_X4 :
    answers (exec (.opTransmit 0x1C) { calm 0 with env := inhibited, script := List.replicate 3 inhibited })
      (fun t => decide (t.ret = .code .collisionClock) && t.driven.isEmpty) = true := by decide +kernel
/-- X6: the host acknowledges within the window: the clock low at the second sample, high again at the third. The window
opens at step 137, its bound one unmet sample; `transmit` returns at step 144. -/
theorem test_transmit_X6 :
    answers
      (exec (.opTransmit 0x1C)
        { calm 0 with
          script := List.replicate 136 Pins.quiet ++ [{ Pins.quiet with bound := 1 }] ++ List.replicate 2 Pins.quiet
            ++ List.replicate 2 { Pins.quiet with hclk := .drvLow } ++ List.replicate 10 Pins.quiet })
      (fun t => decide (t.ret = .code .ok) && decide (t.script.length = 6) && decide (t.sent = [0x1C])) = true := by
  decide +kernel
/-- 0xF0: `0 00001111 1 1`. -/
theorem test_frame_d2h :
    answers (exec (.frameDeviceToHost 0xF0) (calm 200))
      (fun t => decide (t.edges = [0, 0, 0, 0, 0, 1, 1, 1, 1, 1, 1].map (fun (n : Nat) => levelOfBit (n == 1)))) = true := by
  decide +kernel
/-- The trace of section 2.5: 0xED with parity 1. -/
theorem test_receive_ED :
    answers (exec .opReceive ((calm 10).withHost (hostFrame 0xED true))) (fun t => decide (t.ret = .byte 0xED)) = true := by
  decide +kernel
/-- V4: the host holds `dat` low throughout. -/
theorem test_receive_V4 :
    answers (exec .opReceive { calm 0 with env := hostDat .drvLow, script := List.replicate 130 (hostDat .drvLow) })
      (fun t => decide (t.ret = .byte 0x00)) = true := by decide +kernel
/-- R141: the start bit comes late, after two unmet samples. -/
theorem test_receive_late :
    answers
      (exec .opReceive
        ((calm 5).withHost ({ Pins.quiet with bound := 3 } :: List.replicate 4 Pins.quiet ++ hostFrame 0x35 true)))
      (fun t => decide (t.ret = .byte 0x35)) = true := by decide +kernel
/-- V9: no start bit comes within the bound, three unmet samples. -/
theorem test_receive_V9 :
    answers (exec .opReceive { calm 20 with env := { Pins.quiet with bound := 2 } })
      (fun t => decide (t.ret = .code .timeout) && t.driven.isEmpty
        && decide (t.events.countP (fun e => match e with | .sampled _ _ => true | _ => false) = 3)) = true := by
  decide +kernel
/-- V7: 0xF2 with the wrong parity bit 1. -/
theorem test_frame_h2d_V7 :
    answers (exec (.frameHostToDevice 0xF2 true) (calm 10))
      (fun t => decide (t.ret = .byte 0xF2) && decide (t.edges.length = 11)) = true := by decide +kernel
/-- V5: the first sample is bit 0. -/
theorem test_frame_h2d_V5 :
    answers (exec (.frameHostToDevice 0x01 false) (calm 10)) (fun t => decide (t.ret = .byte 0x01)) = true := by
  decide +kernel

/-! ### Line primitives (section 2.1) -/

/-- W5. -/
theorem test_assert_W5 :
    answers (exec (.opAssertLow .dat) (calm 4))
      (fun t => decide (t.drvDat = .drvLow ∧ t.drvClk = .rel ∧ t.level .dat = .low)) = true := by decide +kernel
/-- W7: a release does not guarantee a high level. -/
theorem test_release_W7 :
    answers
      (exec (.opLineRelease .clk)
        { calm 4 with drvClk := .drvLow, env := inhibited, script := List.replicate 2 inhibited })
      (fun t => decide (t.drvClk = .rel ∧ t.level .clk = .low)) = true := by decide +kernel
/-- W3. -/
theorem test_read_W3 :
    answers (exec (.opLineRead .clk) { calm 4 with env := inhibited }) (fun t => decide (t.ret = .level .low)) = true := by
  decide +kernel
/-- W10. -/
theorem test_delay_W10 :
    answers (exec (.opDelay 20) { calm 4 with drvDat := .drvLow })
      (fun t => shows t [] false noKeys && decide (t.drvDat = .drvLow)) = true := by decide +kernel
/-- R75. -/
theorem test_clock_cycle :
    answers (exec .opClockCycle (calm 10)) (fun t => decide (t.driven = [(.clk, .drvLow), (.clk, .rel)])) = true := by
  decide +kernel

/-! ### Sequences (sections 2.7, 2.8) -/

theorem test_sequences :
    [(Instr.seqPlainPress 0x1C, ([0x1C] : List Byte)), (.seqExtendedPress 0x75, [0xE0, 0x75]),
      (.seqPlainRelease 0x1C, [0xF0, 0x1C]), (.seqExtendedRelease 0x75, [0xE0, 0xF0, 0x75]),
      (.seqPrtscPress, [0xE0, 0x12, 0xE0, 0x7C]), (.seqPrtscRelease, [0xE0, 0xF0, 0x7C, 0xE0, 0xF0, 0x12]),
      (.seqPausePress, [0xE1, 0x14, 0x77, 0xE1, 0xF0, 0x14, 0xF0, 0x77]), (.seqPauseRelease, [])].all
      (fun x => answers (exec x.1 (calm 1400)) (fun t => shows t x.2 false noKeys)) = true := by decide +kernel
/-- L2: a Collision(clock) at byte 2 sends the loop to L0, and the host lets go without sending. The first two bytes
end after 295 steps: `poll` 6, L1, then 144 for each byte; four more and `transmit` samples the clock. -/
theorem test_send_sequence_L2 :
    answers
      (exec (.opSendSequence [0xE0, 0x12, 0xE0, 0x7C])
        { calm 0 with
          script := List.replicate 298 Pins.quiet ++ List.replicate 9 { Pins.quiet with hclk := .drvLow }
            ++ List.replicate 700 Pins.quiet })
      (fun t => shows t [0xE0, 0x12, 0xE0, 0x12, 0xE0, 0x7C] false noKeys) = true := by decide +kernel

/-! ### Keys (section 2.8) -/

/-- K1. -/
theorem test_press_K1 :
    answers (exec (.press 0x001C) (calm 400)) (fun t => shows t [0x1C] false (keys 0x1C 0 0 0 0 0) && t.result && t.done)
      = true := by decide +kernel
/-- K5: the lowest free slot. -/
theorem test_press_K5 :
    answers (exec (.opPress 0x0023) (held (keys 0 0xE075 0 0 0 0) 400))
      (fun t => shows t [0x23] false (keys 0x23 0xE075 0 0 0 0) && t.result) = true := by decide +kernel
/-- K14: no free slot. -/
theorem test_press_K14 :
    answers (exec (.press 0x003B) (held (keys 0x1C 0x1B 0x23 0x2B 0x34 0x33) 400))
      (fun t => shows t [] false (keys 0x1C 0x1B 0x23 0x2B 0x34 0x33) && !t.result && t.events.length == 1) = true := by
  decide +kernel
/-- K20. -/
theorem test_press_K20 : refuses (exec (.press 0xE11C) (calm 400)) (.reservedKeycode 0xE11C) = true := by
  decide +kernel
/-- K4. -/
theorem test_release_K4 :
    answers (exec (.release 0x001C) (held (keys 0x1C 0xE075 0 0 0 0) 600))
      (fun t => shows t [0xF0, 0x1C] false (keys 0 0xE075 0 0 0 0) && t.result) = true := by decide +kernel
/-- K7. -/
theorem test_release_K7 :
    answers (exec (.opRelease 0x001C) (held (keys 0x23 0 0 0 0 0) 600))
      (fun t => shows t [] false (keys 0x23 0 0 0 0 0) && !t.result && t.events.length == 1) = true := by decide +kernel
/-- K13: the release of Pause polls, sends nothing and clears the slot. -/
theorem test_release_K13 :
    answers (exec (.release 0xFF02) (held (keys 0xFF02 0 0 0 0 0) 600))
      (fun t => shows t [] false noKeys && t.result && t.events.length == 6) = true := by decide +kernel
/-- K16: slots 5, 2, 0 in this order. -/
theorem test_releaseAll_K16 :
    answers (exec .releaseAll (held (keys 0x1C 0 0x23 0 0 0xFF02) 1800))
      (fun t => shows t [0xF0, 0x23, 0xF0, 0x1C] false noKeys && !t.result && t.done) = true := by decide +kernel
/-- K17. -/
theorem test_releaseAll_K17 :
    answers (exec .opReleaseAll (calm 40)) (fun t => shows t [] false noKeys && t.events.length == 1) = true := by
  decide +kernel
/-- K10, K12, K3 and K9 with the Keycode on `req_key` and PRESS on `req_op`. -/
theorem test_keycodes_press :
    [(Instr.keycodePlain 0x1C, ([0x1C] : List Byte), keys 0x1C 0 0 0 0 0),
      (.keycodeExtended 0x75, [0xE0, 0x75], keys 0xE075 0 0 0 0 0),
      (.keycodeSpecialPrtsc, [0xE0, 0x12, 0xE0, 0x7C], keys 0xFF01 0 0 0 0 0),
      (.keycodeSpecialPause, [0xE1, 0x14, 0x77, 0xE1, 0xF0, 0x14, 0xF0, 0x77], keys 0xFF02 0 0 0 0 0),
      (.keycodeNone, [], noKeys)].all
      (fun x => answers (exec x.1 { calm 1400 with env := { Pins.quiet with reqOp := 1 } })
        (fun t => shows t x.2.1 false x.2.2)) = true := by decide +kernel
/-- R79: under RELEASE a reserved Keycode answers 0; U1: under PRESS it is refused. -/
theorem test_keycode_reserved :
    answers (exec (.keycodeReserved 0xFF03) { calm 10 with env := { Pins.quiet with reqOp := 2 } })
      (fun t => shows t [] false noKeys && !t.result && t.done) = true
      ∧ refuses (exec (.keycodeReserved 0xFF03) { calm 10 with env := { Pins.quiet with reqOp := 1 } })
        (.reservedKeycode 0xFF03) = true := by decide +kernel

/-! ### poll (section 2.9, program 3) -/

/-- Q1: two samples. -/
theorem test_poll_Q1 :
    answers (exec .poll (calm 10)) (fun t => shows t [] false noKeys && !t.result && t.events.length == 5) = true := by
  decide +kernel
/-- Q3: an inhibiting host, then the frame of 0xF4. -/
theorem test_poll_Q3 :
    answers
      (exec .opPoll
        ((calm 200).withHost (List.replicate 4 inhibited ++ List.replicate 5 (hostDat .drvLow) ++ hostFrame 0xF4 false)))
      (fun t => shows t [0xFA] true noKeys && t.result) = true := by decide +kernel

/-! ### One step -/

/-- Program 1: the request word 0x1001C is taken and runs as far as the inputs are known. -/
theorem test_step_takes_word :
    answers (step (State.reset.withFetchWord 24 0x1001C))
      (fun t => decide (t.ctl = [.press 0x001C [0x1C] (.loop .l0)])) = true := by decide +kernel
theorem test_step_takes_command :
    answers (step (State.reset.withFetchWord 8 0xF4)) (fun t => t.enabled && t.busy && t.inject.isNone) = true := by
  decide +kernel
/-- Z1 during an operation (R263). -/
theorem test_step_reset :
    answers
      (step { during [.transmit ⟨0x1C, 0x1C, true, 0⟩ (.bus (.t3 .setup))] 2 with
        drvDat := .drvLow, enabled := true, env := { Pins.quiet with rst := true } })
      (fun t => shows t [] false noKeys && decide (t.drvDat = .rel)) = true := by decide +kernel

/-! ### Witnesses: the hypotheses of every statement hold together of something -/

theorem test_witness_DecodeEncode : Config.default.wf = true ∧ WellFormed Config.default (.keycodePlain 0xFF) = true := by
  decide
theorem test_witness_DecodedWellFormed : decode Config.default ⟨.byteSeq, [0xF0, 0x01]⟩ = .ok (.seqPlainRelease 0x01) := by
  decide
/-- Every clause of KeycodeClasses and SequenceWords, at the ends of its range. -/
theorem test_witness_KeycodeClasses :
    Config.default.wf = true ∧ (0x0000 : Keycode) = Config.default.keyNone
      ∧ [(0x0001 : Keycode), 0x00FF].all (fun k => decide (k ≠ Config.default.keyNone ∧ hi k = 0x00)) = true
      ∧ [(0xE000 : Keycode), 0xE0FF].all (fun k => decide (k ≠ Config.default.keyNone ∧ hi k = 0xE0)) = true
      ∧ (hi 0xFF01 = 0xFF ∧ lo 0xFF01 = Config.default.selPrtsc)
      ∧ (hi 0xFF02 = 0xFF ∧ lo 0xFF02 = Config.default.selPause)
      ∧ [(0x0100 : Keycode), 0xDFFF, 0xE100, 0xFEFF, 0xFF00, 0xFF03].all
        (fun k => decide (k ≠ Config.default.keyNone ∧ hi k ≠ 0x00 ∧ hi k ≠ 0xE0
          ∧ (hi k = 0xFF → lo k ≠ Config.default.selPrtsc ∧ lo k ≠ Config.default.selPause))) = true := by decide
theorem test_witness_SequenceWords :
    Config.default.wf = true ∧ ((0x0001 : Keycode) ≠ Config.default.keyNone ∧ hi 0x0001 = 0x00)
      ∧ ((0xE000 : Keycode) ≠ Config.default.keyNone ∧ hi 0xE000 = 0xE0)
      ∧ (hi 0xFF01 = 0xFF ∧ lo 0xFF01 = Config.default.selPrtsc)
      ∧ (hi 0xFF02 = 0xFF ∧ lo 0xFF02 = Config.default.selPause) := by decide
theorem test_witness_UnknownBytes : (0xEF : Byte) ∉ Config.default.commandCodes := by decide
/-- A host that inhibits for as long as anything is known of it. -/
def waiting : State := { calm 0 with env := inhibited, script := List.replicate 3 inhibited }

/-- Also of AssertLow, LineRead and Delay. -/
theorem test_witness_LineRelease : (calm 0).env.rst = false := rfl
theorem test_witness_ClockCycle : (calm 8).noReset 8 := calm_noReset 8
theorem test_witness_TransmitCollision_clock :
    waiting.noReset 2 ∧ waiting.inputAt 1 (fun p => wireLevel waiting.drvClk p.hclk = .low) :=
  ⟨noReset_of (by decide), inputAt_of (by decide)⟩
theorem test_witness_TransmitCollision_data :
    { calm 0 with script := List.replicate 4 (hostDat .drvLow) : State }.noReset 4
      ∧ { calm 0 with script := List.replicate 4 (hostDat .drvLow) : State }.inputAt 1
        (fun p => wireLevel (calm 0).drvClk p.hclk = .high)
      ∧ { calm 0 with script := List.replicate 4 (hostDat .drvLow) : State }.inputAt 3
        (fun p => wireLevel (calm 0).drvDat p.hdat = .low) :=
  ⟨noReset_of (by decide), inputAt_of (by decide), inputAt_of (by decide)⟩

/-- X6: a host that acknowledges after one unmet sample of the window. -/
def acknowledging : State :=
  { calm 0 with
    script := List.replicate 136 Pins.quiet ++ [{ Pins.quiet with bound := 1 }] ++ List.replicate 2 Pins.quiet
      ++ List.replicate 2 { Pins.quiet with hclk := .drvLow } ++ List.replicate 10 Pins.quiet }

theorem test_witness_TransmitFrame :
    acknowledging.released ∧ acknowledging.noReset (142 + 2 * 1) ∧ acknowledging.hostOff 136
      ∧ acknowledging.inputAt 137 (fun p => p.bound ≤ 1) :=
  ⟨⟨rfl, rfl⟩, noReset_of (by decide +kernel), hostOff_of (by decide +kernel), inputAt_of (by decide +kernel)⟩
theorem test_witness_FrameDeviceToHost :
    (calm 138).released ∧ (calm 138).noReset (138 + 2 * 0) ∧ (calm 138).inputAt 133 (fun p => p.bound ≤ 0)
      ∧ (calm 138).hostOff 132 :=
  ⟨calm_released _, calm_noReset 138, inputAt_of (by decide +kernel), hostOff_of (by decide +kernel)⟩

/-- X8: the host pulls `dat` low once the idle check is past, lets go before the window, and acknowledges in it. -/
def disturbed : State :=
  { calm 0 with
    script := List.replicate 3 Pins.quiet ++ List.replicate 133 { Pins.quiet with hdat := .drvLow }
      ++ [{ Pins.quiet with bound := 1 }] ++ List.replicate 2 Pins.quiet
      ++ List.replicate 2 { Pins.quiet with hclk := .drvLow } ++ List.replicate 10 Pins.quiet }

theorem test_witness_TransmitOpenLoop :
    disturbed.released ∧ disturbed.noReset (142 + 2 * 1) ∧ disturbed.inputAt 1 (fun p => p.hclk = .rel)
      ∧ disturbed.inputAt 3 (fun p => p.hdat = .rel) ∧ disturbed.inputAt 137 (fun p => p.bound ≤ 1) :=
  ⟨⟨rfl, rfl⟩, noReset_of (by decide +kernel), inputAt_of (by decide +kernel), inputAt_of (by decide +kernel),
    inputAt_of (by decide +kernel)⟩

theorem test_witness_TransmitResults :
    ∃ t, exec (.opTransmit 0) waiting = .next t ∧ t.ctl.length = waiting.ctl.length ∧ waiting.released :=
  ⟨_, rfl, by decide +kernel, rfl, rfl⟩
theorem test_witness_TransmitResults_ends :
    disturbed.noReset (142 + 2 * 1) ∧ disturbed.inputAt 137 (fun p => p.bound ≤ 1) :=
  ⟨noReset_of (by decide +kernel), inputAt_of (by decide +kernel)⟩

/-- A bounded wait entered now takes two unmet samples. -/
def patient : State := { calm 10 with env := { Pins.quiet with bound := 2 } }

theorem test_witness_ReceiveTimeout : patient.drvDat = .rel ∧ patient.noReset (2 * 2 + 3) ∧ patient.startExpires 0 2 := by
  refine ⟨rfl, noReset_of (by decide), inputAt_of (by decide), fun j hj => ?_⟩
  have : j = 0 ∨ j = 1 ∨ j = 2 := by omega
  rcases this with rfl | rfl | rfl <;> exact inputAt_of (by decide)

/-- A host that comes late with its start bit, holds the clock once more, and sends 0x80, its last bit set only as the
device samples it. -/
def late : State :=
  { calm 0 with
    env := { Pins.quiet with bound := 1 }
    script := List.replicate 2 Pins.quiet ++ List.replicate 2 (hostDat .drvLow) ++ List.replicate 2 inhibited
      ++ List.replicate 82 (hostDat .drvLow) ++ List.replicate 32 Pins.quiet }

theorem test_witness_ReceiveByte :
    late.released ∧ late.noReset (2 * 1 + 2 * 1 + 116) ∧ late.hostFrames 1 1 0x80 := by
  refine ⟨⟨rfl, rfl⟩, noReset_of (by decide +kernel), ⟨inputAt_of (by decide), fun j hj => ?_⟩, inputAt_of (by decide),
    fun j hj => ?_, inputAt_of (by decide), fun i hi => ?_⟩
  · obtain rfl : j = 0 := by omega
    exact inputAt_of (by decide)
  · obtain rfl : j = 0 := by omega
    exact inputAt_of (by decide)
  · have : i = 0 ∨ i = 1 ∨ i = 2 ∨ i = 3 ∨ i = 4 ∨ i = 5 ∨ i = 6 ∨ i = 7 := by omega
    rcases this with rfl | rfl | rfl | rfl | rfl | rfl | rfl | rfl <;> exact inputAt_of (by decide +kernel)
/-- Device and host agree: 0x80 is what the device returns. -/
theorem test_receive_held : answers (exec .opReceive late) (fun t => decide (t.ret = .byte 0x80)) = true := by
  decide +kernel
theorem test_witness_FrameHostToDevice : (calm 0).released := calm_released 0

theorem test_witness_ReceiveWaits :
    (∀ p ∈ waiting.env :: waiting.script, p.rst = false ∧ p.hclk = .drvLow)
      ∧ waiting.inputAt 2 (fun p => p.hdat = .drvLow) := ⟨by decide, inputAt_of (by decide)⟩
theorem test_witness_AckOnlyCommands : (calm 144).released ∧ (calm 144).quietFor 144 := ⟨calm_released _, calm_quietFor _⟩
theorem test_witness_ReportingCommands : (calm 145).released ∧ (calm 145).quietFor 145 := ⟨calm_released _, calm_quietFor _⟩
theorem test_witness_ReportingCommands_first : (calm 0).env.rst = false ∧ (calm 0).script = [] := ⟨rfl, rfl⟩
theorem test_witness_ResetCommand : (calm 287).released ∧ (calm 287).quietFor 287 := ⟨calm_released _, calm_quietFor _⟩
theorem test_witness_ResetCommand_any :
    ∃ t, exec .reset (calm 300) = .next t ∧ t.enabled ≠ (calm 300).enabled := ⟨_, rfl, by decide +kernel⟩
theorem test_witness_GetDeviceId : (calm 428).released ∧ (calm 428).quietFor 428 := ⟨calm_released _, calm_quietFor _⟩
theorem test_witness_EchoCommand : (calm 142).released ∧ (calm 142).quietFor 142 := ⟨calm_released _, calm_quietFor _⟩
theorem test_witness_UnknownCommand : (calm 1).noReset 1 := calm_noReset 1

/-- Section 2.6, M11: the host sends 0x07 once it has read the first FA. -/
def withParameter : State :=
  { calm 0 with script := List.replicate 144 Pins.quiet ++ hostFrame 0x07 false ++ List.replicate 145 Pins.quiet }

theorem test_witness_ParameterCommands : withParameter.released ∧ withParameter.hostParameter 145 0x07 false 145 := by
  refine ⟨⟨rfl, rfl⟩, List.replicate 145 Pins.quiet, List.replicate 145 Pins.quiet, [], rfl, rfl, rfl, ?_⟩
  intro q hq
  rcases List.mem_append.1 hq with h | h <;> rw [List.eq_of_mem_replicate h] <;> rfl

theorem test_witness_ParameterCommands_timeout :
    (calm 293).released ∧ (calm 293).quietFor 293 ∧ (calm 293).cfg.ack2OnTimeout = true :=
  ⟨calm_released _, calm_quietFor _, rfl⟩
theorem test_witness_ParameterCommands_one_ack :
    ∃ s : State, s.released ∧ s.quietFor 293 ∧ s.cfg.ack2OnTimeout = false :=
  ⟨{ calm 293 with cfg := { Config.default with ack2OnTimeout := false } }, ⟨rfl, rfl⟩,
    quietFor_of_inputs (n := 293) rfl rfl (Nat.le_refl _), rfl⟩
theorem test_witness_ParameterByte : (calm 144).released ∧ (calm 144).quietFor 144 := ⟨calm_released _, calm_quietFor _⟩
theorem test_witness_HandleCommand : (calm 429).released ∧ (calm 429).quietFor 429 := ⟨calm_released _, calm_quietFor _⟩
theorem test_witness_Replies :
    (Instr.selfTestPassed = .selfTestPassed ∧ (0xAA : Byte) = (calm 142).cfg.batOk) ∧ (calm 142).released
      ∧ (calm 142).quietFor 142 := ⟨⟨rfl, rfl⟩, calm_released _, calm_quietFor _⟩
theorem test_witness_RetryLoop :
    ∃ t, exec .opAck (calm 142) = .next t ∧ t.ctl.length = (calm 142).ctl.length := ⟨_, rfl, by decide +kernel⟩
theorem test_witness_SendSequence :
    (calm (144 * seqPausePressBytes.length + 7)).released
      ∧ (calm (144 * seqPausePressBytes.length + 7)).quietFor (144 * seqPausePressBytes.length + 7) :=
  ⟨calm_released _, calm_quietFor _⟩

/-- A `press` of key A whose loop is at `l`, the frames `fs` above it. -/
def pressing (fs : List Frame) (l : LoopLabel) : State := during (fs ++ [.press 0x001C [0x1C] (.loop l)]) 0

theorem test_witness_SequenceAbandoned :
    ({ pressing [.lineRead .clk, Frame.newTransmit 0x1C] (.l3Send 0) with env := inhibited } : State).level .clk = .low
      ∧ ({ pressing [.lineRead .dat, .transmit ⟨0x1C, 0, false, 0⟩ (.bus .t1)] (.l3Send 0) with
          env := hostDat .drvLow } : State).level .dat = .low
      ∧ (pressing [.transmit ⟨0x1C, 0, false, 0⟩ (.fail .collisionData)] (.l3Send 0)).env.rst = false
      ∧ (pressing [.poll (.out true)] .l0).env.rst = false ∧ inhibited.rst = false ∧ (hostDat .drvLow).rst = false :=
  ⟨rfl, rfl, rfl, rfl, rfl, rfl⟩
/-- The loop of `send_sequence` itself. -/
theorem test_witness_SequenceAbandoned_sequence :
    (during [.transmit ⟨0x1C, 0, false, 0⟩ (.fail .collisionClock), .sendSequence [0x1C] (.l3Send 0)] 0).ctl
      = .transmit ⟨0x1C, 0, false, 0⟩ (.fail .collisionClock) :: (fun l => Frame.sendSequence [0x1C] l) (.l3Send 0) :: []
      := rfl
theorem test_witness_SequenceRestarted :
    (pressing [.poll (.out false)] .l0).env.rst = false
      ∧ (during [.press 0x001C [0x1C] (.loop .l1)] 0).env.rst = false := ⟨rfl, rfl⟩
theorem test_witness_PressSucceeds :
    PressForm (calm 154) (.press 0x001C) 0x001C ∧ (calm 154).ctl = [] ∧ (calm 154).released
      ∧ wfKey (calm 154).cfg 0x001C = true ∧ (calm 154).slots.find 0x001C = none
      ∧ (calm 154).slots.free (calm 154).cfg = some 0
      ∧ (calm 154).quietFor (144 * (seqOf (calm 154).cfg 0x001C .press).length + 10) :=
  ⟨Or.inl rfl, rfl, calm_released _, by decide, by decide, by decide,
    quietFor_of_inputs (n := 154) rfl rfl (by decide)⟩
/-- The keycode rows, the longest sequence, and the last free slot. -/
theorem test_witness_PressSucceeds_row :
    ∃ s : State, PressForm s .keycodeSpecialPause 0xFF02 ∧ s.ctl = [] ∧ s.released ∧ wfKey s.cfg 0xFF02 = true
      ∧ s.slots.find 0xFF02 = none ∧ s.slots.free s.cfg = some 5
      ∧ s.quietFor (144 * (seqOf s.cfg 0xFF02 .press).length + 10) := by
  exact ⟨{ held (keys 1 2 3 4 5 0) 1200 with env := { Pins.quiet with reqOp := 1 } },
    Or.inr (Or.inr ⟨show (0xFF02 : Keycode) = mkKey specialHi 0x02 by decide, rfl⟩), rfl, ⟨rfl, rfl⟩, by decide,
    by decide, by decide, quietFor_of_inputs (n := 1200) rfl rfl (by decide)⟩
theorem test_witness_PressNoEffect :
    PressForm (calm 0) (.press 0x0000) 0x0000 ∧ (calm 0).ctl = [] ∧ (calm 0).env.rst = false
      ∧ classify (calm 0).cfg 0x0000 ≠ .reserved ∧ (0x0000 : Keycode) = (calm 0).cfg.keyNone :=
  ⟨Or.inl rfl, rfl, rfl, by decide, rfl⟩
theorem test_witness_PressNoEffect_present :
    classify (calm 0).cfg 0x001C ≠ .reserved ∧ (held (keys 0 0 0 0 0 0x1C) 0).slots.find 0x001C ≠ none := by decide
theorem test_witness_PressNoEffect_full :
    classify (calm 0).cfg 0x003B ≠ .reserved
      ∧ (held (keys 0x1C 0x1B 0x23 0x2B 0x34 0x33) 0).slots.free (calm 0).cfg = none := by decide
theorem test_witness_PressReserved :
    PressForm (calm 0) (.opPress 0xFF00) 0xFF00 ∧ (calm 0).ctl = [] ∧ classify (calm 0).cfg 0xFF00 = .reserved :=
  ⟨Or.inr (Or.inl rfl), rfl, by decide⟩
theorem test_witness_BusyRefused :
    (during [.ack .s0] 0).ctl ≠ [] ∧ KeycodeRow (during [.ack .s0] 0).cfg (.keycodePlain 0x1C) 0x001C :=
  ⟨by simp [during], show (0x001C : Keycode) = mkKey plainHi 0x1C by decide⟩
theorem test_witness_ReleaseSucceeds :
    ∃ s : State, ReleaseForm s (.opRelease 0xFF01) 0xFF01 ∧ s.released ∧ (0xFF01 : Keycode) ≠ s.cfg.keyNone
      ∧ s.slots.find 0xFF01 = some 5 ∧ s.quietFor (144 * (seqOf s.cfg 0xFF01 .release).length + 10) :=
  ⟨held (keys 1 2 3 4 5 0xFF01) 874, Or.inr (Or.inl rfl), ⟨rfl, rfl⟩, by decide, by decide,
    quietFor_of_inputs (n := 874) rfl rfl (by decide)⟩
/-- A keycode row under the request code RELEASE. -/
theorem test_witness_ReleaseSucceeds_row :
    ∃ s : State, ReleaseForm s (.keycodeExtended 0x75) 0xE075 ∧ s.ctl = [] ∧ s.released ∧ (0xE075 : Keycode) ≠ s.cfg.keyNone
      ∧ s.slots.find 0xE075 = some 1 ∧ s.quietFor (144 * (seqOf s.cfg 0xE075 .release).length + 10) := by
  exact ⟨{ held (keys 0 0xE075 0 0 0 0) 442 with env := { Pins.quiet with reqOp := 2 } },
    Or.inr (Or.inr ⟨show (0xE075 : Keycode) = mkKey extByte 0x75 by decide, rfl⟩), rfl, ⟨rfl, rfl⟩, by decide, by decide,
    quietFor_of_inputs (n := 442) rfl rfl (by decide)⟩
theorem test_witness_ReleaseNoEffect :
    ReleaseForm (calm 0) (.release 0x0000) 0x0000 ∧ (calm 0).ctl = [] ∧ (calm 0).env.rst = false
      ∧ (0x0000 : Keycode) = (calm 0).cfg.keyNone ∧ (calm 0).slots.find 0xFF03 = none :=
  ⟨Or.inl rfl, rfl, rfl, rfl, by decide⟩
/-- Under an inhibiting host nothing is released yet. -/
theorem test_witness_ReleaseAllEmpties_any :
    ∃ s t : State, ReleaseAllForm s .releaseAll ∧ s.ctl = [] ∧ RegistryUnique s ∧ exec .releaseAll s = .next t :=
  ⟨{ held (keys 0x1C 0 0x23 0 0 0) 0 with env := inhibited }, _, Or.inl rfl, rfl, by unfold RegistryUnique; decide, rfl⟩
theorem test_witness_ReleaseAllEmpties :
    ∃ s : State, ReleaseAllForm s .releaseAll ∧ s.ctl = [] ∧ s.released ∧ RegistryUnique s ∧ s.quietFor 5256 :=
  ⟨held (keys 0x1C 0x1B 0x23 0x2B 0x34 0x33) 5256, Or.inl rfl, rfl, ⟨rfl, rfl⟩, by unfold RegistryUnique; decide,
    quietFor_of_inputs (n := 5256) rfl rfl (Nat.le_refl _)⟩
theorem test_witness_PressAtomic :
    (∃ t, exec (.press 0x001C) (calm 160) = .next t ∧ Answered t true)
      ∧ ∃ t, exec (.press 0x0000) (calm 160) = .next t ∧ Answered t false :=
  ⟨⟨_, rfl, by unfold Answered; decide +kernel⟩, ⟨_, rfl, by unfold Answered; decide +kernel⟩⟩
theorem test_witness_ReleaseAtomic :
    (∃ t, exec (.release 0xFF02) (held (keys 0xFF02 0 0 0 0 0) 160) = .next t ∧ Answered t true)
      ∧ ∃ t, exec (.release 0x0000) (calm 160) = .next t ∧ Answered t false :=
  ⟨⟨_, rfl, by unfold Answered; decide +kernel⟩, ⟨_, rfl, by unfold Answered; decide +kernel⟩⟩
theorem test_witness_PollIdle : PollForm (calm 4) .poll ∧ (calm 4).ctl = [] ∧ (calm 4).released ∧ (calm 4).quietFor 4 :=
  ⟨Or.inl rfl, rfl, calm_released _, calm_quietFor _⟩
/-- Q2: the host inhibits for two samples and then sends nothing. -/
def inhibiting : State :=
  { calm 0 with
    env := { Pins.quiet with hclk := .drvLow }
    script := List.replicate 3 { Pins.quiet with hclk := .drvLow } ++ List.replicate 10 Pins.quiet }

theorem test_witness_PollIdle_inhibited :
    inhibiting.noReset (2 * 2 + 4) ∧ (∀ j, j < 2 → inhibiting.inputAt (2 * j + 1) (fun p => p.hclk = .drvLow))
      ∧ inhibiting.inputAt (2 * 2 + 1) (fun p => p.hclk = .rel) ∧ inhibiting.inputAt (2 * 2 + 3) (fun p => p.hdat = .rel) := by
  refine ⟨noReset_of (by decide), fun j hj => ?_, inputAt_of (by decide), inputAt_of (by decide)⟩
  have : j = 0 ∨ j = 1 := by omega
  rcases this with rfl | rfl <;> exact inputAt_of (by decide)

/-- Q6: the start bit seen at P1 is gone when `receive` looks for it; the wait is given one unmet sample. -/
def withdrawn : State :=
  { calm 0 with
    env := inhibited
    script := List.replicate 2 inhibited ++ List.replicate 3 (hostDat .drvLow) ++ [Pins.quiet, { Pins.quiet with bound := 1 }]
      ++ List.replicate 10 Pins.quiet }

theorem test_witness_PollIdle_timeout :
    withdrawn.noReset (2 * 1 + 2 * 1 + 9) ∧ (∀ j, j < 1 → withdrawn.inputAt (2 * j + 1) (fun p => p.hclk = .drvLow))
      ∧ withdrawn.inputAt (2 * 1 + 1) (fun p => p.hclk = .rel) ∧ withdrawn.inputAt (2 * 1 + 3) (fun p => p.hdat = .drvLow)
      ∧ withdrawn.startExpires (2 * 1 + 5) 1 := by
  refine ⟨noReset_of (by decide), fun j hj => ?_, inputAt_of (by decide), inputAt_of (by decide), inputAt_of (by decide),
    fun j hj => ?_⟩
  · obtain rfl : j = 0 := by omega
    exact inputAt_of (by decide)
  · have : j = 0 ∨ j = 1 := by omega
    rcases this with rfl | rfl <;> exact inputAt_of (by decide)
theorem test_poll_Q6 :
    answers (exec .poll withdrawn) (fun t => shows t [] false noKeys && !t.result && t.done && t.driven.isEmpty) = true := by
  decide +kernel
theorem test_witness_PollWaits : ∀ p ∈ waiting.env :: waiting.script, p.rst = false ∧ p.hclk = .drvLow := by decide

/-- Program 3: the host inhibits, asks to send and sends 0xF2. -/
def asking : State :=
  { calm 0 with
    env := inhibited
    script := List.replicate 3 inhibited ++ List.replicate 5 (hostDat .drvLow) ++ hostFrame 0xF2 false
      ++ List.replicate 432 Pins.quiet }

theorem test_witness_PollServices : asking.ctl = [] ∧ asking.released ∧ asking.hostCommands 4 0xF2 false 432 := by
  have h : ∀ after : List Pins,
      inhibited :: (List.replicate 3 inhibited ++ List.replicate 5 (hostDat .drvLow) ++ hostFrame 0xF2 false ++ after)
        = List.replicate 4 inhibited ++ List.replicate 5 (hostDat .drvLow) ++ hostFrame 0xF2 false ++ (after ++ []) :=
    fun after => by rw [List.append_nil]; rfl
  refine ⟨rfl, ⟨rfl, rfl⟩, List.replicate 432 Pins.quiet, [], h _, List.length_replicate, fun q hq => ?_⟩
  rw [List.eq_of_mem_replicate hq]
  rfl

theorem test_witness_RegistryOwner :
    (∀ k, ¬ PressForm (calm 0) .reset k) ∧ (∀ k, ¬ ReleaseForm (calm 0) .reset k) ∧ ¬ ReleaseAllForm (calm 0) .reset
      ∧ ∃ t, exec .reset (calm 0) = .next t := by
  simp [PressForm, ReleaseForm, ReleaseAllForm, KeycodeRow, exec, execReset, runBody, callOp]
theorem test_witness_Ownership :
    (during [.lineRead .clk] 0).env.rst = false ∧ (during [.lineRead .clk] 0).ctl = [.lineRead .clk]
      ∧ ∃ t, step (during [.lineRead .clk] 0) = .next t := ⟨rfl, rfl, _, rfl⟩
/-- A step of the Line Transport drives, one of `handle_command` writes the flag, one of `press` the registry. -/
theorem test_witness_Ownership_writes :
    answers (step (during [.assertLow .clk] 0)) (fun t => t.drvClk = .drvLow) = true
      ∧ answers (step (during [.handleCommand 0xF4 (.body [.setEnabled true])] 0)) (fun t => t.enabled) = true
      ∧ answers (step (during [.press 0x001C [0x1C] .write] 0)) (fun t => t.slots ≠ noKeys) = true := by decide +kernel
theorem test_witness_BusyIgnoresPort : (during [.ack .s0] 0).ctl ≠ [] := by simp [during]
theorem test_witness_FlagGatesNothing :
    (∃ t, step (calm 0) = .next t)
      ∧ refuses (step { calm 0 with env := { Pins.quiet with reqValid := true, reqOp := 1, reqKey := 0xE11C } })
        (.reservedKeycode 0xE11C) = true := ⟨⟨_, rfl⟩, by decide +kernel⟩

/-- `press(0xE075)` while its second byte's start bit is on the line, in the `delay(T_SU)` of its cell, with two keys
held. -/
def sending : State :=
  { held (keys 0x1C 0 0xFF02 0 0 0) 0 with
    drvDat := .drvLow
    ctl := [.delay 0, .transmit ⟨0x75, 0x75, true, 0⟩ (.bus (.t3 .setup)), .press 0xE075 [0xE0, 0x75] (.loop (.l3Send 1))] }

/-- Also of NoReentry. -/
theorem test_witness_InvKept : Inv sending ∧ ∃ t, step sending = .next t := by
  refine ⟨⟨by decide, rfl, by unfold RegistryUnique; decide, ?_, ?_, ?_, ?_⟩, _, rfl⟩
  · intro k hk
    have : [(0x1C : Keycode), 0, 0xFF02, 0, 0, 0].all
        (fun k => decide (k = Config.default.keyNone ∨ wfKey Config.default k = true)) = true := by decide
    exact of_decide_eq_true (List.all_eq_true.1 this k hk)
  · exact ⟨rfl, rfl, rfl⟩
  · intro f hf
    simp only [sending, List.mem_cons, List.not_mem_nil, or_false] at hf
    rcases hf with rfl | rfl | rfl
    · trivial
    · exact ⟨rfl, rfl, rfl⟩
    · exact ⟨by decide, by decide, by decide, by decide, show (1 : Nat) < 2 by decide⟩
  · exact ⟨rfl, rfl⟩

theorem test_witness_InvAtReset : Config.default.wf = true := by decide
theorem test_witness_ResetAbandons : ({ sending with env := { Pins.quiet with rst := true } } : State).env.rst = true := rfl
/-- One state for each clause. -/
theorem test_witness_StepRuns :
    (∃ s : State, s.env.rst = false ∧ s.ctl = [] ∧ s.inject = some ⟨.opId4, [6]⟩ ∧ decode s.cfg ⟨.opId4, [6]⟩ = .ok .opAck)
      ∧ (∃ s : State, s.env.rst = false ∧ s.ctl = [] ∧ s.inject = none ∧ s.env.reqValid = true
        ∧ decode s.cfg (requestWord s.env) = .ok .releaseAll)
      ∧ (∃ s : State, s.env.rst = false ∧ s.ctl = [] ∧ s.inject = some ⟨.opId4, [13]⟩
        ∧ decode s.cfg ⟨.opId4, [13]⟩ = .error .unusedOperationId)
      ∧ sending.env.rst = false ∧ sending.ctl ≠ [] :=
  ⟨⟨{ calm 0 with inject := some ⟨.opId4, [6]⟩ }, rfl, rfl, rfl, by decide⟩,
    ⟨{ calm 0 with env := { Pins.quiet with reqValid := true, reqOp := 3 } }, rfl, rfl, rfl, rfl, by decide⟩,
    ⟨{ calm 0 with inject := some ⟨.opId4, [13]⟩ }, rfl, rfl, rfl, by decide⟩, rfl, by simp [sending]⟩
theorem test_witness_IdleStep :
    (calm 0).env.rst = false ∧ (calm 0).ctl = [] ∧ (calm 0).inject = none ∧ (calm 0).env.reqValid = false :=
  ⟨rfl, rfl, rfl, rfl⟩

end Sys2Proof.Tests
end

section
/-!
SUPPORT. What one step of the running frame can do, said once: the event it makes of its own, and where the control goes
(R12, R30, R31). Every fact about an arbitrary step, under any host, is read off `stepFrame_moves`.
-/

namespace Sys2Proof.Machine

/-- What the running frame does of its own in one step, before the control moves on (R22, R25, R26). -/
inductive Act : Frame → State → State → Prop
  | nothing (f : Frame) (s : State) : Act f s s
  | released (l : Line) (s : State) : Act (.lineRelease l) s (s.drive l .rel)
  | lowered (l : Line) (s : State) : Act (.assertLow l) s (s.drive l .drvLow)
  | sampled (l : Line) (s : State) : Act (.lineRead l) s (s.sample l)
  | waited (f : Frame) (n : Nat) (s : State) : Act f s (s.wait n)
  | logged (cmd : Byte) (l : HandlerLabel) (s : State) : Act (.handleCommand cmd l) s (s.emit (.logUnknown cmd))
  | flagged (cmd : Byte) (l : HandlerLabel) (v : Bool) (s : State) :
    Act (.handleCommand cmd l) s { s with enabled := v }
  | recorded (k : Keycode) (q : List Byte) (l : KeyLabel) (s : State) : Act (.press k q l) s (s.record k)
  | cleared (k : Keycode) (q : List Byte) (l : KeyLabel) (s : State) : Act (.release k q l) s (s.clear k)

/-- How far from the client an operation stands; a pseudo-operation (R92) stands where what it is part of does. -/
def Frame.level (f : Frame) : Nat :=
  match f with
  | .releaseAll _ => 0
  | .press _ _ _ => 1
  | .release _ _ _ => 1
  | .sendSequence _ _ => 2
  | .poll _ => 3
  | .handleCommand _ _ => 4
  | .ack _ => 5
  | .sendUntilOk _ _ => 5
  | .transmit _ _ => 6
  | .receive _ _ => 6
  | .clockCycle _ => 6
  | .lineRelease _ => 7
  | .assertLow _ => 7
  | .lineRead _ => 7
  | .delay _ => 7

theorem level_kind (f : Frame) : f.kind.level = f.level := by cases f <;> rfl

/-- A frame that goes on keeps its level. -/
theorem level_of_kind {f g : Frame} (h : f.kind = g.kind) : f.level = g.level := by
  rw [← level_kind f, h, level_kind]

theorem level_le (f : Frame) : f.level ≤ 7 := by cases f <;> simp [Frame.level]

/-- The primitives are the frames of the last level. -/
theorem level_of_isPrimitive {f : Frame} (h : f.isPrimitive = true) : f.level = 7 := by
  cases f <;> first | rfl | cases h

theorem isPrimitive_of_level {f : Frame} (h : 6 < f.level) : f.isPrimitive = true := by
  cases f <;> first | rfl | simp [Frame.level] at h

/-- What one step of the running frame `f` can do to a state, its callers `fs` below it: an act of its own, then a
return, the next step of the same operation, or a call of one further from the client (R12, R31). -/
inductive Moves (f : Frame) (fs : List Frame) (s : State) : State → Prop
  | returns (s' : State) (r : Ret) (ha : Act f s s') : Moves f fs s (s'.returnFrom f r fs)
  | goes (s' : State) (f' : Frame) (ha : Act f s s') (hk : f'.kind = f.kind) : Moves f fs s (s'.goto f' fs)
  | calls (e f' : Frame) (hk : f'.kind = f.kind) (hl : f.level < e.level) : Moves f fs s (s.callFrom e f' fs)

section

variable (fs : List Frame) (s : State)

/-- A step that calls the primitive of a bus event. -/
theorem moves_primitive {f p : Frame} (c : Config) (h : f.primitive c = some p) (hf : f.level < 7) :
    Moves f fs s (s.callFrom p f fs) :=
  .calls p f rfl (by rw [level_of_isPrimitive (primitive_isPrimitive h)]; exact hf)

theorem stepPoll_moves (l : PollLabel) : Moves (.poll l) fs s (stepPoll l fs s) := by
  cases l with
  | bus e => exact moves_primitive fs s s.cfg rfl (by decide : 3 < 7)
  | p2 => exact .calls _ _ rfl (by decide : 3 < 6)
  | p3 b => exact .calls _ _ rfl (by decide : 3 < 4)
  | out v => exact .returns s _ (.nothing _ _)

theorem stepTransmit_moves (v : TxLocals) (l : TxLabel) : Moves (.transmit v l) fs s (stepTransmit v l fs s) := by
  cases l with
  | bus e => exact moves_primitive fs s s.cfg rfl (by decide : 6 < 7)
  | t2 => exact .goes s _ (.nothing _ _) rfl
  | t7 => exact .goes s _ (.nothing _ _) rfl
  | t8 => exact .returns s _ (.nothing _ _)
  | fail r => exact .returns s _ (.nothing _ _)

theorem stepReceive_moves (v : RxLocals) (l : RxLabel) : Moves (.receive v l) fs s (stepReceive v l fs s) := by
  cases l with
  | bus e => exact moves_primitive fs s s.cfg rfl (by decide : 6 < 7)
  | rx0 => exact .goes s _ (.nothing _ _) rfl
  | rx2 => exact .goes s _ (.nothing _ _) rfl
  | rx0Out => exact .returns s _ (.nothing _ _)
  | rx7 => exact .returns s _ (.nothing _ _)

theorem stepHandle_moves (cmd : Byte) (l : HandlerLabel) :
    Moves (.handleCommand cmd l) fs s (stepHandle cmd l fs s) := by
  rcases l with _ | (_ | ⟨_ | b | _ | v | _, rest⟩)
  · exact .goes s _ (.nothing _ _) rfl
  · exact .returns s _ (.nothing _ _)
  · exact .calls _ _ rfl (by decide : 4 < 5)
  · exact .calls _ _ rfl (by decide : 4 < 6)
  · exact .calls _ _ rfl (by decide : 4 < 6)
  · exact .goes _ _ (.flagged cmd _ v s) rfl
  · exact .goes _ _ (.logged cmd _ s) rfl

/-- The retry loop of a frame `at_ l`, given what its exit does. -/
theorem loopStep_moves {seq : List Byte} {at_ : LoopLabel → Frame} {exit : State} (l : LoopLabel)
    (hk : ∀ m n, (at_ m).kind = (at_ n).kind) (hl : (at_ l).level < 3) (hexit : Moves (at_ l) fs s exit) :
    Moves (at_ l) fs s (s.loopStep seq l at_ exit fs) := by
  cases l with
  | l0 => exact .calls _ _ rfl hl
  | l1 => exact .goes s _ (.nothing _ _) (hk _ _)
  | l2 j =>
    simp only [State.loopStep]
    split
    · exact hexit
    · exact .goes s _ (.nothing _ _) (hk _ _)
  | l3 j => exact .goes _ _ (.waited _ _ s) (hk _ _)
  | l3Send j => exact .calls _ _ rfl (Nat.lt_of_lt_of_le hl (by decide : 3 ≤ 6))

theorem stepPress_moves (k : Keycode) (q : List Byte) (l : KeyLabel) :
    Moves (.press k q l) fs s (stepPress k q l fs s) := by
  cases l with
  | entry =>
    simp only [stepPress]
    split
    · exact .returns s _ (.nothing _ _)
    · split
      · exact .returns s _ (.nothing _ _)
      · exact .goes s _ (.nothing _ _) rfl
  | loop m =>
    exact loopStep_moves (at_ := fun m => .press k q (.loop m)) fs s m (fun _ _ => rfl) (by decide : 1 < 3)
      (.goes s _ (.nothing _ _) rfl)
  | write => exact .goes _ _ (.recorded k q _ s) rfl
  | finish => exact .returns s _ (.nothing _ _)

theorem stepRelease_moves (k : Keycode) (q : List Byte) (l : KeyLabel) :
    Moves (.release k q l) fs s (stepRelease k q l fs s) := by
  cases l with
  | entry =>
    simp only [stepRelease]
    split
    · exact .returns s _ (.nothing _ _)
    · exact .goes s _ (.nothing _ _) rfl
  | loop m =>
    exact loopStep_moves (at_ := fun m => .release k q (.loop m)) fs s m (fun _ _ => rfl) (by decide : 1 < 3)
      (.goes s _ (.nothing _ _) rfl)
  | write => exact .goes _ _ (.cleared k q _ s) rfl
  | finish => exact .returns s _ (.nothing _ _)

theorem stepReleaseAll_moves (n : Nat) : Moves (.releaseAll n) fs s (stepReleaseAll n fs s) := by
  cases n with
  | zero => exact .returns s _ (.nothing _ _)
  | succ i =>
    simp only [stepReleaseAll]
    split
    · exact .goes s _ (.nothing _ _) rfl
    · exact .calls _ _ rfl (by decide : 0 < 1)

/-- One inversion lemma of a step, whatever the host does. -/
theorem stepFrame_moves (f : Frame) : Moves f fs s (stepFrame f fs s) := by
  cases f with
  | poll l => exact stepPoll_moves fs s l
  | press k q l => exact stepPress_moves fs s k q l
  | release k q l => exact stepRelease_moves fs s k q l
  | releaseAll n => exact stepReleaseAll_moves fs s n
  | handleCommand cmd l => exact stepHandle_moves fs s cmd l
  | transmit v l => exact stepTransmit_moves fs s v l
  | receive v l => exact stepReceive_moves fs s v l
  | ack l =>
    cases l with
    | s0 => exact .calls _ _ rfl (by decide : 5 < 6)
    | s2 => exact .returns s _ (.nothing _ _)
  | sendUntilOk b l =>
    cases l with
    | s0 => exact .calls _ _ rfl (by decide : 5 < 6)
    | s2 => exact .returns s _ (.nothing _ _)
  | sendSequence q l =>
    exact loopStep_moves (at_ := fun m => .sendSequence q m) fs s l (fun _ _ => rfl) (by decide : 2 < 3)
      (.returns s _ (.nothing _ _))
  | lineRelease l => exact .returns _ _ (.released l s)
  | assertLow l => exact .returns _ _ (.lowered l s)
  | lineRead l => exact .returns _ _ (.sampled l s)
  | delay n => exact .returns _ _ (.waited _ n s)
  | clockCycle p =>
    cases p with
    | none => exact .returns s _ (.nothing _ _)
    | some q => exact moves_primitive fs s s.cfg rfl (by decide : 6 < 7)

end

/-! ### What an act, and so a step, leaves as it was -/

section

variable {f : Frame} {fs : List Frame} {s t : State}

theorem Act.cfg (h : Act f s t) : t.cfg = s.cfg := by cases h <;> simp

/-- R26: only `handle_command` writes the flag. -/
theorem Act.enabled (h : Act f s t) : t.enabled = s.enabled ∨ ∃ cmd l, f = .handleCommand cmd l := by
  cases h with
  | flagged cmd l v => exact .inr ⟨cmd, l, rfl⟩
  | logged cmd l => exact .inr ⟨cmd, l, rfl⟩
  | _ => exact .inl (by simp)

/-- R25: only `press` and `release` write the registry. -/
theorem Act.slots (h : Act f s t) :
    t.slots = s.slots ∨ (∃ k q l, f = .press k q l) ∨ ∃ k q l, f = .release k q l := by
  cases h with
  | recorded k q l => exact .inr (.inl ⟨k, q, l, rfl⟩)
  | cleared k q l => exact .inr (.inr ⟨k, q, l, rfl⟩)
  | _ => exact .inl (by simp)

/-- R22, R106: only the two driving primitives drive. -/
theorem Act.undriven (h : Act f s t) : Undriven s t ∨ ∃ l, f = .lineRelease l ∨ f = .assertLow l := by
  cases h with
  | released l => exact .inr ⟨l, .inl rfl⟩
  | lowered l => exact .inr ⟨l, .inr rfl⟩
  | _ => exact .inl (by simp [Undriven, State.driven, Event.driven, List.filterMap_cons])

/-- No act of a frame is a transfer: a byte has passed when `transmit` or `receive` returns. -/
theorem Act.transfers (h : Act f s t) : t.transfers = s.transfers := by
  cases h <;> simp [State.transfers, Event.transfer, List.filterMap_cons]

/-- The state in which the act has been made, and the parts of it that the move of the control does not touch. -/
theorem Moves.act (h : Moves f fs s t) :
    ∃ s', Act f s s' ∧ t.cfg = s'.cfg ∧ t.enabled = s'.enabled ∧ t.slots = s'.slots ∧ Undriven s' t := by
  cases h with
  | returns s' r ha =>
    exact ⟨s', ha, by simp, by simp, by simp, by simp [Undriven, State.driven, Event.driven, List.filterMap_cons]⟩
  | goes s' f' ha hk => exact ⟨s', ha, rfl, rfl, rfl, rfl, rfl, rfl⟩
  | calls e f' hk hl => exact ⟨s, .nothing f s, rfl, rfl, rfl, rfl, rfl, rfl⟩

theorem returnFrom_transfers (s : State) (f : Frame) (r : Ret) (fs : List Frame) :
    (s.returnFrom f r fs).transfers = s.transfers ++ (Event.returned f r).transfer.toList := by
  cases h : (Event.returned f r).transfer <;> simp [State.transfers, h]

/-- Where the control goes in a step, and what has passed between device and host by then. -/
theorem Moves.control (h : Moves f fs s t) :
    (∃ r, t.ctl = popped s.cfg r fs ∧ t.transfers = s.transfers ++ (Event.returned f r).transfer.toList)
      ∨ (∃ f', t.ctl = f' :: fs ∧ f'.kind = f.kind ∧ t.transfers = s.transfers)
      ∨ ∃ e f', t.ctl = e :: f' :: fs ∧ f'.kind = f.kind ∧ f.level < e.level ∧ t.transfers = s.transfers := by
  cases h with
  | returns s' r ha => exact .inl ⟨r, by rw [returnFrom_ctl, ha.cfg], by rw [returnFrom_transfers, ha.transfers]⟩
  | goes s' f' ha hk => exact .inr (.inl ⟨f', rfl, hk, ha.transfers⟩)
  | calls e f' hk hl => exact .inr (.inr ⟨e, f', rfl, hk, hl, rfl⟩)

theorem Moves.cfg (h : Moves f fs s t) : t.cfg = s.cfg := by
  obtain ⟨s', ha, hc, _⟩ := h.act
  exact hc.trans ha.cfg

end

/-! ### The step of a busy engine -/

theorem device_eq {s : State} {f : Frame} {fs : List Frame} (h : s.ctl = f :: fs) : s.device = stepFrame f fs s := by
  simp [State.device, h]

theorem device_moves {s : State} {f : Frame} {fs : List Frame} (h : s.ctl = f :: fs) : Moves f fs s s.device :=
  device_eq h ▸ stepFrame_moves fs s f

@[simp] theorem device_cfg (s : State) : s.device.cfg = s.cfg := by
  cases h : s.ctl with
  | nil => simp [State.device, h]
  | cons f fs => exact (device_moves h).cfg

/-- What has passed between device and host stays in the record. -/
theorem device_transfers (s : State) : ∃ more, s.device.transfers = s.transfers ++ more := by
  cases h : s.ctl with
  | nil => exact ⟨[], by simp [State.device, h]⟩
  | cons f fs =>
    rcases (device_moves h).control with ⟨r, _, ht⟩ | ⟨f', _, _, ht⟩ | ⟨e, f', _, _, _, ht⟩
    · exact ⟨_, ht⟩
    · exact ⟨[], by simp [ht]⟩
    · exact ⟨[], by simp [ht]⟩

theorem Undriven.trans {s t u : State} (h : Undriven s t) (g : Undriven t u) : Undriven s u := by
  obtain ⟨h1, h2, h3⟩ := h
  obtain ⟨g1, g2, g3⟩ := g
  exact ⟨g1.trans h1, g2.trans h2, g3.trans h3⟩

theorem undriven_passTime (s : State) : Undriven s s.passTime := by simp [Undriven, State.driven]

@[simp] theorem passTime_transfers (s : State) : s.passTime.transfers = s.transfers := by simp [State.transfers]

theorem step_busy {s : State} (hr : s.env.rst = false) {f : Frame} {fs : List Frame} (h : s.ctl = f :: fs) :
    step s = .next s.tick := by
  simp [step, hr, h]

/-! ### The run of a called operation -/

/-- What every step above depth `d` keeps, a run keeps. -/
theorem runUntil_induct {P : State → Prop} {d : Nat} (hstep : ∀ u, d < u.ctl.length → P u → P u.tick) (n : Nat) :
    ∀ u, P u → P (runUntil d n u) := by
  induction n with
  | zero => exact fun u h => h
  | succ n ih =>
    intro u h
    simp only [runUntil]
    split
    · exact h
    · rename_i hrun
      exact ih _ (hstep u (by omega) h)

/-- What holds as an operation starts, and at each of its steps goes on to hold, holds where its call ends. -/
theorem call_induct {P : State → Prop} {s : State} {f : Frame} (h0 : P (s.start f))
    (hstep : ∀ u, s.ctl.length < u.ctl.length → P u → P u.tick) : P (s.call f) :=
  runUntil_induct hstep s.horizon (s.start f) h0

end Sys2Proof.Machine
end

section
/-!
The invariant of an engine that only its client starts (R24, R27, R31, R207): it holds at reset and every step keeps it;
and what it says of the depth of the stack (R31, R244).
-/

namespace Sys2Proof.Machine

/-! ### Where the invariant begins -/

/-- An idle engine with an empty registry and both lines released. -/
theorem inv_of_cleared {s : State} (hcfg : s.cfg.wf = true) (hinj : s.inject = none)
    (hslots : s.slots = Registry.empty s.cfg) (hctl : s.ctl = []) (hlines : s.released) : Inv s where
  config := hcfg
  clientOnly := hinj
  unique := by simp [RegistryUnique, hslots, Registry.empty, Registry.toList]
  slotsWf := by simp [SlotsWellFormed, hslots, Registry.empty, Registry.toList]
  stack := by rw [hctl]; trivial
  frames := by simp [hctl]
  lines := by rw [LinesOk, hctl]; exact hlines

theorem inv_hardReset {s : State} (hcfg : s.cfg.wf = true) : Inv s.hardReset :=
  inv_of_cleared hcfg rfl rfl rfl ⟨rfl, rfl⟩

/-- Settles O56: after reset the engine is idle, its registry empty, its lines released. -/
theorem invAtReset : Obligations.InvAtReset :=
  have h (c : Config) (hc : c.wf = true) : Inv (State.resetWith c) := inv_of_cleared hc rfl rfl rfl ⟨rfl, rfl⟩
  ⟨h Config.default (by decide), h⟩

/-! ### The client's requests -/

section

variable {s t : State} (hs : Inv s) (hidle : s.ctl = [])
include hs hidle

/-- R27: an idle engine has released both lines. -/
theorem Inv.released_of_idle : s.released := by
  have := hs.lines
  rwa [LinesOk, hidle] at this

/-- An external operation starts in the invariant. -/
theorem inv_start {f : Frame} (hext : f.external = true) (hf : FrameOk s.cfg s.slots f) : Inv (s.start f) := by
  obtain ⟨hc, hd⟩ := hs.released_of_idle hidle
  have hp : f.isPrimitive = false := by cases f <;> first | rfl | cases hext
  have hn : f.framed = false := by cases f <;> first | rfl | cases hext
  obtain ⟨lc, ld⟩ := lines_of_not_framed s.drvDat hn
  have hctl : (s.start f).ctl = [f] := by rw [State.start, hidle]
  refine inv_of hs rfl hs.clientOnly.symm rfl (hctl ▸ hext) ?_ ?_
  · rw [hctl]
    exact fun g hg => List.mem_singleton.1 hg ▸ hf
  · rw [LinesOk, hctl, operating_of_kind rfl hp]
    exact ⟨hc.trans lc.symm, ld.2 hd⟩

/-- Its call keeps the invariant, wherever the described inputs end. -/
theorem inv_call_external {f : Frame} (hext : f.external = true) (hf : FrameOk s.cfg s.slots f) : Inv (s.call f) :=
  call_induct (inv_start hs hidle hext hf) fun _ _ hu => inv_passTime (inv_device hu)

theorem inv_request {f : Frame} (hext : f.external = true) (hf : FrameOk s.cfg s.slots f) (h : request f s = .next t) :
    Inv t := by
  unfold request at h
  split at h
  · cases h
  · cases h
    exact inv_call_external hs hidle hext hf

/-- R194 K0: a `press` that is not refused is of no reserved Keycode. -/
theorem inv_requestPress {k : Keycode} (h : requestPress k s = .next t) : Inv t := by
  unfold requestPress at h
  split at h
  · cases h
  · split at h
    · cases h
    · rename_i hres
      cases h
      exact inv_call_external hs hidle rfl ⟨rfl, hres⟩

/-- R89: whatever stands on the port is one of the four requests. -/
theorem inv_portRequest {i : Instr} (hi : decode s.cfg (requestWord s.env) = .ok i) (h : exec i s = .next t) :
    Inv t := by
  rw [requestWord, decode_requestBytes] at hi
  cases hi
  split at h
  · exact inv_request hs hidle (f := Frame.newPoll) rfl trivial h
  · split at h
    · exact inv_requestPress hs hidle h
    · split at h
      · exact inv_request hs hidle (f := Frame.newRelease s.cfg _) rfl rfl h
      · exact inv_request hs hidle (f := .releaseAll nSlots) rfl (Nat.le_refl nSlots) h

end

/-- R250: an engine that only its client starts takes nothing but what stands on the port. -/
theorem Inv.fetch {s : State} (hs : Inv s) : s.fetch = if s.env.reqValid then some (requestWord s.env) else none := by
  rw [State.fetch, hs.clientOnly]

/-- Settles O55: a reset leads to the invariant's beginning, a step of a busy engine keeps it by the lemma of the
running operation, a request starts an operation in it. -/
theorem invKept : Obligations.InvKept := by
  intro s t hs h
  unfold step at h
  split at h
  · cases h
    exact inv_passTime (inv_hardReset hs.config)
  · split at h
    · cases h
      exact inv_passTime (inv_device hs)
    · rename_i hidle
      rw [hs.fetch] at h
      cases hv : s.env.reqValid <;> simp only [hv, if_true, Bool.false_eq_true, if_false] at h
      · cases h
        exact inv_passTime (inv_of hs rfl rfl rfl hs.stack hs.frames hs.lines)
      · split at h
        · exact inv_portRequest hs hidle ‹_› h
        · cases h

/-! ### The depth of the stack -/

/-- An operation id stands at one depth only. -/
theorem depth_of_opid {f g : Frame} {n : Nat} (hf : f.opid = some n) (hg : g.opid = some n) : f.depth = g.depth := by
  have key : ∀ x : Frame, x.opid = some n →
      x.depth = [0, 3, 1, 2, 1, 4, 5, 6, 5, 7, 7, 7, 7].getD n 0 := by
    intro x hx
    cases x <;> cases hx <;> rfl
  rw [key f hf, key g hg]

/-- R31: down a stack of the call graph the depth falls. -/
theorem stackOk_sorted {c : Config} {ctl : List Frame} (h : StackOk c ctl) :
    ctl.Pairwise (fun f g => g.depth < f.depth) := by
  rw [← List.isChain_iff_pairwise]
  induction ctl with
  | nil => exact .nil
  | cons f fs ih =>
    cases fs with
    | nil => exact .singleton f
    | cons g gs => exact .cons_cons (depth_lt_of_calls h.1) (ih h.2)

/-- Settles O54: each call of the graph goes deeper, there are seven depths, and an operation id stands at one. -/
theorem noReentry : Obligations.NoReentry := by
  intro s hs
  refine ⟨stackOk_depth hs.stack, List.pairwise_filterMap.2 ((stackOk_sorted hs.stack).imp ?_)⟩
  rintro f g hlt n hf m hg rfl
  exact absurd (depth_of_opid hf hg) (Nat.ne_of_gt hlt)

end Sys2Proof.Machine
end

section
/-!
The wire (R41), and who writes what (R22, R25, R26, R106): the acts of one step, and the operations that do not touch
the registry whatever the host does. And the refusal of an external operation during another (R32).
-/

namespace Sys2Proof.Machine

/-! ### The wire -/

theorem wireLevel_low_iff (dev host : Drive) : wireLevel dev host = .low ↔ dev = .drvLow ∨ host = .drvLow := by
  cases dev <;> cases host <;> decide

theorem wireLevel_high_iff (dev host : Drive) : wireLevel dev host = .high ↔ dev = .rel ∧ host = .rel := by
  cases dev <;> cases host <;> decide

/-- Settles O9, by the four cases of the two drivers. -/
theorem wireLevel_of_drivers : Obligations.WireLevel := fun s l =>
  ⟨wireLevel_low_iff (s.drv l) (s.hdrv l), wireLevel_high_iff (s.drv l) (s.hdrv l)⟩

/-! ### What an instruction calls -/

/-- The state with a Keycode on `req_key` (R250). -/
def State.offering (s : State) (k : Keycode) : State := { s with env := { s.env with reqKey := k } }

/-- A KEYCODE16 row is its Keycode under the request code that stands on the port. -/
theorem exec_keycodeRow {s : State} {i : Instr} {k : Keycode} (h : KeycodeRow s.cfg i k) :
    exec i s = requestKey k s := by
  unfold KeycodeRow at h
  split at h
  iterate 6 (subst h; rfl)
  cases h

section

variable {s : State} (k : Keycode)

theorem requestKey_poll (h : s.env.reqOp = 0) : requestKey k s = request Frame.newPoll (s.offering k) := by
  simp [requestKey, h, State.offering]

theorem requestKey_press (h : s.env.reqOp = 1) : requestKey k s = requestPress k (s.offering k) := by
  simp [requestKey, h, State.offering]

theorem requestKey_release (h : s.env.reqOp = 2) : requestKey k s = requestRelease k (s.offering k) := by
  simp [requestKey, h, State.offering]

theorem requestKey_releaseAll (h : s.env.reqOp = 3) : requestKey k s = request (.releaseAll nSlots) (s.offering k) := by
  simp [requestKey, h, State.offering]

end

/-- R89: there are four request codes. -/
theorem requestCode_cases (op : BitVec 2) : op = 0 ∨ op = 1 ∨ op = 2 ∨ op = 3 := by
  revert op
  decide

theorem request_idle {s : State} (f : Frame) (h : s.ctl = []) : request f s = .next (s.call f) := by
  simp [request, State.busy, h]

/-- An accepted request is a call. -/
theorem call_of_request {s t : State} {f : Frame} (h : request f s = .next t) : t = s.call f := by
  unfold request at h
  split at h
  · cases h
  · exact (Host.Outcome.next.inj h).symm

/-! ### The refusal of a busy engine -/

section

variable {s : State} (h : s.ctl ≠ [])
include h

theorem request_busy (f : Frame) : request f s = .refused .engineBusy := by simp [request, State.busy, h]

theorem requestPress_busy (k : Keycode) : requestPress k s = .refused .engineBusy := by
  simp [requestPress, State.busy, h]

theorem requestKey_busy (k : Keycode) : requestKey k s = .refused .engineBusy := by
  have hk : (s.offering k).ctl ≠ [] := h
  rcases requestCode_cases s.env.reqOp with ho | ho | ho | ho
  · rw [requestKey_poll k ho, request_busy hk]
  · rw [requestKey_press k ho, requestPress_busy hk]
  · rw [requestKey_release k ho, requestRelease, request_busy hk]
  · rw [requestKey_releaseAll k ho, request_busy hk]

end

/-- Settles O41: each row that asks for an external operation is a request, and a busy engine refuses it. -/
theorem busyRefused : Obligations.BusyRefused := by
  intro i s h hi
  rcases hi with rfl | ⟨k, rfl⟩ | ⟨k, rfl⟩ | rfl | ⟨k, rfl⟩ | rfl | ⟨k, hk⟩
  · exact request_busy h _
  · exact requestPress_busy h k
  · exact request_busy h _
  · exact request_busy h _
  · exact requestPress_busy h k
  · exact request_busy h _
  · rw [exec_keycodeRow hk]
    exact requestKey_busy h k

/-! ### One step: who writes what -/

/-- The callers of a primitive that drives: in an engine that only its client starts they are `transmit` or `receive`
at a bus event, since `poll` calls `line_read` only (R106) and `clock_cycle()` is no frame of its own. -/
theorem caller_of_driver {s : State} (hs : Inv s) {f : Frame} {fs : List Frame} (hctl : s.ctl = f :: fs) {l : Line}
    (hf : f = .lineRelease l ∨ f = .assertLow l) :
    ∃ g gs, fs = g :: gs ∧ ((∃ v e, g = .transmit v (.bus e)) ∨ ∃ v e, g = .receive v (.bus e)) := by
  have hp : f.isPrimitive = true := by rcases hf with rfl | rfl <;> rfl
  have hread (m : Line) : f ≠ .lineRead m := by rcases hf with rfl | rfl <;> simp
  have hst := hs.stack' hctl
  cases fs with
  | nil =>
    have hext : f.external = true := hst
    rcases hf with rfl | rfl <;> cases hext
  | cons g gs =>
    refine ⟨g, gs, rfl, ?_⟩
    have hg := calls_primitive hst.1 hp
    unfold Frame.primitive at hg
    split at hg
    · exact .inl ⟨_, _, rfl⟩
    · exact .inr ⟨_, _, rfl⟩
    · rename_i e
      cases e <;> exact absurd (Option.some.inj hg).symm (hread _)
    · exact absurd hst.2 (not_stackOk_pseudo rfl rfl)
    · cases hg

/-- Settles O51: a step makes one act of its frame, and each act names the frames that make it. -/
theorem ownership : Obligations.Ownership := by
  intro f fs s t hr hctl ht
  rw [step_busy hr hctl] at ht
  cases ht
  obtain ⟨s', ha, hcfg, hen, hsl, hdr⟩ := (device_moves hctl).act
  refine ⟨?_, ?_, ?_, ?_⟩
  · simp [State.tick]
  · intro hdriven
    obtain ⟨l, hl⟩ := ha.undriven.resolve_left fun hu =>
      hdriven ((hu.trans hdr).trans (undriven_passTime _))
    exact ⟨⟨l, hl⟩, fun hs => caller_of_driver hs hctl hl⟩
  · intro hne
    refine ha.enabled.resolve_left fun he => hne ?_
    rw [State.tick, State.passTime_enabled, hen, he]
  · intro hne
    refine ha.slots.resolve_left fun he => hne ?_
    rw [State.tick, State.passTime_slots, hsl, he]

/-! ### The registry under an operation that does not own it -/

theorem popped_length (c : Config) (r : Ret) (fs : List Frame) : (popped c r fs).length = fs.length := by
  cases fs <;> rfl

section

variable {s : State} {f : Frame} {above base : List Frame} {n : Nat}

/-- R25: a step of an operation below `press` and `release` keeps the registry. -/
theorem device_slots {fs : List Frame} (hctl : s.ctl = f :: fs) (hl : 2 ≤ f.level) : s.device.slots = s.slots := by
  obtain ⟨s', ha, _, _, hsl, _⟩ := (device_moves hctl).act
  refine hsl.trans (ha.slots.resolve_right ?_)
  rintro (⟨k, q, l, rfl⟩ | ⟨k, q, l, rfl⟩) <;> exact absurd hl (by decide : ¬ 2 ≤ 1)

/-- What stands above `base` stays at its level or further from the client, until the lowest of it has returned. -/
theorem device_above (hctl : s.ctl = above ++ base) (hne : above ≠ []) (hl : ∀ g ∈ above, n ≤ g.level) :
    (∃ r, s.device.ctl = popped s.cfg r base)
      ∨ ∃ above', s.device.ctl = above' ++ base ∧ above' ≠ [] ∧ ∀ g ∈ above', n ≤ g.level := by
  obtain ⟨f, as, rfl⟩ := List.exists_cons_of_ne_nil hne
  obtain ⟨hf, has⟩ := List.forall_mem_cons.1 hl
  rcases (device_moves (f := f) (fs := as ++ base) hctl).control with
    ⟨r, hc, _⟩ | ⟨f', hc, hk, _⟩ | ⟨e, f', hc, hk, he, _⟩
  · cases as with
    | nil => exact .inl ⟨r, hc⟩
    | cons a as =>
      obtain ⟨ha, has⟩ := List.forall_mem_cons.1 has
      refine .inr ⟨a.deliver s.cfg r :: as, hc, by simp, List.forall_mem_cons.2 ⟨?_, has⟩⟩
      rwa [level_of_kind (deliver_kind s.cfg r a)]
  · exact .inr ⟨f' :: as, hc, by simp, List.forall_mem_cons.2 ⟨level_of_kind hk ▸ hf, has⟩⟩
  · exact .inr ⟨e :: f' :: as, hc, by simp, List.forall_mem_cons.2
      ⟨hf.trans he.le, List.forall_mem_cons.2 ⟨level_of_kind hk ▸ hf, has⟩⟩⟩

end

/-- A point of a run above `base` at which the registry is `r` and nothing above `base` may write it. -/
def KeylessAbove (base : List Frame) (r : Registry) (u : State) : Prop :=
  u.slots = r ∧ (u.ctl.length ≤ base.length
    ∨ ∃ above, u.ctl = above ++ base ∧ above ≠ [] ∧ ∀ g ∈ above, 2 ≤ g.level)

theorem keylessAbove_tick {base : List Frame} {r : Registry} {u : State} (hd : base.length < u.ctl.length)
    (h : KeylessAbove base r u) : KeylessAbove base r u.tick := by
  obtain ⟨hr, habove⟩ := h
  obtain ⟨above, hctl, hne, hl⟩ := habove.resolve_left (Nat.not_le.2 hd)
  constructor
  · obtain ⟨f, as, rfl⟩ := List.exists_cons_of_ne_nil hne
    rw [State.tick, State.passTime_slots, device_slots hctl (hl f (by simp)), hr]
  · rw [State.tick, State.passTime_ctl]
    refine (device_above hctl hne hl).imp_left ?_
    rintro ⟨x, hx⟩
    rw [hx, popped_length]

/-- The call of an operation below `press` and `release` keeps the registry, whatever the host does. -/
theorem call_slots (s : State) {f : Frame} (hf : 2 ≤ f.level) : (s.call f).slots = s.slots :=
  (call_induct (P := KeylessAbove s.ctl s.slots) ⟨rfl, .inr ⟨[f], rfl, by simp, by simpa using hf⟩⟩
    fun _ hd hu => keylessAbove_tick hd hu).1

theorem callOp_slots {s t : State} {f : Frame} (hf : 2 ≤ f.level) (h : callOp f s = .next t) : t.slots = s.slots := by
  cases h
  exact call_slots s hf

theorem request_slots {s t : State} {f : Frame} (hf : 2 ≤ f.level) (h : request f s = .next t) : t.slots = s.slots := by
  rw [call_of_request h]
  exact call_slots s hf

/-- R59: the host's half of a frame is not the engine's. -/
theorem withHost_slots (s : State) (ps : List Pins) : (s.withHost ps).slots = s.slots := by cases ps <;> rfl

/-- A KEYCODE16 row that asks for no `press`, `release` or `releaseAll` asks for `poll`. -/
theorem keycodeRow_slots {i : Instr} {k : Keycode} {s t : State} (hp : ∀ k, ¬ PressForm s i k)
    (hr : ∀ k, ¬ ReleaseForm s i k) (ha : ¬ ReleaseAllForm s i) (h : exec i s = .next t) (hk : KeycodeRow s.cfg i k) :
    t.slots = s.slots := by
  rw [exec_keycodeRow hk] at h
  rcases requestCode_cases s.env.reqOp with ho | ho | ho | ho
  · rw [requestKey_poll k ho] at h
    exact request_slots (s := s.offering k) (f := Frame.newPoll) (by decide) h
  · exact absurd (.inr (.inr ⟨hk, ho⟩)) (hp k)
  · exact absurd (.inr (.inr ⟨hk, ho⟩)) (hr k)
  · exact absurd (.inr (.inr ⟨⟨k, hk⟩, ho⟩)) ha

/-- Settles O50: every other row calls an operation below `press` and `release`, whose run keeps the registry. -/
theorem registryOwner : Obligations.RegistryOwner := by
  intro i s t hp hr ha h
  cases i with
  | press k => exact absurd (.inl rfl) (hp k)
  | opPress k => exact absurd (.inr (.inl rfl)) (hp k)
  | release k => exact absurd (.inl rfl) (hr k)
  | opRelease k => exact absurd (.inr (.inl rfl)) (hr k)
  | releaseAll => exact absurd (.inl rfl) ha
  | opReleaseAll => exact absurd (.inr (.inl rfl)) ha
  | keycodePlain l => exact keycodeRow_slots hp hr ha h rfl
  | keycodeExtended l => exact keycodeRow_slots hp hr ha h rfl
  | keycodeSpecialPrtsc => exact keycodeRow_slots hp hr ha h rfl
  | keycodeSpecialPause => exact keycodeRow_slots hp hr ha h rfl
  | keycodeNone => exact keycodeRow_slots hp hr ha h rfl
  | keycodeReserved k => exact keycodeRow_slots hp hr ha h rfl
  | poll => exact request_slots (f := Frame.newPoll) (by decide) h
  | parameterByte v => exact (callOp_slots (Nat.le_of_ble_eq_true rfl) h).trans (withHost_slots s _)
  | frameHostToDevice b p => exact (callOp_slots (by decide) h).trans (withHost_slots s _)
  | _ => exact callOp_slots (Nat.le_of_ble_eq_true rfl) h

end Sys2Proof.Machine
end

section
/-!
SUPPORT. The retry loop under an arbitrary host (R190, R191): whatever comes between, the loop leaves L2 only after the
whole sequence, one `transmit` after the other, has been sent without interruption. At L0 nothing is claimed of what has
passed; at byte `j` the first `j` bytes stand last in the record of transfers.
-/

namespace Sys2Proof.Machine

/-- What stands above a loop at the `transmit` call of L3: nothing yet, a `transmit` of the byte, or that with the
primitive of a bus event. -/
inductive Transmitting (b : Byte) : List Frame → Prop
  | waiting : Transmitting b []
  | running (v : TxLocals) (l : TxLabel) (hb : v.b = b) : Transmitting b [.transmit v l]
  | event (p : Frame) (v : TxLocals) (l : TxLabel) (hp : p.isPrimitive = true) (hb : v.b = b) :
    Transmitting b [p, .transmit v l]

/-- What stands above a loop that sends `q`, and what has passed between device and host, at each of its steps. -/
def Sending (q : List Byte) (l : LoopLabel) (above : List Frame) (passed : List Transfer) : Prop :=
  match l with
  | .l0 => ∀ g ∈ above, 2 ≤ g.level
  | .l1 => above = []
  | .l2 j => above = [] ∧ uninterrupted (q.take j) <:+ passed
  | .l3 j => above = [] ∧ j < q.length ∧ uninterrupted (q.take j) <:+ passed
  | .l3Send j => Transmitting (q.getD j 0) above ∧ j < q.length ∧ uninterrupted (q.take j) <:+ passed

/-- A loop that sends `q` is in progress in `u` on top of `fs`; when it began the transfers were `before`, and the
registry was `r` as it is now. -/
def SendingAt (q : List Byte) (at_ : LoopLabel → Frame) (fs : List Frame) (r : Registry) (before : List Transfer)
    (u : State) : Prop :=
  u.slots = r ∧ ∃ l above passed, u.ctl = above ++ at_ l :: fs ∧ u.transfers = before ++ passed
    ∧ Sending q l above passed

/-- R25: what a loop has called does not write the registry. -/
theorem Sending.level {q : List Byte} {l : LoopLabel} {above : List Frame} {passed : List Transfer}
    (h : Sending q l above passed) : ∀ g ∈ above, 2 ≤ g.level := by
  have none (h : above = []) : ∀ g ∈ above, 2 ≤ g.level := h ▸ List.forall_mem_nil _
  cases l with
  | l0 => exact h
  | l1 => exact none h
  | l2 j => exact none h.1
  | l3 j => exact none h.1
  | l3Send j =>
    obtain ⟨ht, _⟩ := h
    cases ht with
    | waiting => exact List.forall_mem_nil _
    | running v l hb => simp [Frame.level]
    | event p v l hp hb => exact List.forall_mem_cons.2 ⟨by rw [level_of_isPrimitive hp]; decide, by simp [Frame.level]⟩

/-! ### The `transmit` of a byte -/

theorem transmit_of_kind {f : Frame} {v : TxLocals} {l : TxLabel} (h : f.kind = (Frame.transmit v l).kind) :
    ∃ v' l', f = .transmit v' l' ∧ v'.b = v.b := by
  cases f with
  | transmit v' l' => exact ⟨v', l', rfl, by simpa [Frame.kind] using h⟩
  | _ => cases h

/-- A primitive's return is no transfer. -/
theorem transfer_of_primitive {p : Frame} (hp : p.isPrimitive = true) (r : Ret) :
    (Event.returned p r).transfer = none := by
  cases p <;> first | (cases hp; done) | (cases r <;> rfl)

/-- One more byte of a sequence. -/
theorem uninterrupted_take_succ {q : List Byte} {j : Nat} (hj : j < q.length) :
    uninterrupted (q.take (j + 1)) = uninterrupted (q.take j) ++ [.sent (q.getD j 0) .ok] := by
  rw [List.take_succ_eq_append_getElem hj, List.getD_eq_getElem _ _ hj, uninterrupted, List.map_append]
  rfl

section

variable {s : State} {b : Byte} {base above : List Frame}

/-- A step of the `transmit` of a byte: it goes on and nothing passes, or it returns with a result, the byte having
passed if that is `Ok`. -/
theorem device_transmitting (ht : Transmitting b above) (hne : above ≠ []) (hctl : s.ctl = above ++ base) :
    (∃ above', Transmitting b above' ∧ s.device.ctl = above' ++ base ∧ s.device.transfers = s.transfers)
      ∨ ∃ r more, s.device.ctl = popped s.cfg r base ∧ s.device.transfers = s.transfers ++ more
        ∧ (r = .code .ok → more = [.sent b .ok]) := by
  cases ht with
  | waiting => exact absurd rfl hne
  | running v l hb =>
    rcases (device_moves (fs := base) hctl).control with
      ⟨r, hc, htr⟩ | ⟨f', hc, hk, htr⟩ | ⟨e, f', hc, hk, hl, htr⟩
    · exact .inr ⟨r, _, hc, htr, by rintro rfl; rw [← hb]; rfl⟩
    · obtain ⟨v', l', rfl, hv⟩ := transmit_of_kind hk
      exact .inl ⟨_, .running v' l' (hv.trans hb), hc, htr⟩
    · obtain ⟨v', l', rfl, hv⟩ := transmit_of_kind hk
      exact .inl ⟨_, .event e v' l' (isPrimitive_of_level hl) (hv.trans hb), hc, htr⟩
  | event p v l hp hb =>
    rcases (device_moves (fs := .transmit v l :: base) hctl).control with
      ⟨r, hc, htr⟩ | ⟨f', hc, hk, htr⟩ | ⟨e, f', hc, hk, hl, htr⟩
    · obtain ⟨v', l', hf, hv⟩ := transmit_of_kind (deliver_kind s.cfg r (.transmit v l))
      refine .inl ⟨_, .running v' l' (hv.trans hb), ?_, ?_⟩
      · rw [hc, popped, hf]
        rfl
      · rw [htr, transfer_of_primitive hp]
        exact List.append_nil _
    · refine .inl ⟨_, .event f' v l ?_ hb, hc, htr⟩
      rw [← isPrimitive_kind, hk, isPrimitive_kind, hp]
    · rw [level_of_isPrimitive hp] at hl
      exact absurd (level_le e) (Nat.not_le.2 hl)

end

/-! ### The loop -/

section Loop

variable {q : List Byte} {at_ : LoopLabel → Frame} {exit : LoopLabel → State → List Frame → State}
  (hstep : ∀ l fs s, stepFrame (at_ l) fs s = s.loopStep q l at_ (exit l s fs) fs)
  (hdel : ∀ c r l, (at_ l).deliver c r = at_ (l.deliver r))
  {s : State} {l : LoopLabel} {above fs : List Frame} {r : Registry} {before passed : List Transfer}

include hstep in
/-- A step of the loop's own frame: it goes on, or the whole sequence has been sent and it leaves L2. -/
theorem sending_loop (hr : s.slots = r) (ht : s.transfers = before ++ passed) (hctl : s.ctl = at_ l :: fs)
    (h : Sending q l [] passed) :
    SendingAt q at_ fs r before s.device ∨ s.device = exit l s fs ∧ uninterrupted q <:+ passed := by
  rw [device_eq hctl, hstep]
  cases l with
  | l0 => exact .inl ⟨hr, .l0, [Frame.newPoll], passed, rfl, ht, List.forall_mem_singleton.2 (by decide : 2 ≤ 3)⟩
  | l1 => exact .inl ⟨hr, .l2 0, [], passed, rfl, ht, rfl, List.nil_suffix⟩
  | l2 j =>
    obtain ⟨_, hsent⟩ := h
    simp only [State.loopStep]
    split
    · rename_i hj
      rw [List.take_of_length_le hj] at hsent
      exact .inr ⟨rfl, hsent⟩
    · exact .inl ⟨hr, .l3 j, [], passed, rfl, ht, rfl, Nat.lt_of_not_le ‹_›, hsent⟩
  | l3 j =>
    obtain ⟨_, hj, hsent⟩ := h
    exact .inl ⟨hr, .l3Send j, [], passed, rfl, ht, .waiting, hj, hsent⟩
  | l3Send j =>
    obtain ⟨_, hj, hsent⟩ := h
    exact .inl ⟨hr, .l3Send j, [_], passed, rfl, ht, .running (TxLocals.atEntry (q.getD j 0)) (.bus .t0) rfl, hj, hsent⟩

include hdel in
/-- A step of what the loop has called: it goes on, or its result takes the loop to its next step. -/
theorem sending_callee (hr : s.slots = r) (ht : s.transfers = before ++ passed) (hctl : s.ctl = above ++ at_ l :: fs)
    (hne : above ≠ []) (h : Sending q l above passed) : SendingAt q at_ fs r before s.device := by
  have hr' : s.device.slots = r := by
    obtain ⟨f, as, rfl⟩ := List.exists_cons_of_ne_nil hne
    rw [device_slots hctl (h.level f (by simp)), hr]
  refine ⟨hr', ?_⟩
  have hpop (r : Ret) : popped s.cfg r (at_ l :: fs) = at_ (l.deliver r) :: fs := by rw [popped, hdel]
  cases l with
  | l0 =>
    obtain ⟨more, hmore⟩ := device_transfers s
    rw [ht, List.append_assoc] at hmore
    rcases device_above hctl hne h with ⟨r, hc⟩ | ⟨above', hc, _, hl⟩
    · rw [hpop] at hc
      refine ⟨_, [], _, hc, hmore, ?_⟩
      simp only [LoopLabel.deliver]
      split
      · exact List.forall_mem_nil _
      · rfl
    · exact ⟨.l0, above', _, hc, hmore, hl⟩
  | l3Send j =>
    obtain ⟨htx, hj, hsent⟩ := h
    rcases device_transmitting htx hne hctl with ⟨above', htx', hc, htr⟩ | ⟨r, more, hc, htr, hok⟩
    · exact ⟨.l3Send j, above', passed, hc, htr.trans ht, htx', hj, hsent⟩
    · rw [hpop] at hc
      refine ⟨_, [], passed ++ more, hc, by rw [htr, ht, List.append_assoc], ?_⟩
      simp only [LoopLabel.deliver]
      split
      · rename_i hr
        refine ⟨rfl, ?_⟩
        rw [uninterrupted_take_succ hj, hok hr]
        obtain ⟨pre, rfl⟩ := hsent
        exact ⟨pre, by rw [List.append_assoc]⟩
      · exact List.forall_mem_nil _
  | l1 => exact absurd h hne
  | l2 j => exact absurd h.1 hne
  | l3 j => exact absurd h.1 hne

include hstep hdel in
/-- R191: one step of the loop or of what it has called. -/
theorem sendingAt_device (h : SendingAt q at_ fs r before s) :
    SendingAt q at_ fs r before s.device
      ∨ ∃ l passed, s.device = exit l s fs ∧ s.slots = r ∧ s.transfers = before ++ passed
        ∧ uninterrupted q <:+ passed := by
  obtain ⟨hr, l, above, passed, hctl, ht, hs⟩ := h
  by_cases hne : above = []
  · subst hne
    exact (sending_loop hstep hr ht hctl hs).imp_right fun ⟨hd, hsent⟩ => ⟨l, passed, hd, hr, ht, hsent⟩
  · exact .inl (sending_callee hdel hr ht hctl hne hs)

end Loop

end Sys2Proof.Machine
end

section
/-!
`releaseAll` (R203, R204): under a quiet host its exact effect, and under every host what holds at each point of its
run.
-/

namespace Sys2Proof.Machine

/-! ### The rows that ask for it -/

/-- R89, R90: each of them calls `releaseAll` in an idle engine, `req_key` being ignored. -/
theorem exec_releaseAllForm {i : Instr} {s : State} (hi : ReleaseAllForm s i) (hidle : s.ctl = []) :
    ∃ k, exec i s = .next ((s.offering k).call (.releaseAll nSlots)) := by
  rcases hi with rfl | rfl | ⟨⟨k, hk⟩, ho⟩
  · exact ⟨s.env.reqKey, request_idle _ hidle⟩
  · exact ⟨s.env.reqKey, request_idle _ hidle⟩
  · exact ⟨k, by rw [exec_keycodeRow hk, requestKey_releaseAll k ho]; exact request_idle _ hidle⟩

/-- R89: a quiet world stays one whatever stands on `req_key`. -/
theorem quietFor_offering {s : State} {n : Nat} (k : Keycode) (h : s.quietFor n) : (s.offering k).quietFor n := by
  obtain ⟨hn, hq⟩ := h
  exact ⟨hn, List.forall_mem_cons.2 (List.forall_mem_cons.1 hq)⟩

/-! ### One step -/

section

variable {s : State} {fs : List Frame}

theorem device_releaseAll_end (h : s.ctl = .releaseAll 0 :: fs) : s.device = s.returnFrom (.releaseAll 0) .unit fs :=
  device_eq h

theorem device_releaseAll_skip {i : Nat} (h : s.ctl = .releaseAll (i + 1) :: fs) (hk : s.slots.get i = s.cfg.keyNone) :
    s.device = s.goto (.releaseAll i) fs := by
  rw [device_eq h, stepFrame, stepReleaseAll, if_pos hk]

theorem device_releaseAll_call {i : Nat} (h : s.ctl = .releaseAll (i + 1) :: fs) (hk : s.slots.get i ≠ s.cfg.keyNone) :
    s.device = s.callFrom (Frame.newRelease s.cfg (s.slots.get i)) (.releaseAll i) fs := by
  rw [device_eq h, stepFrame, stepReleaseAll, if_neg hk]

/-- R199 K10, K11: a `release` of a key that is present begins its retry loop. -/
theorem device_release_entry {k : Keycode} {q : List Byte} (h : s.ctl = .release k q .entry :: fs)
    (hk : k ≠ s.cfg.keyNone) (hf : s.slots.find k ≠ none) : s.device = s.goto (.release k q (.loop .l0)) fs := by
  have hc : releaseCheck s.cfg s.slots k = none := by rw [releaseCheck, if_neg hk, if_neg hf]
  rw [device_eq h, stepFrame, stepRelease, hc]

theorem clear_transfers (s : State) (k : Keycode) : (s.clear k).transfers = s.transfers := by simp [State.transfers]

theorem device_release_write {k : Keycode} {q : List Byte} (h : s.ctl = .release k q .write :: fs) :
    s.device = (s.clear k).goto (.release k q .finish) fs := device_eq h

theorem device_release_finish {k : Keycode} {q : List Byte} (h : s.ctl = .release k q .finish :: fs) :
    s.device = s.returnFrom (.release k q .finish) (.bit true) fs := device_eq h

end

/-! ### An empty registry -/

/-- A point of the run of `releaseAll` on an empty registry, which began in `s`. -/
def ReleasingNone (s u : State) : Prop :=
  u.cfg = s.cfg ∧ u.slots = s.slots
    ∧ ((∃ n, n ≤ nSlots ∧ u.ctl = [.releaseAll n] ∧ u.events = s.events)
      ∨ u.ctl = [] ∧ ∃ f, u.events = .returned f .unit :: s.events)

theorem releasingNone_tick {s u : State} (hempty : ∀ n, n < nSlots → s.slots.get n = s.cfg.keyNone)
    (hd : 0 < u.ctl.length) (h : ReleasingNone s u) : ReleasingNone s u.tick := by
  obtain ⟨hcfg, hsl, ⟨n, hn, hctl, hev⟩ | ⟨hctl, _⟩⟩ := h
  · cases n with
    | zero =>
      rw [State.tick, device_releaseAll_end hctl]
      exact ⟨by simpa using hcfg, by simpa using hsl, .inr ⟨by simp, .releaseAll 0, by simp [hev]⟩⟩
    | succ i =>
      rw [State.tick, device_releaseAll_skip hctl (by rw [hsl, hcfg]; exact hempty i hn)]
      exact ⟨by simpa using hcfg, by simpa using hsl, .inl ⟨i, Nat.le_of_succ_le hn, by simp, by simpa using hev⟩⟩
  · simp [hctl] at hd

/-- R204: on an empty registry `releaseAll` makes no event but its return, if it gets there. -/
theorem releaseAll_empty_events {s : State} (hidle : s.ctl = [])
    (hempty : ∀ n, n < nSlots → s.slots.get n = s.cfg.keyNone) (hend : (s.call (.releaseAll nSlots)).ctl = []) :
    ∃ f, (s.call (.releaseAll nSlots)).events = .returned f .unit :: s.events := by
  have h : ReleasingNone s (s.call (.releaseAll nSlots)) :=
    call_induct ⟨rfl, rfl, .inl ⟨nSlots, Nat.le_refl _, by simp [State.start, hidle], rfl⟩⟩
      fun u hd hu => releasingNone_tick hempty (Nat.zero_lt_of_lt hd) hu
  obtain ⟨_, _, ⟨n, _, hctl, _⟩ | ⟨_, hev⟩⟩ := h
  · rw [hctl] at hend
    cases hend
  · exact hev

/-! ### A quiet host -/

theorem downFrom_six (r : Registry) : r.downFrom nSlots = r.toList.reverse := rfl

/-- R203: what `releaseAll` does in a quiet world. -/
theorem releaseAll_quiet {s : State} (hidle : s.ctl = []) (hrel : s.released) (hu : RegistryUnique s)
    (hq : s.quietFor 5256) :
    Completed s (s.call (.releaseAll nSlots)) .unit (releaseBytes s.cfg s.slots.toList.reverse) []
      ∧ (∀ n, n < nSlots → (s.call (.releaseAll nSlots)).slots.get n = s.cfg.keyNone)
      ∧ (s.call (.releaseAll nSlots)).enabled = s.enabled ∧ Answered (s.call (.releaseAll nSlots)) false := by
  have hlen := releaseTicks_le s.cfg (s.slots.downFrom nSlots)
  rw [downFrom_length] at hlen
  have hpos : 0 < releaseTicks s.cfg (s.slots.downFrom nSlots) := by
    cases s.slots.downFrom nSlots <;> simp only [releaseTicks]
    · exact Nat.one_pos
    · split <;> omega
  obtain ⟨hc, _, hsl, hen, hdone, hres⟩ := call_completes hrel hq (hlen.trans (by decide)) hpos
    (completes_releaseAll nSlots { s with inject := none, done := false } (by decide) hu)
  refine ⟨downFrom_six s.slots ▸ hc, fun n hn => ?_, hen, ?_, ?_, ?_⟩
  · rw [hsl, get_emptied _ _ _ (by decide) hn, if_pos hn]
  · rw [hc.stack, State.resumed, hidle]
  · simpa [hidle, Frame.external] using hdone
  · simpa [hidle, Frame.external, resultBit] using hres

/-! ### An arbitrary host -/

/-- The keys in the slots from `n` up, the highest slot first. -/
def State.keysFrom (s : State) (n : Nat) : List Keycode :=
  (s.slots.toList.drop n).reverse.filter (fun k => k ≠ s.cfg.keyNone)

/-- The slots of `r` from `n` up are empty, those below as in `s`. -/
structure EmptiedFrom (s : State) (n : Nat) (r : Registry) : Prop where
  below : ∀ j, j < n → r.get j = s.slots.get j
  above : ∀ j, n ≤ j → j < nSlots → r.get j = s.cfg.keyNone

/-- The transfers `ts` are those of `s` and then, for each key that stood in a slot from `n` up, the highest first, a
part that ends in the key's release sequence, sent without interruption (R191). -/
def ReleasedFrom (s : State) (n : Nat) (ts : List Transfer) : Prop :=
  ∃ parts : List (List Transfer), ts = s.transfers ++ parts.flatten
    ∧ List.Forall₂ (fun k part => uninterrupted (seqOf s.cfg k .release) <:+ part) (s.keysFrom n) parts

theorem toList_drop (r : Registry) {n : Nat} (hn : n < nSlots) :
    r.toList.drop n = r.get n :: r.toList.drop (n + 1) := by
  rcases lt_six_cases hn with rfl | rfl | rfl | rfl | rfl | rfl <;> rfl

section

variable {s : State} {n : Nat}

theorem keysFrom_of_empty (hn : n < nSlots) (hk : s.slots.get n = s.cfg.keyNone) :
    s.keysFrom n = s.keysFrom (n + 1) := by
  simp [State.keysFrom, toList_drop s.slots hn, hk]

theorem keysFrom_of_key (hn : n < nSlots) (hk : s.slots.get n ≠ s.cfg.keyNone) :
    s.keysFrom n = s.keysFrom (n + 1) ++ [s.slots.get n] := by
  simp [State.keysFrom, toList_drop s.slots hn, hk]

theorem releasedFrom_start : ReleasedFrom s nSlots s.transfers := ⟨[], by simp, .nil⟩

theorem ReleasedFrom.skip {ts : List Transfer} (hn : n < nSlots) (hk : s.slots.get n = s.cfg.keyNone)
    (h : ReleasedFrom s (n + 1) ts) : ReleasedFrom s n ts := by
  rwa [ReleasedFrom, keysFrom_of_empty hn hk]

/-- The next lower key is released: what passed meanwhile ends in its sequence. -/
theorem ReleasedFrom.next {ts passed : List Transfer} (hn : n < nSlots) (hk : s.slots.get n ≠ s.cfg.keyNone)
    (hsent : uninterrupted (seqOf s.cfg (s.slots.get n) .release) <:+ passed) (h : ReleasedFrom s (n + 1) ts) :
    ReleasedFrom s n (ts ++ passed) := by
  obtain ⟨parts, rfl, hparts⟩ := h
  refine ⟨parts ++ [passed], by simp, ?_⟩
  rw [keysFrom_of_key hn hk]
  exact List.rel_append hparts (.cons hsent .nil)

theorem emptiedFrom_start : EmptiedFrom s nSlots s.slots := ⟨fun _ _ => rfl, fun _ h g => absurd g (Nat.not_lt.2 h)⟩

theorem EmptiedFrom.skip {r : Registry} (hk : r.get n = s.cfg.keyNone) (h : EmptiedFrom s (n + 1) r) :
    EmptiedFrom s n r where
  below j hj := h.below j (Nat.lt_succ_of_lt hj)
  above j hj hj6 := by
    rcases Nat.eq_or_lt_of_le hj with rfl | hlt
    · exact hk
    · exact h.above j hlt hj6

/-- R24: a key that stands in slot `n` stands in no slot below it, and above it all are empty. -/
theorem EmptiedFrom.find {r : Registry} (hu : RegistryUnique s) (hn : n < nSlots) (hk : s.slots.get n ≠ s.cfg.keyNone)
    (h : EmptiedFrom s (n + 1) r) : r.find (s.slots.get n) = some n := by
  have hget : r.get n = s.slots.get n := h.below n (Nat.lt_succ_self n)
  cases hf : r.find (s.slots.get n) with
  | none => exact absurd hget (Registry.find_none.1 hf n hn)
  | some j =>
    obtain ⟨hj, he, hleast⟩ := Registry.find_some hf
    have hjn : j ≤ n := Nat.le_of_not_lt fun hlt => hleast n hlt hget
    rw [h.below j (Nat.lt_succ_of_le hjn)] at he
    rw [(registryUnique_iff s).1 hu n j hn hj hk he.symm]

theorem EmptiedFrom.clear {r : Registry} (hn : n < nSlots) (h : EmptiedFrom s (n + 1) r) :
    EmptiedFrom s n (r.set n s.cfg.keyNone) where
  below j hj := by rw [Registry.get_set r hn (hj.trans hn), if_neg hj.ne, h.below j (Nat.lt_succ_of_lt hj)]
  above j hj hj6 := by
    rw [Registry.get_set r hn hj6]
    split
    · rfl
    · exact h.above j (by omega) hj6

end

/-- The `release` of the key in slot `n` at a step, called by a `releaseAll` that goes on with the slots below. -/
def State.releaseStack (s : State) (n : Nat) (l : KeyLabel) : List Frame :=
  [.release (s.slots.get n) (seqOf s.cfg (s.slots.get n) .release) l, .releaseAll n]

/-- A point `u` of the run of `releaseAll`, which began in `s`. -/
inductive Releasing (s u : State) : Prop
  | visiting (n : Nat) (hn : n ≤ nSlots) (hctl : u.ctl = [.releaseAll n]) (hslots : EmptiedFrom s n u.slots)
    (hsent : ReleasedFrom s n u.transfers)
  | entering (n : Nat) (hn : n < nSlots) (hk : s.slots.get n ≠ s.cfg.keyNone) (hctl : u.ctl = s.releaseStack n .entry)
    (hslots : EmptiedFrom s (n + 1) u.slots) (hsent : ReleasedFrom s (n + 1) u.transfers)
  | sending (n : Nat) (hn : n < nSlots) (hk : s.slots.get n ≠ s.cfg.keyNone) (r : Registry) (before : List Transfer)
    (hslots : EmptiedFrom s (n + 1) r) (hsent : ReleasedFrom s (n + 1) before)
    (hloop : SendingAt (seqOf s.cfg (s.slots.get n) .release)
      (fun l => .release (s.slots.get n) (seqOf s.cfg (s.slots.get n) .release) (.loop l)) [.releaseAll n] r before u)
  | writing (n : Nat) (hn : n < nSlots) (hk : s.slots.get n ≠ s.cfg.keyNone) (hctl : u.ctl = s.releaseStack n .write)
    (before passed : List Transfer) (hslots : EmptiedFrom s (n + 1) u.slots) (hsent : ReleasedFrom s (n + 1) before)
    (ht : u.transfers = before ++ passed) (hlast : uninterrupted (seqOf s.cfg (s.slots.get n) .release) <:+ passed)
  | finishing (n : Nat) (hn : n < nSlots) (hctl : u.ctl = s.releaseStack n .finish) (hslots : EmptiedFrom s n u.slots)
    (hsent : ReleasedFrom s n u.transfers)
  | ended (hctl : u.ctl = []) (hslots : EmptiedFrom s 0 u.slots) (hsent : ReleasedFrom s 0 u.transfers)

theorem releasing_start {s : State} (hidle : s.ctl = []) : Releasing s (s.start (.releaseAll nSlots)) :=
  .visiting nSlots (Nat.le_refl _) (by rw [State.start, hidle]) emptiedFrom_start releasedFrom_start

section

variable {s u : State} {n : Nat}

theorem Releasing.passTime (h : Releasing s u) : Releasing s u.passTime := by
  cases h with
  | visiting n hn hctl hslots hsent => exact .visiting n hn (by simpa) (by simpa) (by simpa)
  | entering n hn hk hctl hslots hsent => exact .entering n hn hk (by simpa) (by simpa) (by simpa)
  | sending n hn hk r before hslots hsent hloop =>
    exact .sending n hn hk r before hslots hsent (by simpa [SendingAt] using hloop)
  | writing n hn hk hctl before passed hslots hsent ht hlast =>
    exact .writing n hn hk (by simpa) before passed (by simpa) hsent (by simpa) hlast
  | finishing n hn hctl hslots hsent => exact .finishing n hn (by simpa) (by simpa) (by simpa)
  | ended hctl hslots hsent => exact .ended (by simpa) (by simpa) (by simpa)

section

variable (hcfg : u.cfg = s.cfg)
include hcfg

/-- R203: the next slot is read: the end, an empty slot, or the call of its key's `release`. -/
theorem releasing_visit (hn : n ≤ nSlots) (hctl : u.ctl = [.releaseAll n]) (hslots : EmptiedFrom s n u.slots)
    (hsent : ReleasedFrom s n u.transfers) : Releasing s u.device := by
  cases n with
  | zero =>
    rw [device_releaseAll_end hctl]
    refine .ended rfl hslots ?_
    rw [returnFrom_transfers]
    exact (List.append_nil u.transfers).symm ▸ hsent
  | succ i =>
    have hget : u.slots.get i = s.slots.get i := hslots.below i (Nat.lt_succ_self i)
    by_cases hk : s.slots.get i = s.cfg.keyNone
    · rw [device_releaseAll_skip hctl (by rw [hget, hk, hcfg])]
      exact .visiting i (Nat.le_of_succ_le hn) rfl (hslots.skip (hget.trans hk)) (hsent.skip hn hk)
    · rw [device_releaseAll_call hctl (by rwa [hget, hcfg])]
      exact .entering i hn hk (by rw [State.callFrom_ctl, hget, hcfg]; rfl) hslots hsent

theorem releasing_entry (hu : RegistryUnique s) (hn : n < nSlots) (hk : s.slots.get n ≠ s.cfg.keyNone)
    (hctl : u.ctl = s.releaseStack n .entry) (hslots : EmptiedFrom s (n + 1) u.slots)
    (hsent : ReleasedFrom s (n + 1) u.transfers) : Releasing s u.device := by
  rw [device_release_entry hctl (hcfg ▸ hk) (by simp [hslots.find hu hn hk])]
  exact .sending n hn hk u.slots u.transfers hslots hsent
    ⟨rfl, .l0, [], [], rfl, (List.append_nil _).symm, List.forall_mem_nil _⟩

omit hcfg in
theorem releasing_loop (hn : n < nSlots) (hk : s.slots.get n ≠ s.cfg.keyNone) {r : Registry} {before : List Transfer}
    (hslots : EmptiedFrom s (n + 1) r) (hsent : ReleasedFrom s (n + 1) before)
    (hloop : SendingAt (seqOf s.cfg (s.slots.get n) .release)
      (fun l => .release (s.slots.get n) (seqOf s.cfg (s.slots.get n) .release) (.loop l)) [.releaseAll n] r before u) :
    Releasing s u.device := by
  rcases sendingAt_device (exit := fun _ u fs => u.goto (.release (s.slots.get n) _ .write) fs) (fun _ _ _ => rfl)
    (fun _ _ _ => rfl) hloop with h | ⟨l, passed, hd, hr, ht, hlast⟩
  · exact .sending n hn hk r before hslots hsent h
  · rw [hd]
    exact .writing n hn hk rfl before passed (hr ▸ hslots) hsent ht hlast

theorem releasing_write (hu : RegistryUnique s) (hn : n < nSlots) (hk : s.slots.get n ≠ s.cfg.keyNone)
    (hctl : u.ctl = s.releaseStack n .write) {before passed : List Transfer} (hslots : EmptiedFrom s (n + 1) u.slots)
    (hsent : ReleasedFrom s (n + 1) before) (ht : u.transfers = before ++ passed)
    (hlast : uninterrupted (seqOf s.cfg (s.slots.get n) .release) <:+ passed) : Releasing s u.device := by
  rw [device_release_write hctl]
  refine .finishing n hn rfl ?_ ?_
  · rw [State.goto_slots, State.clear_slots, hslots.find hu hn hk, hcfg]
    exact hslots.clear hn
  · show ReleasedFrom s n (u.clear (s.slots.get n)).transfers
    rw [clear_transfers, ht]
    exact hsent.next hn hk hlast

end

theorem releasing_finish (hn : n < nSlots) (hctl : u.ctl = s.releaseStack n .finish) (hslots : EmptiedFrom s n u.slots)
    (hsent : ReleasedFrom s n u.transfers) : Releasing s u.device := by
  rw [device_release_finish hctl]
  refine .visiting n hn.le rfl hslots ?_
  rw [returnFrom_transfers]
  exact (List.append_nil u.transfers).symm ▸ hsent

/-- One step of `releaseAll` or of what it has called, whatever the host does. -/
theorem releasing_device (hcfg : u.cfg = s.cfg) (hu : RegistryUnique s) (hd : 0 < u.ctl.length) (h : Releasing s u) :
    Releasing s u.device := by
  cases h with
  | visiting n hn hctl hslots hsent => exact releasing_visit hcfg hn hctl hslots hsent
  | entering n hn hk hctl hslots hsent => exact releasing_entry hcfg hu hn hk hctl hslots hsent
  | sending n hn hk r before hslots hsent hloop => exact releasing_loop hn hk hslots hsent hloop
  | writing n hn hk hctl before passed hslots hsent ht hlast =>
    exact releasing_write hcfg hu hn hk hctl hslots hsent ht hlast
  | finishing n hn hctl hslots hsent => exact releasing_finish hn hctl hslots hsent
  | ended hctl => simp [hctl] at hd

/-- What a point of the run shows: how far down the slots are empty, and the sequences sent by then. -/
theorem Releasing.progress (h : Releasing s u) :
    ∃ n rest, n ≤ nSlots ∧ EmptiedFrom s n u.slots ∧ (∃ ts, ReleasedFrom s n ts ∧ u.transfers = ts ++ rest)
      ∧ (u.ctl = [] → n = 0) := by
  have whole {n : Nat} {ts : List Transfer} (h : ReleasedFrom s n ts) : ∃ x, ReleasedFrom s n x ∧ ts = x ++ [] :=
    ⟨ts, h, (List.append_nil _).symm⟩
  cases h with
  | visiting n hn hctl hslots hsent => exact ⟨n, [], hn, hslots, whole hsent, by simp [hctl]⟩
  | entering n hn hk hctl hslots hsent => exact ⟨n + 1, [], hn, hslots, whole hsent, by simp [hctl, State.releaseStack]⟩
  | sending n hn hk r before hslots hsent hloop =>
    obtain ⟨hr, l, above, passed, hctl, ht, _⟩ := hloop
    exact ⟨n + 1, passed, hn, hr ▸ hslots, ⟨before, hsent, ht⟩, by simp [hctl]⟩
  | writing n hn hk hctl before passed hslots hsent ht hlast =>
    exact ⟨n + 1, passed, hn, hslots, ⟨before, hsent, ht⟩, by simp [hctl, State.releaseStack]⟩
  | finishing n hn hctl hslots hsent => exact ⟨n, [], hn.le, hslots, whole hsent, by simp [hctl, State.releaseStack]⟩
  | ended hctl hslots hsent => exact ⟨0, [], Nat.zero_le _, hslots, whole hsent, fun _ => rfl⟩

end

/-- The run of `releaseAll` from an idle engine, wherever the described inputs end. -/
theorem releasing_call {s : State} (hidle : s.ctl = []) (hu : RegistryUnique s) :
    Releasing s (s.call (.releaseAll nSlots)) :=
  (call_induct (P := fun u => u.cfg = s.cfg ∧ Releasing s u) ⟨rfl, releasing_start hidle⟩ fun u hd ⟨hcfg, h⟩ =>
    ⟨by simpa [State.tick] using hcfg, (releasing_device hcfg hu (Nat.zero_lt_of_lt hd) h).passTime⟩).2

/-- Settles O44: under a quiet host by the run of `releaseAll` there (and, on an empty registry, by its record alone),
under every host by what each point of its run keeps. -/
theorem releaseAllEmpties : Obligations.ReleaseAllEmpties := by
  constructor
  · intro i s hi hidle hrel hu hq
    obtain ⟨k, he⟩ := exec_releaseAllForm hi hidle
    obtain ⟨hc, hempty, hen, hans⟩ := releaseAll_quiet (s := s.offering k) hidle hrel hu (quietFor_offering k hq)
    exact ⟨_, he, ⟨hc.stack, hc.ret, hc.sent, hc.logged, hc.lines, hc.config, hc.taken⟩, hempty, hen, hans,
      fun h => releaseAll_empty_events (s := s.offering k) hidle h hans.1⟩
  · intro i s t hi hidle hu h
    obtain ⟨k, he⟩ := exec_releaseAllForm hi hidle
    obtain rfl := Host.Outcome.next.inj (he.symm.trans h)
    obtain ⟨n, rest, hn, hslots, ⟨ts, ⟨parts, hts, hparts⟩, ht⟩, hend⟩ :=
      (releasing_call (s := s.offering k) hidle hu).progress
    exact ⟨n, parts, rest, hn, hslots.below, hslots.above, hts ▸ ht, hparts, hend⟩

end Sys2Proof.Machine
end

section
/-!
SUPPORT. The run of a called operation under an arbitrary host, step by step: where it is after the first `k` described
inputs, what it has driven by then, and one rule per kind of step. A rule asks of the host only what the step looks at.
-/

namespace Sys2Proof.Machine

/-! ### The premises about the inputs -/

section

variable {s : State} {k n : Nat}

theorem State.noReset.mono (h : s.noReset n) (hk : k ≤ n) : s.noReset k := by
  obtain ⟨hn, hr⟩ := h
  exact ⟨hk.trans hn, fun p hp => hr p (List.cons_subset_cons _ (List.take_subset_take_left _ hk) hp)⟩

theorem State.hostOff.mono (h : s.hostOff n) (hk : k ≤ n) : s.hostOff k :=
  fun p hp => h p (List.cons_subset_cons _ (List.take_subset_take_left _ hk) hp)

theorem State.quietFor.noReset (h : s.quietFor n) : s.noReset n :=
  ⟨h.1, fun p hp => (isQuiet_iff.1 (h.2 p hp)).2.2.2⟩

theorem inputAt_mem {p : Pins} (h : (s.env :: s.script)[n]? = some p) : p ∈ s.inputs n := by
  rw [State.inputs, ← List.take_succ_cons]
  exact List.mem_of_getElem? (i := n) (by rw [List.getElem?_take_of_lt (Nat.lt_succ_self n)]; exact h)

/-- The input of a step without reset. -/
theorem State.noReset.input (h : s.noReset n) : s.inputAt n (fun p => p.rst = false) := by
  obtain ⟨hn, hr⟩ := h
  have hlt : n < (s.env :: s.script).length := Nat.lt_succ_of_le hn
  have hp := List.getElem?_eq_getElem hlt
  exact ⟨_, hp, hr _ (inputAt_mem hp)⟩

theorem State.inputAt.imp {q q' : Pins → Prop} (h : s.inputAt n q) (himp : ∀ p, q p → q' p) : s.inputAt n q' := by
  obtain ⟨p, hp, hq⟩ := h
  exact ⟨p, hp, himp p hq⟩

/-- A described input is what it is. -/
theorem State.inputAt.of_eq {p : Pins} {q : Pins → Prop} (h : s.inputAt n (fun p' => p' = p)) (hq : q p) : s.inputAt n q :=
  h.imp fun _ hp => hp ▸ hq

/-- A line that neither end drives is high; `host` is the host's driver of it. -/
theorem State.inputAt.high {host : Pins → Drive} (h : s.inputAt n (fun p => host p = .rel)) :
    s.inputAt n (fun p => wireLevel .rel (host p) = .high) := h.imp fun _ hp => by rw [hp]; rfl

/-- A line that the host drives is low. -/
theorem State.inputAt.low {host : Pins → Drive} (x : Drive) (h : s.inputAt n (fun p => host p = .drvLow)) :
    s.inputAt n (fun p => wireLevel x (host p) = .low) := h.imp fun _ hp => by rw [hp, wireLevel_host_low]

end

/-! ### What a record shows of the lines -/

/-- The drives of a record, in time order. -/
def drivenOf (ev : List Event) : List (Line × Drive) := (ev.filterMap Event.driven).reverse

theorem drivenOf_append (a b : List Event) : drivenOf (a ++ b) = drivenOf b ++ drivenOf a := by simp [drivenOf]

/-- The data driver, `x` before, after the drives of a list. -/
def datAfter (x : Drive) : List (Line × Drive) → Drive
  | [] => x
  | (.clk, _) :: dr => datAfter x dr
  | (.dat, y) :: dr => datAfter y dr

/-- The data levels at the falling clock edges of a list of drives, the data driver being `x` before, while the host
leaves data released. -/
def fallLevels (x : Drive) : List (Line × Drive) → List Level
  | [] => []
  | (.clk, .drvLow) :: dr => wireLevel x .rel :: fallLevels x dr
  | (.clk, .rel) :: dr => fallLevels x dr
  | (.dat, y) :: dr => fallLevels y dr

theorem datAfter_append (x : Drive) (a b : List (Line × Drive)) : datAfter x (a ++ b) = datAfter (datAfter x a) b := by
  induction a generalizing x with
  | nil => rfl
  | cons e a ih =>
    obtain ⟨_ | _, y⟩ := e
    · exact ih x
    · exact ih y

theorem fallLevels_append (x : Drive) (a b : List (Line × Drive)) :
    fallLevels x (a ++ b) = fallLevels x a ++ fallLevels (datAfter x a) b := by
  induction a generalizing x with
  | nil => rfl
  | cons e a ih =>
    obtain ⟨_ | _, _ | _⟩ := e
    · exact ih x
    · exact congrArg (_ :: ·) (ih x)
    · exact ih .rel
    · exact ih .drvLow

/-- A record in which nothing is sent or logged and the drives are `dr`; under the premise `off` on the host the falling
edges show what the device drove, the data driver being `x` before. -/
structure DrivesOnly (off : Prop) (x : Drive) (ev : List Event) (dr : List (Line × Drive)) : Prop where
  driven : drivenOf ev = dr
  sent : sentOf ev = []
  logged : loggedOf ev = []
  edges : off → edgesOf ev = fallLevels x dr

theorem DrivesOnly.append {off : Prop} {x : Drive} {a b : List Event} {m n : List (Line × Drive)}
    (h : DrivesOnly off x a m) (g : DrivesOnly off (datAfter x m) b n) : DrivesOnly off x (b ++ a) (m ++ n) where
  driven := by rw [drivenOf_append, h.driven, g.driven]
  sent := by rw [sentOf_append, h.sent, g.sent]; rfl
  logged := by rw [loggedOf_append, h.logged, g.logged]; rfl
  edges := fun ho => by rw [edgesOf_append, h.edges ho, g.edges ho, fallLevels_append]

theorem drivesOnly_nil (off : Prop) (x : Drive) : DrivesOnly off x [] [] := ⟨rfl, rfl, rfl, fun _ => rfl⟩

/-! ### Where a run is -/

/-- The drivers of the lines and the stack at a point of a run. -/
structure Place where
  clk : Drive
  dat : Drive
  ctl : List Frame

/-- The engine without its world. -/
def State.engine (s : State) : State := s.withWorld Pins.quiet [] 0

theorem react_engine (s : State) (p : Pins) : s.engine.react p = s.react p := rfl

/-- Two engines that differ in their worlds alone. -/
theorem withWorld_of_engine {s t : State} (h : s.engine = t.engine) (e : Pins) (sc : List Pins) (n : Nat) :
    s.withWorld e sc n = t.withWorld e sc n := by
  rw [← withWorld_withWorld s Pins.quiet [] 0, ← withWorld_withWorld t Pins.quiet [] 0]
  exact congrArg (State.withWorld · e sc n) h

theorem ctl_of_engine {s t : State} (h : s.engine = t.engine) : s.ctl = t.ctl := by
  rw [← withWorld_ctl s Pins.quiet [] 0, ← withWorld_ctl t Pins.quiet [] 0]
  exact congrArg State.ctl h

/-- One more input. -/
theorem take_succ_of_getElem? {L : List Pins} {k : Nat} {p : Pins} (hp : L[k]? = some p) :
    L.take (k + 1) = L.take k ++ [p] := by
  rw [List.take_add_one, hp]
  rfl

/-- The call of `f₀` in `s` has not returned within the first `k` inputs, has driven `dr` in them, is at the place `a`
after them, and has changed nothing else. The levels at the falling edges rest on the premise `off` on the host. -/
structure Reached (s : State) (f₀ : Frame) (off : Prop) (k : Nat) (a : Place) (dr : List (Line × Drive)) : Prop where
  running : running s.ctl.length ((s.env :: s.script).take k) (s.start f₀)
  dat : a.dat = datAfter s.drvDat dr
  state : ∃ ev r, DrivesOnly off s.drvDat ev dr ∧
    (play ((s.env :: s.script).take k) (s.start f₀)).engine
      = ((s.start f₀).pt a.clk a.dat a.ctl (ev ++ s.events) Pins.quiet r).engine

section

variable {s : State} {f₀ : Frame} {off : Prop} {k : Nat} {c x : Drive} {f : Frame} {fs : List Frame}
  {dr : List (Line × Drive)}

theorem reached_start (s : State) (f₀ : Frame) (off : Prop) :
    Reached s f₀ off 0 ⟨s.drvClk, s.drvDat, f₀ :: s.ctl⟩ [] :=
  ⟨trivial, rfl, [], s.ret, drivesOnly_nil off _, rfl⟩

/-- One step of the running frame. -/
theorem Reached.step {a : Place} {new : List Event} {made : List (Line × Drive)} {p : Pins}
    (h : Reached s f₀ off k ⟨c, x, f :: fs⟩ dr) (hd : s.ctl.length ≤ fs.length)
    (hp : (s.env :: s.script)[k]? = some p) (hr : p.rst = false)
    (hstep : ∀ ev r, ∃ r', stepFrame f fs ((s.start f₀).pt c x (f :: fs) ev p r)
      = (s.start f₀).pt a.clk a.dat a.ctl (new ++ ev) p r')
    (hnew : DrivesOnly off x new made) (hx : a.dat = datAfter x made) :
    Reached s f₀ off (k + 1) a (dr ++ made) := by
  obtain ⟨hrun, hdat, ev, r, hrec, hplay⟩ := h
  obtain ⟨r', hs⟩ := hstep (ev ++ s.events) r
  have htake := take_succ_of_getElem? hp
  have hreact : ((play ((s.env :: s.script).take k) (s.start f₀)).react p).engine
      = ((s.start f₀).pt a.clk a.dat a.ctl (new ++ (ev ++ s.events)) Pins.quiet r').engine := by
    rw [← react_engine, hplay, react_engine, pt_react, hs]
    rfl
  have hctl : (play ((s.env :: s.script).take k) (s.start f₀)).ctl = f :: fs := ctl_of_engine hplay
  refine ⟨?_, ?_, new ++ ev, r', hrec.append (hdat ▸ hnew), ?_⟩
  · rw [htake, running_append]
    exact ⟨hrun, by rw [hctl]; exact Nat.lt_succ_of_le hd, hr, trivial⟩
  · rw [hx, datAfter_append, ← hdat]
  · rw [htake, play_append, List.append_assoc]
    exact hreact

/-- A step that drives nothing and goes on with another stack. -/
theorem Reached.move {ctl : List Frame} {p : Pins} (h : Reached s f₀ off k ⟨c, x, f :: fs⟩ dr)
    (hd : s.ctl.length ≤ fs.length) (hp : (s.env :: s.script)[k]? = some p) (hr : p.rst = false)
    (hstep : ∀ ev r, stepFrame f fs ((s.start f₀).pt c x (f :: fs) ev p r) = (s.start f₀).pt c x ctl ev p r) :
    Reached s f₀ off (k + 1) ⟨c, x, ctl⟩ dr := by
  have := h.step (a := ⟨c, x, ctl⟩) (new := []) hd hp hr (fun ev r => ⟨r, hstep ev r⟩) (drivesOnly_nil off x) rfl
  rwa [List.append_nil] at this

/-- A step that looks at no input: the running frame goes on, or calls. -/
theorem Reached.next {ctl : List Frame} (h : Reached s f₀ off k ⟨c, x, f :: fs⟩ dr) (hd : s.ctl.length ≤ fs.length)
    (hr : s.noReset k)
    (hstep : ∀ ev p r, stepFrame f fs ((s.start f₀).pt c x (f :: fs) ev p r) = (s.start f₀).pt c x ctl ev p r) :
    Reached s f₀ off (k + 1) ⟨c, x, ctl⟩ dr := by
  obtain ⟨p, hp, hrst⟩ := hr.input
  exact h.move hd hp hrst fun ev r => hstep ev p r

/-- An operation returns `r` to its caller, and that was no byte sent. -/
theorem Reached.returns {g : Frame} {r : Ret} (h : Reached s f₀ off k ⟨c, x, f :: g :: fs⟩ dr)
    (hd : s.ctl.length ≤ fs.length) (hr : s.noReset k)
    (hf : ∀ t, stepFrame f (g :: fs) t = t.returnFrom f r (g :: fs)) (hsent : (Event.returned f r).sentByte = none) :
    Reached s f₀ off (k + 1) ⟨c, x, g.deliver s.cfg r :: fs⟩ dr := by
  obtain ⟨p, hp, hrst⟩ := hr.input
  have := h.step (a := ⟨c, x, g.deliver s.cfg r :: fs⟩) (new := [.returned f r]) (made := []) (Nat.le_succ_of_le hd) hp
    hrst (fun ev r' => ⟨r, by rw [hf, pt_returnFrom]; rfl⟩) ⟨rfl, by simp [sentOf, hsent], rfl, fun _ => rfl⟩ rfl
  rwa [List.append_nil] at this

/-- A frame at a bus event calls the primitive of the event. -/
theorem stepFrame_of_primitive {f pr : Frame} {t : State} (fs : List Frame) (h : f.primitive t.cfg = some pr) :
    stepFrame f fs t = t.callFrom pr f fs := by
  unfold Frame.primitive at h
  split at h <;> cases h <;> rfl

/-- A bus event: the running frame calls the primitive `pr`, which makes its event and returns `r`. -/
theorem Reached.event {pr g : Frame} {c' x' : Drive} {new : List Event} {made : List (Line × Drive)} {p : Pins}
    {r : Ret} (h : Reached s f₀ off k ⟨c, x, f :: fs⟩ dr) (hd : s.ctl.length ≤ fs.length) (hr : s.noReset (k + 1))
    (hf : f.primitive s.cfg = some pr) (hg : f.deliver s.cfg r = g) (hp : (s.env :: s.script)[k + 1]? = some p)
    (hstep : ∀ ev r', stepFrame pr (f :: fs) ((s.start f₀).pt c x (pr :: f :: fs) ev p r')
      = (s.start f₀).pt c' x' (f.deliver s.cfg r :: fs) (new ++ ev) p r)
    (hnew : DrivesOnly off x new made) (hx : x' = datAfter x made) :
    Reached s f₀ off (k + 2) ⟨c', x', g :: fs⟩ (dr ++ made) :=
  hg ▸ (h.next hd (hr.mono (Nat.le_succ k)) fun _ _ _ => stepFrame_of_primitive fs hf).step
    (a := ⟨c', x', f.deliver s.cfg r :: fs⟩) (Nat.le_succ_of_le hd) hp
    (hr.2 p (inputAt_mem hp)) (fun ev r' => ⟨r, hstep ev r'⟩) hnew hx

/-! ### The bus events: `f` calls the primitive, `g` is the frame that goes on with its result -/

variable {g : Frame} (h : Reached s f₀ off k ⟨c, x, f :: fs⟩ dr) (hd : s.ctl.length ≤ fs.length)
  (hr : s.noReset (k + 1))
include h hd hr

theorem Reached.delay {t : Nat} (hf : f.primitive s.cfg = some (.delay t)) (hg : f.deliver s.cfg .unit = g) :
    Reached s f₀ off (k + 2) ⟨c, x, g :: fs⟩ dr := by
  obtain ⟨p, hp, _⟩ := hr.input
  have := h.event (made := []) hd hr hf hg hp (fun ev r => pt_delay _ c x _ ev p r t f fs)
    (new := [.returned (.delay t) .unit, .delayed t]) ⟨rfl, rfl, rfl, fun _ => rfl⟩ rfl
  rwa [List.append_nil] at this

/-- The data line is sampled. -/
theorem Reached.readDat {v : Level} (hf : f.primitive s.cfg = some (.lineRead .dat))
    (hg : f.deliver s.cfg (.level v) = g) (hv : s.inputAt (k + 1) (fun p => wireLevel x p.hdat = v)) :
    Reached s f₀ off (k + 2) ⟨c, x, g :: fs⟩ dr := by
  obtain ⟨p, hp, rfl⟩ := hv
  have := h.event (made := []) hd hr hf hg hp (fun ev r => pt_lineRead_dat _ c x _ ev p r f fs)
    (new := [.returned (.lineRead .dat) (.level _), .sampled .dat _]) ⟨rfl, rfl, rfl, fun _ => rfl⟩ rfl
  rwa [List.append_nil] at this

/-- The clock line is sampled. -/
theorem Reached.readClk {v : Level} (hf : f.primitive s.cfg = some (.lineRead .clk))
    (hg : f.deliver s.cfg (.level v) = g) (hv : s.inputAt (k + 1) (fun p => wireLevel c p.hclk = v)) :
    Reached s f₀ off (k + 2) ⟨c, x, g :: fs⟩ dr := by
  obtain ⟨p, hp, rfl⟩ := hv
  have := h.event (made := []) hd hr hf hg hp (fun ev r => pt_lineRead_clk _ c x _ ev p r f fs)
    (new := [.returned (.lineRead .clk) (.level _), .sampled .clk _]) ⟨rfl, rfl, rfl, fun _ => rfl⟩ rfl
  rwa [List.append_nil] at this

theorem Reached.driveDat {y : Drive} (hf : f.primitive s.cfg = some (busDrive .dat y))
    (hg : f.deliver s.cfg .unit = g) :
    Reached s f₀ off (k + 2) ⟨c, y, g :: fs⟩ (dr ++ [(.dat, y)]) := by
  obtain ⟨p, hp, _⟩ := hr.input
  exact h.event hd hr hf hg hp (fun ev r => pt_busDrive_dat _ c x _ ev p r y f fs)
    (new := [.returned (busDrive .dat y) .unit, .drove .dat y _ _])
    ⟨rfl, by cases y <;> rfl, rfl, fun _ => by cases y <;> rfl⟩ rfl

theorem Reached.raiseClk (hf : f.primitive s.cfg = some (.lineRelease .clk)) (hg : f.deliver s.cfg .unit = g) :
    Reached s f₀ off (k + 2) ⟨.rel, x, g :: fs⟩ (dr ++ [(.clk, .rel)]) := by
  obtain ⟨p, hp, _⟩ := hr.input
  exact h.event hd hr hf hg hp (fun ev r => pt_lineRelease_clk _ c x _ ev p r f fs)
    (new := [.returned (.lineRelease .clk) .unit, .drove .clk .rel _ _]) ⟨rfl, rfl, rfl, fun _ => rfl⟩ rfl

/-- The falling edge: what it shows on data is what the device drives there, if the host leaves data released. -/
theorem Reached.lowerClk (hf : f.primitive s.cfg = some (.assertLow .clk)) (hg : f.deliver s.cfg .unit = g)
    (hoff : off → s.hostOff (k + 1)) :
    Reached s f₀ off (k + 2) ⟨.drvLow, x, g :: fs⟩ (dr ++ [(.clk, .drvLow)]) := by
  obtain ⟨p, hp, _⟩ := hr.input
  exact h.event hd hr hf hg hp (fun ev r => pt_assertLow_clk _ c x _ ev p r f fs)
    (new := [.returned (.assertLow .clk) .unit, .drove .clk .drvLow _ (wireLevel x p.hdat)])
    ⟨rfl, rfl, rfl, fun ho => by rw [(hoff ho p (inputAt_mem hp)).2]; rfl⟩ rfl

end

end Sys2Proof.Machine
end

section
/-!
SUPPORT. Where a called operation ends: the state it leaves when its run has reached the return, or has reached a place
from which it completes in a quiet world.
-/

namespace Sys2Proof.Machine

/-- The state the call of an operation in `s` leaves that has returned `r`, its frame being `g` then: the drivers are `c`
and `x`, the registry is `sl`, the flag `en`, and the events made in between are `ev`. -/
def State.ended (s : State) (g : Frame) (r : Ret) (c x : Drive) (sl : Registry) (en : Bool) (ev : List Event) : State :=
  ((({ s with inject := none, done := false } : State).upd sl en).returned g r s.ctl).pt c x (deliverTo s.cfg r s.ctl)
    (ev ++ s.events) Pins.quiet r

section

variable {s : State} {g : Frame} {r : Ret} {c x : Drive} {sl : Registry} {en : Bool} {ev : List Event} {e : Pins}
  {sc : List Pins} {n : Nat}

theorem ended_ctl : (s.ended g r c x sl en ev).ctl = s.resumed r := (resumed_eq_deliverTo s r).symm

theorem ended_length : (s.ended g r c x sl en ev).ctl.length = s.ctl.length := by
  rw [ended_ctl, State.resumed]
  cases s.ctl <;> rfl

theorem ended_driven : ((s.ended g r c x sl en ev).withWorld e sc n).driven = s.driven ++ drivenOf ev :=
  drivenOf_append ev s.events

theorem ended_edges : ((s.ended g r c x sl en ev).withWorld e sc n).edges = s.edges ++ edgesOf ev :=
  edgesOf_append ev s.events

theorem ended_sent : ((s.ended g r c x sl en ev).withWorld e sc n).sent = s.sent ++ sentOf ev :=
  sentOf_append ev s.events

theorem ended_logged : ((s.ended g r c x sl en ev).withWorld e sc n).logged = s.logged ++ loggedOf ev :=
  loggedOf_append ev s.events

/-- What an operation has left that has returned with both lines released. -/
theorem ended_completed {bytes logs : List Byte} (hsent : sentOf ev = bytes) (hlogged : loggedOf ev = logs) :
    Completed s ((s.ended g r .rel .rel sl en ev).withWorld e sc n) r bytes logs where
  stack := by rw [withWorld_ctl, ended_ctl]
  ret := rfl
  sent := by rw [ended_sent, hsent]
  logged := by rw [ended_logged, hlogged]
  lines := ⟨rfl, rfl⟩
  config := returned_cfg _ _ _ _
  taken := returned_inject _ _ _ _

/-- What an operation has left that has returned and sent nothing. -/
theorem ended_quiescent (hsent : sentOf ev = []) (hlogged : loggedOf ev = []) :
    Quiescent s ((s.ended g r c x s.slots s.enabled ev).withWorld e sc n) r where
  stack := by rw [withWorld_ctl, ended_ctl]
  ret := rfl
  sent := by rw [ended_sent, hsent, List.append_nil]
  logged := by rw [ended_logged, hlogged, List.append_nil]
  store := ⟨returned_cfg _ _ _ _, returned_slots _ _ _ _, returned_enabled _ _ _ _⟩
  taken := returned_inject _ _ _ _

theorem ended_undriven (hc : c = s.drvClk) (hx : x = s.drvDat) (hdriven : drivenOf ev = []) :
    Undriven s ((s.ended g r c x sl en ev).withWorld e sc n) :=
  ⟨hc, hx, by rw [ended_driven, hdriven, List.append_nil]⟩

theorem ended_slots : ((s.ended g r c x sl en ev).withWorld e sc n).slots = sl := returned_slots _ _ _ _

theorem ended_enabled : ((s.ended g r c x sl en ev).withWorld e sc n).enabled = en := returned_enabled _ _ _ _

/-- R250: an internal operation leaves the port as it was. -/
theorem ended_port (hg : g.external = false) : PortKept s ((s.ended g r c x sl en ev).withWorld e sc n) := by
  simp only [PortKept, State.ended, State.returned, withWorld_done, withWorld_result]
  split
  · simp [State.pt, State.upd, hg]
  · exact ⟨rfl, rfl⟩

/-- R250: an external operation answers the client of an idle engine. -/
theorem ended_answered (hg : g.external = true) (hidle : s.ctl = []) :
    Answered ((s.ended g r c x sl en ev).withWorld e sc n) (resultBit r) := by
  refine ⟨?_, ?_, ?_⟩
  · rw [withWorld_ctl, ended_ctl, State.resumed, hidle]
  · simp [State.ended, State.returned, State.pt, hidle, hg]
  · simp [State.ended, State.returned, State.pt, hidle, hg]

end

/-! ### The end of a run -/

theorem sentOf_returned {f : Frame} {r : Ret} {ev : List Event} (h : sentOf ev = []) :
    sentOf (.returned f r :: ev) = (Event.returned f r).sentByte.toList := by
  rw [← List.singleton_append, sentOf_append, h]
  simp only [sentOf, List.filterMap_cons, List.filterMap_nil]
  cases (Event.returned f r).sentByte <;> rfl

/-- A run does not depend on the world it is left in before its first input. -/
theorem Runs.of_engine {d : Nat} {ps : List Pins} {s s' t : State} (h : Runs d ps s t) (hps : ps ≠ [])
    (he : s'.engine = s.engine) : Runs d ps s' t := by
  rw [← withWorld_self s', withWorld_of_engine he]
  exact h.withWorld _ _ _ hps

section

variable {s : State} {f₀ : Frame}

/-- A run that has returned within the described inputs is the call, but for the world it is in. -/
theorem call_eq_of_play {ps rest : List Pins} {t : State} (hin : s.env :: s.script = ps ++ rest) (hps : ps ≠ [])
    (hrun : running s.ctl.length ps (s.start f₀)) (hplay : (play ps (s.start f₀)).engine = t.engine)
    (hstop : t.ctl.length = s.ctl.length) : ∃ e sc n, s.call f₀ = t.withWorld e sc n := by
  rw [call_runs hin hps ⟨hrun, rfl⟩ (ctl_of_engine hplay ▸ hstop.le)]
  cases rest with
  | nil => exact ⟨_, _, _, withWorld_of_engine hplay _ _ _⟩
  | cons q qs => exact ⟨_, _, _, withWorld_of_engine hplay _ _ _⟩

variable {off : Prop} {k : Nat} {dr : List (Line × Drive)}

/-- A run that has reached its return. -/
theorem Reached.call_returns {c x : Drive} {f : Frame} {r : Ret} (h : Reached s f₀ off k ⟨c, x, f :: s.ctl⟩ dr)
    (hr : s.noReset k) (hf : ∀ t, stepFrame f s.ctl t = t.returnFrom f r s.ctl) :
    ∃ ev, drivenOf ev = dr ∧ sentOf ev = (Event.returned f r).sentByte.toList ∧ loggedOf ev = []
      ∧ (off → edgesOf ev = fallLevels s.drvDat dr)
      ∧ ∃ e sc n, s.call f₀ = (s.ended f r c x s.slots s.enabled ev).withWorld e sc n := by
  obtain ⟨hrun, _, ev, r', hrec, hplay⟩ := h
  obtain ⟨p, hp, hrst⟩ := hr.input
  have htake := take_succ_of_getElem? hp
  have hreact : ((play ((s.env :: s.script).take k) (s.start f₀)).react p).engine
      = (s.ended f r c x s.slots s.enabled (.returned f r :: ev)).engine := by
    rw [← react_engine, hplay, react_engine, pt_react, hf, pt_returnFrom]
    cases hs : s.ctl <;> simp only [State.ended, hs] <;> rfl
  refine ⟨.returned f r :: ev, hrec.driven, sentOf_returned hrec.sent, hrec.logged, hrec.edges,
    call_eq_of_play (List.take_append_drop (k + 1) _).symm (by simp) ?_ ?_ ended_length⟩
  · rw [htake, running_append]
    exact ⟨hrun, by rw [ctl_of_engine hplay]; exact Nat.lt_succ_self _, hrst, trivial⟩
  · rw [htake, play_append]
    exact hreact

/-- `m` quiet inputs from the `k`-th on. -/
theorem quiet_slice {m : Nat} (hpos : 0 < m) (hq : ∀ i, i < m → s.inputAt (k + i) (fun p => isQuiet p = true)) :
    (((s.env :: s.script).drop k).take m).length = m ∧ ∀ p ∈ ((s.env :: s.script).drop k).take m, isQuiet p = true := by
  constructor
  · obtain ⟨p, hp, _⟩ := hq (m - 1) (by omega)
    obtain ⟨hlt, _⟩ := List.getElem?_eq_some_iff.1 hp
    rw [List.length_take, List.length_drop]
    omega
  · intro p hp
    obtain ⟨i, hi⟩ := List.mem_iff_getElem?.1 hp
    rw [List.getElem?_take, List.getElem?_drop] at hi
    split at hi
    · rename_i him
      obtain ⟨p', hp', hquiet⟩ := hq i him
      obtain rfl : p' = p := Option.some.inj (hp'.symm.trans hi)
      exact hquiet
    · cases hi

/-- A run that has reached an operation which completes in a quiet world, the inputs being quiet for as long. -/
theorem Reached.call_completes {f : Frame} {m : Nat} {r : Ret} {sl : Registry} {en : Bool} {bytes logs : List Byte}
    (h : Reached s f₀ off k ⟨.rel, .rel, f :: s.ctl⟩ dr) (hpos : 0 < m)
    (hq : ∀ i, i < m → s.inputAt (k + i) (fun p => isQuiet p = true))
    (hc : Completes (s.start f₀) f m r sl en bytes logs) :
    ∃ g ev, g.external = f.external ∧ sentOf ev = bytes ∧ loggedOf ev = logs ∧ ∃ e sc n,
      s.call f₀ = (s.ended g r .rel .rel sl en ev).withWorld e sc n := by
  obtain ⟨hrun, _, ev, r', hrec, hplay⟩ := h
  obtain ⟨g, ev', hg, hshow, hruns⟩ := hc s.ctl.length s.ctl (ev ++ s.events) Pins.quiet r' (Nat.le_refl _)
  obtain ⟨hlen, hquiet⟩ := quiet_slice hpos hq
  have hne : quiets m ≠ [] := List.ne_nil_of_length_pos (by rw [quiets_length]; exact hpos)
  obtain ⟨hrun', hplay'⟩ := (hruns.of_engine hne hplay).sameQuiet _ hlen hquiet Pins.quiet [] 0
  refine ⟨g, ev' ++ ev, hg, ?_, ?_, call_eq_of_play (List.take_append_drop (k + m) _).symm ?_ ?_ ?_ ended_length⟩
  · rw [sentOf_append, hrec.sent, hshow.sent]; rfl
  · rw [loggedOf_append, hrec.logged, hshow.logged]; rfl
  · simp only [ne_eq, List.take_eq_nil_iff, reduceCtorEq, or_false]
    omega
  · rw [List.take_add, running_append]
    exact ⟨hrun, hrun'⟩
  · rw [List.take_add, play_append]
    refine hplay'.trans ?_
    simp only [State.ended, List.append_assoc]
    cases hs : s.ctl <;> rfl

end

end Sys2Proof.Machine
end

section
/-!
`transmit` under an arbitrary host (R57, R64, R121 to R132): once the idle check has passed it drives its eleven cells
open-loop and returns `Ok`; under H-TX the falling edges show them.
-/

namespace Sys2Proof.Machine

/-! ### The clock cycle and the bit cells -/

section

variable {s : State} {f₀ : Frame} {off : Prop} {k : Nat} {x : Drive} {fs : List Frame} {dr : List (Line × Drive)}

/-- R75: a clock cycle; `at_` names the frames of its bus events, `g` is the frame that follows it. -/
theorem Reached.clockCycle {at_ : CyclePhase → Frame} {g : Frame} (h : Reached s f₀ off k ⟨.rel, x, at_ .fall :: fs⟩ dr)
    (hd : s.ctl.length ≤ fs.length) (hr : s.noReset (k + 7)) (hoff : off → s.hostOff (k + 7))
    (hprim : ∀ p, (at_ p).primitive s.cfg = some p.primitive)
    (hnext : ∀ p, (at_ p).deliver s.cfg .unit = (p.succ.map at_).getD g) :
    Reached s f₀ off (k + 8) ⟨.rel, x, g :: fs⟩ (dr ++ pulse) := by
  have fall := h.lowerClk hd (hr.mono (by omega)) (hprim .fall) (hnext .fall) fun ho => (hoff ho).mono (by omega)
  have low := fall.delay hd (hr.mono (by omega)) (hprim .low) (hnext .low)
  have rise := low.raiseClk hd (hr.mono (by omega)) (hprim .rise) (hnext .rise)
  have high := rise.delay hd (hr.mono (by omega)) (hprim .high) (hnext .high)
  rw [List.append_assoc] at high
  exact high

/-- What a bit cell drives. -/
def cellDrives (v : Bool) : List (Line × Drive) := (.dat, driveOfBit v) :: pulse

/-- R123 to R126: a bit cell that presents `v`, whatever the host does meanwhile. -/
theorem Reached.cell {v : Bool} {at_ : CellPhase → Frame} {g : Frame}
    (h : Reached s f₀ off k ⟨.rel, x, at_ .data :: fs⟩ dr)
    (hd : s.ctl.length ≤ fs.length) (hr : s.noReset (k + 11)) (hoff : off → s.hostOff (k + 11))
    (hprim : ∀ p, (at_ p).primitive s.cfg = some (p.primitive s.cfg v))
    (hnext : ∀ p, (at_ p).deliver s.cfg .unit = (p.succ.map at_).getD g) :
    Reached s f₀ off (k + 12) ⟨.rel, driveOfBit v, g :: fs⟩ (dr ++ cellDrives v) := by
  have data := h.driveDat hd (hr.mono (by omega)) (hprim .data) (hnext .data)
  have setup := data.delay hd (hr.mono (by omega)) (hprim .setup) (hnext .setup)
  have cycle := setup.clockCycle (at_ := fun p => at_ (.cycle p)) (g := g) hd hr hoff (fun p => hprim (.cycle p))
    fun p => (hnext (.cycle p)).trans (by cases p <;> rfl)
  rw [List.append_assoc] at cycle
  exact cycle

/-! ### The eleven cells -/

/-- The locals of `transmit` in the data cell of bit `i` (R122, R124). -/
def TxLocals.atBit (b : Byte) (i : Nat) : TxLocals := { b := b, sh := b >>> i, par := parAfter b i, i := i }

theorem shiftBit_atBit (b : Byte) (i : Nat) : shiftBit (TxLocals.atBit b i).sh = b.getLsbD i := by
  simp [shiftBit, TxLocals.atBit]

theorem next_atBit (b : Byte) (i : Nat) : (TxLocals.atBit b i).next = TxLocals.atBit b (i + 1) := by
  obtain ⟨hsh, hpar⟩ := shift_next (b := b) (v := TxLocals.atBit b i) rfl rfl
  calc (TxLocals.atBit b i).next
    _ = ⟨b, (TxLocals.atBit b i).next.sh, (TxLocals.atBit b i).next.par, i + 1⟩ := rfl
    _ = TxLocals.atBit b (i + 1) := by rw [hsh, hpar]; rfl

theorem afterCell_atBit (b : Byte) {i : Nat} (hi : i < 7) :
    (TxLocals.atBit b i).afterCell = .transmit (TxLocals.atBit b (i + 1)) (.bus (.t4 .data)) := by
  rw [TxLocals.afterCell_lt hi, next_atBit]

theorem afterCell_atBit_last (b : Byte) :
    (TxLocals.atBit b 7).afterCell = .transmit (TxLocals.atBit b 8) (.bus (.t5 .data)) := by
  rw [TxLocals.afterCell_last (Nat.lt_irrefl 7), next_atBit]

theorem frameDrives_eq (b : Byte) :
    frameDrives b = cellDrives false ++ (List.range 8).flatMap (fun i => cellDrives (b.getLsbD i))
      ++ (cellDrives (parity b) ++ cellDrives true) := rfl

theorem range_succ_cells (b : Byte) (i : Nat) :
    (List.range (i + 1)).flatMap (fun i => cellDrives (b.getLsbD i))
      = (List.range i).flatMap (fun i => cellDrives (b.getLsbD i)) ++ cellDrives (b.getLsbD i) := by
  rw [List.range_succ, List.flatMap_append, List.flatMap_singleton]

section

variable {b : Byte} (hd : s.ctl.length ≤ fs.length)
include hd

/-- R124: one data cell. -/
theorem Reached.dataCell {i : Nat}
    (h : Reached s f₀ off k ⟨.rel, x, .transmit (TxLocals.atBit b i) (.bus (.t4 .data)) :: fs⟩ dr)
    (hr : s.noReset (k + 11)) (hoff : off → s.hostOff (k + 11)) :
    Reached s f₀ off (k + 12) ⟨.rel, driveOfBit (b.getLsbD i), (TxLocals.atBit b i).afterCell :: fs⟩
      (dr ++ cellDrives (b.getLsbD i)) :=
  h.cell (at_ := fun p => .transmit (TxLocals.atBit b i) (.bus (.t4 p))) hd hr hoff
    (fun p => by rw [← shiftBit_atBit]; rfl) fun p => by rcases p with _ | _ | (_ | _ | _ | _) <;> rfl

/-- R124: the data cells before that of bit `i`. -/
theorem Reached.dataCells {i : Nat} (hi : i ≤ 7)
    (h : Reached s f₀ off k ⟨.rel, x, .transmit (TxLocals.atBit b 0) (.bus (.t4 .data)) :: fs⟩ dr)
    (hr : s.noReset (k + 12 * i)) (hoff : off → s.hostOff (k + 12 * i)) :
    ∃ y, Reached s f₀ off (k + 12 * i) ⟨.rel, y, .transmit (TxLocals.atBit b i) (.bus (.t4 .data)) :: fs⟩
      (dr ++ (List.range i).flatMap (fun i => cellDrives (b.getLsbD i))) := by
  induction i with
  | zero => exact ⟨x, by rw [List.range_zero, List.flatMap_nil, List.append_nil]; exact h⟩
  | succ i ih =>
    obtain ⟨y, hy⟩ := ih (by omega) (hr.mono (by omega)) fun ho => (hoff ho).mono (by omega)
    have cell := hy.dataCell hd (hr.mono (by omega)) fun ho => (hoff ho).mono (by omega)
    rw [afterCell_atBit b (by omega), List.append_assoc, ← range_succ_cells] at cell
    exact ⟨_, cell⟩

/-- R122 to R126: the frame of `b`, from T2 to the acknowledgment window, whatever the host does meanwhile. -/
theorem Reached.frame (h : Reached s f₀ off k ⟨.rel, .rel, .transmit (TxLocals.atEntry b) .t2 :: fs⟩ dr)
    (hr : s.noReset (k + 132)) (hoff : off → s.hostOff (k + 132)) :
    Reached s f₀ off (k + 133) ⟨.rel, .rel, .transmit (TxLocals.atBit b 8) .t7 :: fs⟩ (dr ++ frameDrives b) := by
  have t2 := h.next (ctl := .transmit (TxLocals.atBit b 0) (.bus (.t3 .data)) :: fs) hd (hr.mono (by omega))
    fun _ _ _ => by rw [TxLocals.atBit, BitVec.ushiftRight_zero]; rfl
  have t3 := t2.cell (v := false) (at_ := fun p => .transmit (TxLocals.atBit b 0) (.bus (.t3 p)))
    (g := .transmit (TxLocals.atBit b 0) (.bus (.t4 .data))) hd (hr.mono (by omega))
    (fun ho => (hoff ho).mono (by omega)) (fun _ => rfl) fun p => by rcases p with _ | _ | (_ | _ | _ | _) <;> rfl
  obtain ⟨y, bits⟩ := t3.dataCells hd (Nat.le_refl 7) (hr.mono (by omega)) fun ho => (hoff ho).mono (by omega)
  have t4 := bits.dataCell hd (hr.mono (by omega)) fun ho => (hoff ho).mono (by omega)
  rw [afterCell_atBit_last, List.append_assoc, ← range_succ_cells] at t4
  have t5 := t4.cell (v := parity b) (at_ := fun p => .transmit (TxLocals.atBit b 8) (.bus (.t5 p)))
    (g := .transmit (TxLocals.atBit b 8) (.bus (.t6 .data))) hd (hr.mono (by omega))
    (fun ho => (hoff ho).mono (by omega)) (fun _ => by rw [← parAfter_eight]; rfl) fun p => by
      rcases p with _ | _ | (_ | _ | _ | _) <;> rfl
  have t6 := t5.cell (v := true) (at_ := fun p => .transmit (TxLocals.atBit b 8) (.bus (.t6 p)))
    (g := .transmit (TxLocals.atBit b 8) .t7) hd (hr.mono (by omega)) (fun ho => (hoff ho).mono (by omega))
    (fun _ => rfl) fun p => by rcases p with _ | _ | (_ | _ | _ | _) <;> rfl
  rw [frameDrives_eq]
  simp only [List.append_assoc] at t6 ⊢
  exact t6

/-! ### The acknowledgment window -/

variable {v : TxLocals}

/-- A sample of the window for the end of the pulse. -/
theorem Reached.sampleHigh {left : Nat} (h : Reached s f₀ off k ⟨.rel, .rel, .transmit v (.bus (.t7High left)) :: fs⟩ dr)
    (hr : s.noReset (k + 1)) :
    Reached s f₀ off (k + 2) ⟨.rel, .rel, .transmit v .t8 :: fs⟩ dr
      ∨ Reached s f₀ off (k + 2) ⟨.rel, .rel, .transmit v (spend left (fun n => .bus (.t7High n))) :: fs⟩ dr := by
  obtain ⟨p, hp, _⟩ := hr.input
  have sample := h.readClk hd hr rfl rfl ⟨p, hp, rfl⟩
  cases hc : p.hclk <;> rw [hc] at sample
  · exact .inl sample
  · exact .inr sample

/-- A sample of the window for the pulse. -/
theorem Reached.sampleLow {left : Nat} (h : Reached s f₀ off k ⟨.rel, .rel, .transmit v (.bus (.t7Low left)) :: fs⟩ dr)
    (hr : s.noReset (k + 1)) :
    Reached s f₀ off (k + 2) ⟨.rel, .rel, .transmit v (.bus (.t7High left)) :: fs⟩ dr
      ∨ Reached s f₀ off (k + 2) ⟨.rel, .rel, .transmit v (spend left (fun n => .bus (.t7Low n))) :: fs⟩ dr := by
  obtain ⟨p, hp, _⟩ := hr.input
  have sample := h.readClk hd hr rfl rfl ⟨p, hp, rfl⟩
  cases hc : p.hclk <;> rw [hc] at sample
  · exact .inr sample
  · exact .inl sample

/-- R127: the second half of the window, `left` unmet samples to spend. -/
theorem Reached.ackHigh {left : Nat} (h : Reached s f₀ off k ⟨.rel, .rel, .transmit v (.bus (.t7High left)) :: fs⟩ dr)
    (hr : s.noReset (k + 2 * left + 1)) :
    ∃ j, j ≤ k + 2 * left + 2 ∧ Reached s f₀ off j ⟨.rel, .rel, .transmit v .t8 :: fs⟩ dr := by
  induction left generalizing k with
  | zero =>
    rcases h.sampleHigh hd hr with met | expired
    · exact ⟨k + 2, Nat.le_refl _, met⟩
    · exact ⟨k + 2, Nat.le_refl _, expired⟩
  | succ left ih =>
    rcases h.sampleHigh hd (hr.mono (by omega)) with met | unmet
    · exact ⟨k + 2, by omega, met⟩
    · obtain ⟨j, hj, h8⟩ := ih unmet (hr.mono (by omega))
      exact ⟨j, by omega, h8⟩

/-- R127: the window, ended by the host's pulse or by expiry. -/
theorem Reached.ackLow {left : Nat} (h : Reached s f₀ off k ⟨.rel, .rel, .transmit v (.bus (.t7Low left)) :: fs⟩ dr)
    (hr : s.noReset (k + 2 * left + 3)) :
    ∃ j, j ≤ k + 2 * left + 4 ∧ Reached s f₀ off j ⟨.rel, .rel, .transmit v .t8 :: fs⟩ dr := by
  induction left generalizing k with
  | zero =>
    rcases h.sampleLow hd (hr.mono (by omega)) with met | expired
    · obtain ⟨j, hj, h8⟩ := met.ackHigh hd (hr.mono (by omega))
      exact ⟨j, by omega, h8⟩
    · exact ⟨k + 2, by omega, expired⟩
  | succ left ih =>
    rcases h.sampleLow hd (hr.mono (by omega)) with met | unmet
    · obtain ⟨j, hj, h8⟩ := met.ackHigh hd (hr.mono (by omega))
      exact ⟨j, by omega, h8⟩
    · obtain ⟨j, hj, h8⟩ := ih unmet (hr.mono (by omega))
      exact ⟨j, by omega, h8⟩

/-- R127: the acknowledgment window as it opens, its bound being at most `m`. -/
theorem Reached.ackWindow {m : Nat} (h : Reached s f₀ off k ⟨.rel, .rel, .transmit v .t7 :: fs⟩ dr)
    (hr : s.noReset (k + 2 * m + 4)) (hm : s.inputAt k (fun p => p.bound ≤ m)) :
    ∃ j, j ≤ k + 2 * m + 5 ∧ Reached s f₀ off j ⟨.rel, .rel, .transmit v .t8 :: fs⟩ dr := by
  obtain ⟨p, hp, hbound⟩ := hm
  have hrst := (hr.mono (k := k) (by omega)).2 p (inputAt_mem hp)
  have opened := h.move (ctl := .transmit v (.bus (.t7Low p.bound)) :: fs) hd hp hrst fun _ _ => rfl
  obtain ⟨j, hj, h8⟩ := opened.ackLow hd (hr.mono (by omega))
  exact ⟨j, by omega, h8⟩

end

/-- R121: the idle check, both lines high at their samples. -/
theorem Reached.idleCheck {b : Byte} (h : Reached s f₀ off k ⟨.rel, .rel, Frame.newTransmit b :: fs⟩ dr)
    (hd : s.ctl.length ≤ fs.length) (hr : s.noReset (k + 3)) (hclk : s.inputAt (k + 1) (fun p => p.hclk = .rel))
    (hdat : s.inputAt (k + 3) (fun p => p.hdat = .rel)) :
    Reached s f₀ off (k + 4) ⟨.rel, .rel, .transmit (TxLocals.atEntry b) .t2 :: fs⟩ dr :=
  have t0 := h.readClk (v := .high) hd (hr.mono (by omega)) rfl rfl hclk.high
  Reached.readDat (f := .transmit (TxLocals.atEntry b) (.bus .t1)) (v := .high) t0 hd hr rfl rfl
    hdat.high

end

/-! ### What a host samples -/

theorem fallLevels_cells (x : Drive) (vs : List Bool) : fallLevels x (vs.flatMap cellDrives) = vs.map levelOfBit := by
  induction vs generalizing x with
  | nil => rfl
  | cons v vs ih =>
    rw [List.flatMap_cons, fallLevels_append, ih, List.map_cons]
    cases v <;> rfl

/-- R132: the eleven bits of a frame stand on an undisturbed data line at the falling clock edges. -/
theorem fallLevels_frame (x : Drive) (b : Byte) : fallLevels x (frameDrives b) = (frameCells b).map levelOfBit :=
  fallLevels_cells x _

/-- R72: among the data and parity bits of a frame an odd number is 1. -/
theorem odd_ones (b : Byte) : ((List.range 8).map (fun n => b.getLsbD n) ++ [parity b]).countP id % 2 = 1 := by
  revert b
  decide

/-! ### The operation -/

/-- R121 to R132: `transmit` of `b` on a released bus with a host that passes the idle check and does anything else. What
the falling edges show rests on H-TX up to the last of them. -/
theorem transmit_ok {b : Byte} {m : Nat} {s : State} (hrel : s.released) (hr : s.noReset (142 + 2 * m))
    (hclk : s.inputAt 1 (fun p => p.hclk = .rel)) (hdat : s.inputAt 3 (fun p => p.hdat = .rel))
    (hm : s.inputAt 137 (fun p => p.bound ≤ m)) :
    ∃ t, exec (.opTransmit b) s = .next t ∧ Completed s t (.code .ok) [b] [] ∧ t.driven = s.driven ++ frameDrives b
      ∧ (s.hostOff 136 → t.edges = s.edges ++ (frameCells b).map levelOfBit) ∧ KeysAndFlagKept s t ∧ PortKept s t := by
  obtain ⟨hc, hx⟩ := hrel
  have start := reached_start s (Frame.newTransmit b) (s.hostOff 136)
  rw [hc, hx] at start
  have check := start.idleCheck (Nat.le_refl _) (hr.mono (by omega)) hclk hdat
  have cells := check.frame (Nat.le_refl _) (hr.mono (by omega)) id
  obtain ⟨j, hj, t8⟩ := cells.ackWindow (Nat.le_refl _) (hr.mono (by omega)) hm
  obtain ⟨ev, hdriven, hsent, hlogged, hedges, e, sc, n, hcall⟩ := t8.call_returns (hr.mono (by omega)) fun _ => rfl
  refine ⟨_, congrArg Host.Outcome.next hcall, ?_, ?_, fun ho => ?_, ⟨ended_slots, ended_enabled⟩, ended_port rfl⟩
  · exact ended_completed hsent hlogged
  · rw [ended_driven]
    exact congrArg _ hdriven
  · rw [ended_edges]
    exact congrArg _ ((hedges ho).trans (fallLevels_frame _ b))

/-- Settles O18, by `transmit_ok`. -/
theorem transmitOpenLoop : Obligations.TransmitOpenLoop := fun b m s hrel hr hclk hdat hm => by
  obtain ⟨t, hexec, hdone, hdriven, _, hkeys, hport⟩ := transmit_ok (b := b) hrel hr hclk hdat hm
  exact ⟨t, hexec, hdone, hdriven, hkeys, hport⟩

/-- Settles O16, by `transmit_ok` and the parity of the frame. -/
theorem transmitFrame : Obligations.TransmitFrame := fun b m s hrel hr hoff hm => by
  have released (k : Nat) (hk : k ≤ 136) : s.inputAt k (fun p => p.hclk = .rel ∧ p.hdat = .rel) := by
    obtain ⟨p, hp, _⟩ := (hr.mono (k := k) (by omega)).input
    exact ⟨p, hp, hoff.mono hk p (inputAt_mem hp)⟩
  obtain ⟨t, hexec, hdone, _, hedges, hkeys, hport⟩ := transmit_ok (b := b) hrel hr
    ((released 1 (by decide)).imp fun _ hp => hp.1) ((released 3 (by decide)).imp fun _ hp => hp.2) hm
  exact ⟨⟨t, hexec, hdone, hedges hoff, hkeys, hport⟩, odd_ones b⟩

end Sys2Proof.Machine
end

section
/-!
`receive` under an arbitrary host (R59, R62, R141 to R148): the start-bit wait that expires, and the byte of a host that
has each bit on the line when the device samples it, whatever it does between two samples.
-/

namespace Sys2Proof.Machine

/-! ### The start-bit wait -/

section

variable {s : State} {f₀ : Frame} {off : Prop} {k : Nat} {c x : Drive} {v : RxLocals} {fs : List Frame}
  {dr : List (Line × Drive)} (hd : s.ctl.length ≤ fs.length)
include hd

/-- R141: the wait is entered with the bound that is read then. -/
theorem Reached.startWait {left : Nat} (h : Reached s f₀ off k ⟨c, x, .receive v .rx0 :: fs⟩ dr) (hr : s.noReset k)
    (hb : s.inputAt k (fun p => p.bound = left)) :
    Reached s f₀ off (k + 1) ⟨c, x, .receive v (.bus (.rx0 left)) :: fs⟩ dr := by
  obtain ⟨p, hp, rfl⟩ := hb
  exact h.move hd hp (hr.2 p (inputAt_mem hp)) fun _ _ => rfl

/-- R141, R62: `n` unmet start-bit samples of those the bound allows. -/
theorem Reached.startUnmet {left n : Nat}
    (h : Reached s f₀ off k ⟨c, .rel, .receive v (.bus (.rx0 (left + n))) :: fs⟩ dr) (hr : s.noReset (k + 2 * n))
    (hu : ∀ j, j < n → s.inputAt (k + 2 * j + 1) (fun p => p.hdat = .rel)) :
    Reached s f₀ off (k + 2 * n) ⟨c, .rel, .receive v (.bus (.rx0 left)) :: fs⟩ dr := by
  induction n generalizing left with
  | zero => exact h
  | succ n ih =>
    have before : Reached s f₀ off (k + 2 * n) ⟨c, .rel, .receive v (.bus (.rx0 (left + 1))) :: fs⟩ dr :=
      ih (by rwa [Nat.add_right_comm]) (hr.mono (by omega)) fun j hj => hu j (by omega)
    exact before.readDat (v := .high) hd (hr.mono (by omega)) rfl rfl
      (hu n (Nat.lt_succ_self n)).high

/-- R142: the host holds the clock for `m` samples. -/
theorem Reached.clockHeld {m : Nat} (h : Reached s f₀ off k ⟨c, x, .receive v (.bus .rx1) :: fs⟩ dr)
    (hr : s.noReset (k + 2 * m)) (hu : ∀ j, j < m → s.inputAt (k + 2 * j + 1) (fun p => p.hclk = .drvLow)) :
    Reached s f₀ off (k + 2 * m) ⟨c, x, .receive v (.bus .rx1) :: fs⟩ dr := by
  induction m with
  | zero => exact h
  | succ m ih =>
    have before := ih (hr.mono (by omega)) fun j hj => hu j (by omega)
    exact before.readClk (v := .low) hd (hr.mono (by omega)) rfl rfl
      ((hu m (Nat.lt_succ_self m)).low c)

end

/-! ### The read cycles -/

/-- R76: the first `i` bits of `b`, inserted one by one. -/
def assembled (b : Byte) (i : Nat) : Byte := (List.range i).foldl (fun rx j => rxInsert rx j (b.getLsbD j)) 0

theorem assembled_succ (b : Byte) (i : Nat) : assembled b (i + 1) = rxInsert (assembled b i) i (b.getLsbD i) := by
  simp [assembled, List.range_succ, List.foldl_append]

theorem assembled_eight (b : Byte) : assembled b 8 = b := assemble_byte b

/-- The locals of `receive` in the read cycle of bit `i` of a host that sends `b` (R143). -/
def RxLocals.atBit (b : Byte) (i : Nat) : RxLocals := { rx := assembled b i, par := parAfter b i, i := i }

/-- The locals after the sample of bit `i`. -/
theorem take_atBit (b : Byte) (i : Nat) :
    { (RxLocals.atBit b i).take (b.getLsbD i) with i := i + 1 } = RxLocals.atBit b (i + 1) := by
  rw [RxLocals.atBit, RxLocals.atBit, assembled_succ, parAfter_succ]
  rfl

theorem afterRead_atBit (b : Byte) {i : Nat} (hi : i < 7) :
    ((RxLocals.atBit b i).take (b.getLsbD i)).afterRead = .receive (RxLocals.atBit b (i + 1)) (.bus (.rx3 .fall)) := by
  rw [RxLocals.afterRead_lt (v := (RxLocals.atBit b i).take _) hi, ← take_atBit]
  rfl

theorem afterRead_atBit_last (b : Byte) :
    ((RxLocals.atBit b 7).take (b.getLsbD 7)).afterRead = .receive (RxLocals.atBit b 8) (.bus (.rx4 .fall)) := by
  rw [RxLocals.afterRead_last (v := (RxLocals.atBit b 7).take _) (Nat.lt_irrefl 7), ← take_atBit]
  rfl

theorem range_succ_pulses (i : Nat) :
    (List.replicate (i + 1) pulse).flatten = (List.replicate i pulse).flatten ++ pulse := by
  rw [List.replicate_succ', List.flatten_append, List.flatten_singleton]

section

variable {s : State} {f₀ : Frame} {k : Nat} {fs : List Frame} {dr : List (Line × Drive)} (hd : s.ctl.length ≤ fs.length)
include hd

/-- R143: a read cycle, the bit `bit` on the line at its sample. -/
theorem Reached.readCycle {v : RxLocals} {bit : Bool}
    (h : Reached s f₀ False k ⟨.rel, .rel, .receive v (.bus (.rx3 .fall)) :: fs⟩ dr) (hr : s.noReset (k + 9))
    (hbit : s.inputAt (k + 7) (fun p => p.hdat = driveOfBit bit)) :
    Reached s f₀ False (k + 10) ⟨.rel, .rel, (v.take bit).afterRead :: fs⟩ (dr ++ pulse) := by
  have fall := h.lowerClk (g := .receive v (.bus (.rx3 .low))) hd (hr.mono (by omega)) rfl rfl False.elim
  have low := fall.delay (g := .receive v (.bus (.rx3 .rise))) hd (hr.mono (by omega)) rfl rfl
  have rise := low.raiseClk (g := .receive v (.bus (.rx3 .sample))) hd (hr.mono (by omega)) rfl rfl
  have sample := rise.readDat (v := levelOfBit bit) (g := .receive (v.take bit) (.bus (.rx3 .high))) hd
    (hr.mono (by omega)) rfl (by rw [Frame.deliver, RxBus.deliver, high_levelOfBit])
    (hbit.imp fun p hp => by rw [hp, wireLevel_rel_driveOfBit])
  have high := sample.delay hd hr rfl rfl
  rw [List.append_assoc] at high
  exact high

/-- R143: the read cycles before that of bit `i`. -/
theorem Reached.readCycles {b : Byte} {i : Nat} (hi : i ≤ 7)
    (h : Reached s f₀ False k ⟨.rel, .rel, .receive (RxLocals.atBit b 0) (.bus (.rx3 .fall)) :: fs⟩ dr)
    (hr : s.noReset (k + 10 * i))
    (hbits : ∀ j, j < i → s.inputAt (k + 10 * j + 7) (fun p => p.hdat = driveOfBit (b.getLsbD j))) :
    Reached s f₀ False (k + 10 * i) ⟨.rel, .rel, .receive (RxLocals.atBit b i) (.bus (.rx3 .fall)) :: fs⟩
      (dr ++ (List.replicate i pulse).flatten) := by
  induction i with
  | zero =>
    rw [List.replicate_zero, List.flatten_nil, List.append_nil]
    exact h
  | succ i ih =>
    have before := ih (by omega) (hr.mono (by omega)) fun j hj => hbits j (by omega)
    have cycle := before.readCycle hd (hr.mono (by omega)) (hbits i (Nat.lt_succ_self i))
    rwa [afterRead_atBit b (by omega), List.append_assoc, ← range_succ_pulses] at cycle

/-- R143: the eight read cycles. -/
theorem Reached.readByte {b : Byte}
    (h : Reached s f₀ False k ⟨.rel, .rel, .receive (RxLocals.atBit b 0) (.bus (.rx3 .fall)) :: fs⟩ dr)
    (hr : s.noReset (k + 79))
    (hbits : ∀ j, j < 8 → s.inputAt (k + 10 * j + 7) (fun p => p.hdat = driveOfBit (b.getLsbD j))) :
    Reached s f₀ False (k + 80) ⟨.rel, .rel, .receive (RxLocals.atBit b 8) (.bus (.rx4 .fall)) :: fs⟩
      (dr ++ (List.replicate 8 pulse).flatten) := by
  have before := h.readCycles hd (Nat.le_refl 7) (hr.mono (by omega)) fun j hj => hbits j (by omega)
  have last := before.readCycle hd (hr.mono (by omega)) (hbits 7 (by omega))
  rwa [afterRead_atBit_last, List.append_assoc, ← range_succ_pulses] at last

/-- R145 to R147: the parity and the stop pulse, unread, and the acknowledgment around the eleventh. -/
theorem Reached.acknowledge {v : RxLocals}
    (h : Reached s f₀ False k ⟨.rel, .rel, .receive v (.bus (.rx4 .fall)) :: fs⟩ dr) (hr : s.noReset (k + 27)) :
    Reached s f₀ False (k + 28) ⟨.rel, .rel, .receive v .rx7 :: fs⟩
      (dr ++ (pulse ++ pulse ++ (.dat, .drvLow) :: (pulse ++ [(.dat, .rel)]))) := by
  have parity := h.clockCycle (at_ := fun p => .receive v (.bus (.rx4 p))) (g := .receive v (.bus (.rx5 .fall))) hd
    (hr.mono (by omega)) False.elim (fun _ => rfl) fun p => by cases p <;> rfl
  have stop := parity.clockCycle (at_ := fun p => .receive v (.bus (.rx5 p))) (g := .receive v (.bus .rx6Assert)) hd
    (hr.mono (by omega)) False.elim (fun _ => rfl) fun p => by cases p <;> rfl
  have lower := stop.driveDat (y := .drvLow) (g := .receive v (.bus (.rx6 .fall))) hd (hr.mono (by omega)) rfl rfl
  have ack := lower.clockCycle (at_ := fun p => .receive v (.bus (.rx6 p))) (g := .receive v (.bus .rx6Release)) hd
    (hr.mono (by omega)) False.elim (fun _ => rfl) fun p => by cases p <;> rfl
  have raise := ack.driveDat (y := .rel) (g := .receive v .rx7) hd hr rfl rfl
  simp only [List.append_assoc] at raise ⊢
  exact raise

end

/-! ### The frame of a host -/

/-- `State.hostFrames` for a `receive` that begins `k` steps from now. -/
def State.hostFramesFrom (s : State) (k n m : Nat) (b : Byte) : Prop :=
  s.startUnmet k n ∧ s.inputAt (k + 2 * n + 2) (fun p => p.hdat = .drvLow)
    ∧ (∀ j, j < m → s.inputAt (k + 2 * n + 4 + 2 * j) (fun p => p.hclk = .drvLow))
    ∧ s.inputAt (k + 2 * n + 4 + 2 * m) (fun p => p.hclk = .rel)
    ∧ ∀ i, i < 8 → s.inputAt (k + 2 * n + 15 + 2 * m + 10 * i) (fun p => p.hdat = driveOfBit (b.getLsbD i))

theorem hostFramesFrom_zero (s : State) (n m : Nat) (b : Byte) : s.hostFramesFrom 0 n m b ↔ s.hostFrames n m b := by
  simp only [State.hostFramesFrom, State.hostFrames, Nat.zero_add]

/-- R141 to R147: `receive` up to its return, the host having each bit of `b` on the line at the sample of it. -/
theorem Reached.receive {s : State} {f₀ : Frame} {k n m : Nat} {b : Byte} {fs : List Frame} {dr : List (Line × Drive)}
    (h : Reached s f₀ False k ⟨.rel, .rel, Frame.newReceive :: fs⟩ dr) (hd : s.ctl.length ≤ fs.length)
    (hr : s.noReset (k + 2 * n + 2 * m + 115)) (hf : s.hostFramesFrom k n m b) :
    Reached s f₀ False (k + 2 * n + 2 * m + 116) ⟨.rel, .rel, .receive (RxLocals.atBit b 8) .rx7 :: fs⟩
      (dr ++ receiveDrives) := by
  obtain ⟨⟨⟨p, hp, hn⟩, hunmet⟩, hstart, hheld, hfree, hbits⟩ := hf
  obtain ⟨left, hleft⟩ := Nat.exists_eq_add_of_le' hn
  have entered := h.startWait hd (hr.mono (by omega)) ⟨p, hp, hleft⟩
  have unmet := entered.startUnmet hd (hr.mono (by omega)) fun j hj =>
    (by omega : k + 2 * j + 2 = k + 1 + 2 * j + 1) ▸ hunmet j hj
  have start := unmet.readDat (v := .low) (g := .receive RxLocals.atEntry (.bus .rx1)) hd (hr.mono (by omega)) rfl rfl
    ((by omega : k + 2 * n + 2 = k + 1 + 2 * n + 1) ▸ hstart.low .rel)
  have held := start.clockHeld hd (hr.mono (by omega)) fun j hj =>
    (by omega : k + 2 * n + 4 + 2 * j = k + 1 + 2 * n + 2 + 2 * j + 1) ▸ hheld j hj
  have free := held.readClk (v := .high) (g := .receive RxLocals.atEntry (.bus .rx1Lead)) hd (hr.mono (by omega)) rfl
    rfl ((by omega : k + 2 * n + 4 + 2 * m = k + 1 + 2 * n + 2 + 2 * m + 1) ▸ hfree.high)
  have lead := free.delay (g := .receive RxLocals.atEntry .rx2) hd (hr.mono (by omega)) rfl rfl
  have first := lead.next (ctl := .receive (RxLocals.atBit b 0) (.bus (.rx3 .fall)) :: fs) hd (hr.mono (by omega))
    fun _ _ _ => rfl
  have byte := first.readByte hd (hr.mono (by omega)) fun i hi =>
    (by omega : k + 2 * n + 15 + 2 * m + 10 * i = k + 1 + 2 * n + 2 + 2 * m + 2 + 2 + 1 + 10 * i + 7) ▸ hbits i hi
  have ack := byte.acknowledge hd (hr.mono (by omega))
  rw [List.append_assoc] at ack
  exact (by omega : k + 1 + 2 * n + 2 + 2 * m + 2 + 2 + 1 + 80 + 28 = k + 2 * n + 2 * m + 116) ▸ ack

/-! ### The operation -/

/-- R148: the byte that is returned. -/
theorem step_rx7 (b : Byte) (fs : List Frame) (t : State) :
    stepFrame (.receive (RxLocals.atBit b 8) .rx7) fs t
      = t.returnFrom (.receive (RxLocals.atBit b 8) .rx7) (.byte b) fs := by
  rw [stepFrame, stepReceive, RxLocals.atBit, assembled_eight]

/-- Settles O20: the unmet samples the bound allows, one more, and the return. -/
theorem receiveTimeout : Obligations.ReceiveTimeout := fun n s hrel hr hexp => by
  obtain ⟨hbound, hunmet⟩ := hexp
  have start := reached_start s Frame.newReceive False
  rw [hrel] at start
  have entered := start.startWait (Nat.le_refl _) (hr.mono (by omega)) hbound
  have unmet := (Nat.zero_add n ▸ entered).startUnmet (left := 0) (n := n) (Nat.le_refl _) (hr.mono (by omega))
    fun j hj => (by omega : 0 + 2 * j + 2 = 0 + 1 + 2 * j + 1) ▸ hunmet j (Nat.le_of_lt hj)
  have expired := unmet.readDat (v := .high) (g := .receive RxLocals.atEntry .rx0Out) (Nat.le_refl _)
    (hr.mono (by omega)) rfl rfl ((by omega : 0 + 2 * n + 2 = 0 + 1 + 2 * n + 1) ▸ (hunmet n (Nat.le_refl n)).high)
  obtain ⟨ev, hdriven, hsent, hlogged, _, e, sc, k, hcall⟩ := expired.call_returns (hr.mono (by omega)) fun _ => rfl
  refine ⟨_, congrArg Host.Outcome.next hcall, ?_, ?_, ended_port rfl⟩
  · exact ended_quiescent hsent hlogged
  · exact ended_undriven rfl hrel.symm hdriven

/-- Settles O21, by the run of `receive` and its return. -/
theorem receiveByte : Obligations.ReceiveByte := fun n m b s hrel hr hf => by
  obtain ⟨hc, hx⟩ := hrel
  have start := reached_start s Frame.newReceive False
  rw [hc, hx] at start
  have run := start.receive (Nat.le_refl _) (hr.mono (by omega)) ((hostFramesFrom_zero s n m b).2 hf)
  obtain ⟨ev, hdriven, hsent, hlogged, _, e, sc, k, hcall⟩ := run.call_returns (r := .byte b) (hr.mono (by omega))
    (step_rx7 b s.ctl)
  refine ⟨_, congrArg Host.Outcome.next hcall, ?_, ?_, ⟨ended_slots, ended_enabled⟩, ended_port rfl⟩
  · exact ended_completed hsent hlogged
  · rw [ended_driven]
    exact congrArg _ hdriven

end Sys2Proof.Machine
end

section
/-!
Under a quiet host: one undisturbed pass of the retry loop (R190), and what the body of every command byte does, against
the table of the commands (R177).
-/

namespace Sys2Proof.Machine

/-! ### The retry loop -/

/-- Settles O35, by the run of `send_sequence` in a quiet world. -/
theorem sendSequence : Obligations.SendSequence := fun i seq s hi hrel hq => by
  have hexec : exec i s = .next (s.call (.sendSequence seq .l0)) := by
    rcases hi with rfl | ⟨l, rfl, rfl⟩ | ⟨l, rfl, rfl⟩ | ⟨l, rfl, rfl⟩ | ⟨l, rfl, rfl⟩ | ⟨rfl, rfl⟩ | ⟨rfl, rfl⟩
      | ⟨rfl, rfl⟩ | ⟨rfl, rfl⟩
    iterate 9 rfl
  obtain ⟨hcompleted, hwire, hslots, henabled, hdone, hresult⟩ := call_completes hrel hq (by omega) (by omega)
    (completes_sendSequence { s with inject := none, done := false } seq)
  rw [show (s.ctl.isEmpty && (Frame.sendSequence seq .l0).external) = false from Bool.and_false _] at hdone hresult
  exact ⟨_, hexec, hcompleted, hwire, ⟨hslots, henabled⟩, hdone, hresult⟩

/-! ### The command table (R177) -/

/-- What the body of the command byte `cmd` does under a quiet host is what the table says of the command `i`, within 429
events. -/
structure BodyOf (c : Config) (cmd : Byte) (i : Instr) (acts : List HandlerAction) : Prop where
  replies : bytesOf c acts = repliesOf c i
  flag : ∀ e, flagOf c e acts = enabledAfter i e
  logs : logOf c cmd acts = logsOf i
  ticks : ticksOf c acts ≤ 429

/-- R168, R170, R172: a command with a parameter, which does not arrive. -/
theorem bodyOf_param {c : Config} {cmd : Byte} {i : Instr}
    (hreplies : repliesOf c i = if c.ack2OnTimeout then [c.ackByte, c.ackByte] else [c.ackByte])
    (hflag : ∀ e, enabledAfter i e = e) (hlogs : logsOf i = []) : BodyOf c cmd i bodyParam := by
  cases h : c.ack2OnTimeout
  · exact ⟨by simp [bodyParam, bytesOf, hreplies, h], fun e => by simp [bodyParam, flagOf, hflag],
      by simp [bodyParam, logOf, hlogs], by simp [bodyParam, ticksOf, h]⟩
  · exact ⟨by simp [bodyParam, bytesOf, hreplies, h], fun e => by simp [bodyParam, flagOf, hflag],
      by simp [bodyParam, logOf, hlogs], by simp [bodyParam, ticksOf, h]⟩

/-- A test of the command byte, made by the table and by H0 alike. -/
theorem bodyOf_ite {c : Config} {cmd x : Byte} {i j : Instr} {a b : List HandlerAction}
    (heq : cmd = x → BodyOf c cmd i a) (hne : BodyOf c cmd j b) :
    BodyOf c cmd (if cmd = x then i else j) (if cmd = x then a else b) := by
  by_cases h : cmd = x
  · rw [if_pos h, if_pos h]
    exact heq h
  · rw [if_neg h, if_neg h]
    exact hne

/-- R86, R160, R177: the whole table, in its order. -/
theorem bodyOf_command (c : Config) (cmd : Byte) : BodyOf c cmd (commandOf c cmd) (handlerBody c cmd) := by
  refine bodyOf_ite (x := c.cmdReset) (fun _ => ⟨rfl, fun _ => rfl, rfl, Nat.le_of_ble_eq_true rfl⟩) ?_
  refine bodyOf_ite (x := c.cmdResend) (fun _ => ⟨rfl, fun _ => rfl, rfl, Nat.le_of_ble_eq_true rfl⟩) ?_
  refine bodyOf_ite (x := c.cmdSetDefaults) (fun _ => ⟨rfl, fun _ => rfl, rfl, Nat.le_of_ble_eq_true rfl⟩) ?_
  refine bodyOf_ite (x := c.cmdDisable) (fun _ => ⟨rfl, fun _ => rfl, rfl, Nat.le_of_ble_eq_true rfl⟩) ?_
  refine bodyOf_ite (x := c.cmdEnable) (fun _ => ⟨rfl, fun _ => rfl, rfl, Nat.le_of_ble_eq_true rfl⟩) ?_
  refine bodyOf_ite (x := c.cmdSetTypematic) (fun _ => bodyOf_param rfl (fun _ => rfl) rfl) ?_
  refine bodyOf_ite (x := c.cmdGetId) (fun _ => ⟨rfl, fun _ => rfl, rfl, Nat.le_of_ble_eq_true rfl⟩) ?_
  refine bodyOf_ite (x := c.cmdSetScancodeSet) (fun _ => bodyOf_param rfl (fun _ => rfl) rfl) ?_
  refine bodyOf_ite (x := c.cmdEcho) (fun h => ⟨h ▸ rfl, fun _ => rfl, rfl, Nat.le_of_ble_eq_true rfl⟩) ?_
  refine bodyOf_ite (x := c.cmdSetLeds) (fun _ => bodyOf_param rfl (fun _ => rfl) rfl) ?_
  exact ⟨rfl, fun _ => rfl, rfl, Nat.le_of_ble_eq_true rfl⟩

end Sys2Proof.Machine
end

section
/-!
A host command serviced by one `poll` (R221 to R225): the host inhibits, requests to send and sends its frame, which the
device clocks in; what the command does then it does under a quiet host (R177).
-/

namespace Sys2Proof.Machine

/-! ### What a requesting host puts on the lines -/

section

variable {b : Byte} {p : Bool}

theorem hostFrame_length : (hostFrame b p).length = 117 := by simp [hostFrame, hostBit]

/-- R59: the host does not touch the clock in its frame. -/
theorem hostFrame_clk {q : Pins} (h : q ∈ hostFrame b p) : q.hclk = .rel ∧ q.rst = false := by
  have hdat : ∀ q ∈ hostFrame b p, q.hclk = .rel ∧ q.rst = false := by
    simp [hostFrame, hostBit, or_imp, forall_and]
  exact hdat q h

theorem hostFrame_start {j : Nat} (hj : j < 10) : (hostFrame b p)[j]? = some (hostDat .drvLow) := by
  interval_cases j <;> rfl

/-- Ten inputs for each bit. -/
theorem getElem?_hostBits {vs : List Bool} {i j : Nat} (hi : i < vs.length) (hj : j < 10) :
    (vs.flatMap hostBit)[10 * i + j]? = some (hostDat (driveOfBit vs[i])) := by
  induction vs generalizing i with
  | nil => cases hi
  | cons v vs ih =>
    rw [List.flatMap_cons]
    cases i with
    | zero =>
      rw [List.getElem?_append_left (by simpa [hostBit] using hj), hostBit, List.getElem?_replicate_of_lt (by omega)]
      rfl
    | succ i =>
      rw [List.getElem?_append_right (by simp [hostBit]; omega), List.getElem_cons_succ,
        ← ih (Nat.lt_of_succ_lt_succ hi), hostBit, List.length_replicate]
      congr 1
      omega

theorem hostFrame_bit {i j : Nat} (hi : i < 8) (hj : j < 10) :
    (hostFrame b p)[10 * (i + 1) + j]? = some (hostDat (driveOfBit (b.getLsbD i))) := by
  have hframe : hostFrame b p = (false :: (List.range 8).map (fun i => b.getLsbD i)).flatMap hostBit
      ++ (List.replicate 8 (hostDat (driveOfBit p)) ++ List.replicate 19 (hostDat .rel)) := by
    simp [hostFrame, List.range_succ]
  have hbit := getElem?_hostBits (vs := false :: (List.range 8).map (fun i => b.getLsbD i)) (i := i + 1)
    (by simp; omega) hj
  rw [hframe, List.getElem?_append_left (List.getElem?_eq_some_iff.1 hbit).1, hbit]
  simp

theorem hostFrame_last : (hostFrame b p)[116]? = some (hostDat .rel) := rfl

variable {s : State} {n m : Nat} (h : s.hostCommands n b p m)
include h

theorem hostCommands_inhibited {i : Nat} (hi : i < n) : s.inputAt i (fun q => q = inhibited) := by
  obtain ⟨after, rest, hin, _, _⟩ := h
  refine ⟨inhibited, ?_, rfl⟩
  rw [hin, List.append_assoc, List.append_assoc, List.getElem?_append_left (by simpa using hi),
    List.getElem?_replicate_of_lt hi]

theorem hostCommands_request {i : Nat} (hn : n ≤ i) (hi : i < n + 5) : s.inputAt i (fun q => q = hostDat .drvLow) := by
  obtain ⟨after, rest, hin, _, _⟩ := h
  refine ⟨_, ?_, rfl⟩
  rw [hin, List.append_assoc, List.append_assoc, List.getElem?_append_right (by simpa using hn), List.length_replicate,
    List.getElem?_append_left (by simp; omega), List.getElem?_replicate_of_lt (by omega)]

theorem hostCommands_frame {i : Nat} {q : Pins} (hn : n + 5 ≤ i) (hq : (hostFrame b p)[i - (n + 5)]? = some q) :
    s.inputAt i (fun q' => q' = q) := by
  obtain ⟨after, rest, hin, _, _⟩ := h
  have hlen := (List.getElem?_eq_some_iff.1 hq).1
  refine ⟨q, ?_, rfl⟩
  rw [hin, List.append_assoc, List.getElem?_append_right (by simpa using hn), List.length_append, List.length_replicate,
    List.length_replicate, List.getElem?_append_left hlen, hq]

theorem hostCommands_quiet {i : Nat} (hn : n + 122 ≤ i) (hi : i < n + 122 + m) :
    s.inputAt i (fun q => isQuiet q = true) := by
  obtain ⟨after, rest, hin, hlen, hq⟩ := h
  have hlt : i - (n + 122) < after.length := by omega
  have hbefore : (List.replicate n inhibited ++ List.replicate 5 (hostDat .drvLow) ++ hostFrame b p).length
      = n + 122 := by simp [hostFrame_length]
  refine ⟨_, ?_, hq _ (List.getElem_mem hlt)⟩
  rw [hin, List.getElem?_append_right (by omega), hbefore, List.getElem?_append_left hlt, List.getElem?_eq_getElem hlt]

theorem hostCommands_noReset : s.noReset (n + 121 + m) := by
  obtain ⟨after, rest, hin, hlen, hq⟩ := h
  have hcount := congrArg List.length hin
  simp [hostFrame_length] at hcount
  refine ⟨by omega, fun q hq' => ?_⟩
  rw [State.inputs, ← List.take_succ_cons, hin, ← List.append_assoc, List.take_append_of_le_length (by
    simp [hostFrame_length]; omega)] at hq'
  have hmem := List.mem_of_mem_take hq'
  simp only [List.mem_append, List.mem_replicate] at hmem
  rcases hmem with ((⟨_, rfl⟩ | ⟨_, rfl⟩) | hmem) | hmem
  · rfl
  · rfl
  · exact (hostFrame_clk hmem).2
  · exact (isQuiet_iff.1 (hq q hmem)).2.2.2

/-! The samples of `poll` fall two steps apart, so the `receive` that it calls begins with the host's frame or one step
before it. -/

variable {k : Nat} (hk : k ≤ n + 5) (hn : n + 5 ≤ k + 1)
include hk hn

theorem hostCommands_framesFrom : s.hostFramesFrom k 0 0 b := by
  have start (i : Nat) (hi : 1 ≤ i ∧ i < 10) : s.inputAt (k + i) (fun q => q = hostDat .drvLow) :=
    hostCommands_frame h (by omega) (hostFrame_start (by omega))
  refine ⟨⟨?_, fun j hj => absurd hj (Nat.not_lt_zero j)⟩, ?_, fun j hj => absurd hj (Nat.not_lt_zero j), ?_,
    fun i hi => ?_⟩
  · exact ((hostCommands_noReset h).mono (by omega)).input.imp fun q _ => Nat.zero_le _
  · exact (start 2 (by decide)).of_eq rfl
  · exact (start 4 (by decide)).of_eq rfl
  · have bit := hostFrame_bit (b := b) (p := p) (j := k - n) hi (by omega)
    refine (hostCommands_frame h (q := hostDat (driveOfBit (b.getLsbD i))) (by omega) ?_).of_eq rfl
    rw [← bit]
    congr 1
    omega

/-- The host is quiet after its frame, and at the last step of it. -/
theorem hostCommands_rest {i : Nat} (hi : i < m) : s.inputAt (k + 117 + i) (fun q => isQuiet q = true) := by
  by_cases hlast : k + 117 + i < n + 122
  · refine (hostCommands_frame h (q := hostDat .rel) (by omega) ?_).of_eq rfl
    rw [(by omega : k + 117 + i - (n + 5) = 116)]
    exact hostFrame_last
  · exact hostCommands_quiet h (by omega) (by omega)

end

/-! ### `poll` -/

section

variable {s : State} {f₀ : Frame} {off : Prop} {k : Nat} {fs : List Frame} {dr : List (Line × Drive)}
  (hd : s.ctl.length ≤ fs.length)
include hd

/-- R221: the host inhibits for `h` samples of the clock. -/
theorem Reached.pollHeld {h : Nat} (hp : Reached s f₀ off k ⟨.rel, .rel, Frame.newPoll :: fs⟩ dr)
    (hr : s.noReset (k + 2 * h)) (hlow : ∀ j, j < h → s.inputAt (k + 2 * j + 1) (fun q => q.hclk = .drvLow)) :
    ∃ e, (e = .p0 ∨ e = .p0Wait) ∧ Reached s f₀ off (k + 2 * h) ⟨.rel, .rel, .poll (.bus e) :: fs⟩ dr := by
  induction h with
  | zero => exact ⟨.p0, .inl rfl, hp⟩
  | succ h ih =>
    obtain ⟨e, he, before⟩ := ih (hr.mono (by omega)) fun j hj => hlow j (by omega)
    refine ⟨.p0Wait, .inr rfl, before.readClk (v := .low) hd (hr.mono (by omega)) ?_ ?_
      ((hlow h (Nat.lt_succ_self h)).low .rel)⟩
    · rcases he with rfl | rfl <;> rfl
    · rcases he with rfl | rfl <;> rfl

/-- R221, R222: `poll` up to its `receive`, the host having released the clock with data low after `h` samples. -/
theorem Reached.polled {h : Nat} (hp : Reached s f₀ off k ⟨.rel, .rel, Frame.newPoll :: fs⟩ dr)
    (hr : s.noReset (k + 2 * h + 4)) (hlow : ∀ j, j < h → s.inputAt (k + 2 * j + 1) (fun q => q.hclk = .drvLow))
    (hclk : s.inputAt (k + 2 * h + 1) (fun q => q.hclk = .rel))
    (hdat : s.inputAt (k + 2 * h + 3) (fun q => q.hdat = .drvLow)) :
    Reached s f₀ off (k + 2 * h + 5) ⟨.rel, .rel, Frame.newReceive :: .poll .p2 :: fs⟩ dr := by
  obtain ⟨e, he, waited⟩ := hp.pollHeld hd (hr.mono (by omega)) hlow
  have p1 := waited.readClk (v := .high) (g := .poll (.bus .p1)) hd (hr.mono (by omega))
    (by rcases he with rfl | rfl <;> rfl) (by rcases he with rfl | rfl <;> rfl) hclk.high
  have p2 := p1.readDat (v := .low) (g := .poll .p2) hd (hr.mono (by omega)) rfl rfl (hdat.low .rel)
  exact p2.next hd hr fun _ _ _ => rfl

end

/-- R223: what follows the byte under a quiet host. -/
theorem completes_serviced (u : State) (b : Byte) :
    Completes u (.poll (.p3 b)) (3 + ticksOf u.cfg (handlerBody u.cfg b)) (.bit true) u.slots
      (enabledAfter (commandOf u.cfg b) u.enabled) (repliesOf u.cfg (commandOf u.cfg b)) (logsOf (commandOf u.cfg b)) := by
  obtain ⟨hreplies, hflag, hlogs, _⟩ := bodyOf_command u.cfg b
  have := completes_call (f := .poll (.p3 b)) (f2 := .poll (.p3 b)) (m := 1) (r := .bit true) [] shows_nil rfl
    (fun _ _ _ => rfl) (completes_handle b u) fun u1 _ h2 h3 => h2 ▸ h3 ▸
      completes_return u1 _ _ [] shows_nil (by intro v l h; cases h) fun _ _ _ => rfl
  rw [hreplies, hflag, hlogs, List.append_nil, List.append_nil] at this
  rwa [(by omega : 3 + ticksOf u.cfg (handlerBody u.cfg b) = 1 + (1 + ticksOf u.cfg (handlerBody u.cfg b) + 1))]

/-- R221 to R225: `poll` of an engine whose host requests to send. -/
theorem poll_serviced {s : State} {n : Nat} {b : Byte} {p : Bool} (hrel : s.released) (h : s.hostCommands n b p 432) :
    Completed s (s.call Frame.newPoll) (.bit true) (repliesOf s.cfg (commandOf s.cfg b)) (logsOf (commandOf s.cfg b))
      ∧ (s.call Frame.newPoll).slots = s.slots
      ∧ (s.call Frame.newPoll).enabled = enabledAfter (commandOf s.cfg b) s.enabled
      ∧ (s.ctl = [] → Answered (s.call Frame.newPoll) true) := by
  have hr := hostCommands_noReset h
  obtain ⟨hc, hx⟩ := hrel
  have start := reached_start s Frame.newPoll False
  rw [hc, hx] at start
  have polled : Reached s Frame.newPoll False (2 * (n / 2) + 5)
      ⟨.rel, .rel, Frame.newReceive :: .poll .p2 :: s.ctl⟩ [] :=
    Nat.zero_add (2 * (n / 2)) ▸ start.polled (h := n / 2) (Nat.le_refl _) (hr.mono (by omega))
      (fun j hj => (hostCommands_inhibited h (by omega)).of_eq rfl)
      ((hostCommands_request h (by omega) (by omega)).of_eq rfl)
      ((hostCommands_request h (by omega) (by omega)).of_eq rfl)
  have received := polled.receive (b := b) (n := 0) (m := 0) (Nat.le_succ _) (hr.mono (by omega))
    (hostCommands_framesFrom h (by omega) (by omega))
  have serviced : Reached s Frame.newPoll False (2 * (n / 2) + 5 + 117)
      ⟨.rel, .rel, .poll (.p3 b) :: s.ctl⟩ receiveDrives :=
    received.returns (Nat.le_refl _) (hr.mono (by omega)) (step_rx7 b _) rfl
  have hticks := (bodyOf_command s.cfg b).ticks
  obtain ⟨g, ev, hg, hsent, hlogged, e, sc, j, hcall⟩ := serviced.call_completes (Nat.add_pos_left (by decide) _)
    (fun i hi => hostCommands_rest h (by omega) (by omega) (Nat.lt_of_lt_of_le hi (Nat.add_le_add_left hticks 3)))
    (completes_serviced (s.start Frame.newPoll) b)
  rw [hcall]
  exact ⟨ended_completed hsent hlogged, ended_slots, ended_enabled, ended_answered hg⟩

/-- Settles O49, by the run of `poll` under the host that requests. -/
theorem pollServices : Obligations.PollServices := fun i n b p s hi hrel h => by
  have hexec : exec i s = .next (s.call Frame.newPoll) := by
    rcases hi with ⟨rfl, hidle⟩ | rfl
    · exact request_idle _ hidle
    · rfl
  exact ⟨_, hexec, poll_serviced hrel h⟩

end Sys2Proof.Machine
end

section
/-!
The decoder and the encoder (spec/30_encoding.md): what the decoder's tables read, and from it that an encoding gives
its instruction back, that only well-formed instructions are answered, and what the words of the formats stand for.
-/

namespace Sys2Proof.Machine

/-! ### Host commands (R86, R87) -/

/-- R9: no command code is one of those before it in the table. -/
theorem commandCodes_distinct {c : Config} (hwf : c.wf = true) : c.commandCodes.reverse.Nodup := by
  simp only [Config.wf, Bool.and_eq_true, decide_eq_true_eq] at hwf
  obtain ⟨⟨⟨hcodes, _⟩, _⟩, _⟩ := hwf
  exact List.nodup_reverse.2 hcodes

/-- R86: the table, read at each of its ten codes. -/
theorem commandOf_codes {c : Config} (hwf : c.wf = true) :
    commandOf c c.cmdReset = .reset ∧ commandOf c c.cmdResend = .resend ∧ commandOf c c.cmdSetDefaults = .setDefaults
      ∧ commandOf c c.cmdDisable = .disableReporting ∧ commandOf c c.cmdEnable = .enableReporting
      ∧ commandOf c c.cmdSetTypematic = .setTypematicRate ∧ commandOf c c.cmdGetId = .getDeviceId
      ∧ commandOf c c.cmdSetScancodeSet = .setScanCodeSet ∧ commandOf c c.cmdEcho = .echo
      ∧ commandOf c c.cmdSetLeds = .setResetLeds := by
  have h := commandCodes_distinct hwf
  simp only [Config.commandCodes, List.reverse_cons, List.reverse_nil, List.nil_append, List.cons_append,
    List.nodup_cons, List.mem_cons, List.not_mem_nil, or_false, not_or] at h
  simp [commandOf, h]

/-- R87: a byte outside the table. -/
theorem commandOf_unknown {c : Config} {b : Byte} (h : b ∉ c.commandCodes) : commandOf c b = .unknownCommand b := by
  simp only [Config.commandCodes, List.mem_cons, List.not_mem_nil, or_false, not_or] at h
  simp [commandOf, h]

theorem isUnknown_iff {c : Config} {b : Byte} : isUnknown c b = true ↔ b ∉ c.commandCodes := by simp [isUnknown]

theorem wellFormed_commandOf (c : Config) (b : Byte) : WellFormed c (commandOf c b) = true := by
  unfold commandOf
  iterate 10
    split
    · rfl
  exact isUnknown_iff.2 (by simp_all [Config.commandCodes])

/-! ### Keycodes (R77 to R79) -/

/-- R79: what is neither the sentinel nor of a class of R78 is reserved. -/
theorem classify_reserved {c : Config} {k : Keycode} (hnone : k ≠ c.keyNone) (hplain : hi k ≠ plainHi)
    (hext : hi k ≠ extByte) (hspecial : hi k = specialHi → lo k ≠ c.selPrtsc ∧ lo k ≠ c.selPause) :
    classify c k = .reserved := by
  by_cases h : hi k = specialHi
  · simp [classify, hnone, h, hspecial h]
  · simp [classify, hnone, hplain, hext, h]

theorem classify_prtsc {c : Config} (hwf : c.wf = true) : classify c (mkKey specialHi c.selPrtsc) = .prtsc :=
  have ⟨_, _, hprtsc, _⟩ := classify_of_halves hwf (mkKey specialHi c.selPrtsc)
  hprtsc (hi_mkKey _ _) (lo_mkKey _ _)

theorem classify_pause {c : Config} (hwf : c.wf = true) : classify c (mkKey specialHi c.selPause) = .pause :=
  have ⟨_, _, _, hpause⟩ := classify_of_halves hwf (mkKey specialHi c.selPause)
  hpause (hi_mkKey _ _) (lo_mkKey _ _)

/-- R78: a Keycode with a scan code of its own has the high byte of its class. -/
theorem hi_of_classify {c : Config} {k : Keycode} :
    (classify c k = .plain → hi k = plainHi) ∧ (classify c k = .extended → hi k = extByte) := by
  unfold classify
  repeat' split
  all_goals simp_all

theorem wellFormed_keyRow (c : Config) (k : Keycode) : WellFormed c (keyRow c k) = true := by
  obtain ⟨hplain, hext⟩ := hi_of_classify (c := c) (k := k)
  unfold keyRow
  cases h : classify c k with
  | plain => simpa [WellFormed, mkKey_lo (hplain h)] using h
  | extended => simpa [WellFormed, mkKey_lo (hext h)] using h
  | reserved => simpa [WellFormed] using h
  | none | prtsc | pause => rfl

/-! ### Sequences (R80 to R82) -/

/-- No sequence of up to three bytes is one of the three fixed ones (R83): what is read is the class of its Keycode. -/
theorem decodeSeq_short (c : Config) (l : Byte) :
    decodeSeq c [l] = ifClass c (mkKey plainHi l) .plain (.seqPlainPress l)
      ∧ decodeSeq c [extByte, l] = ifClass c (mkKey extByte l) .extended (.seqExtendedPress l)
      ∧ decodeSeq c [breakCode, l] = ifClass c (mkKey plainHi l) .plain (.seqPlainRelease l)
      ∧ decodeSeq c [extByte, breakCode, l] = ifClass c (mkKey extByte l) .extended (.seqExtendedRelease l) := by
  have h : breakCode ≠ extByte := by decide
  simp [decodeSeq, h, seqPrtscPressBytes, seqPrtscReleaseBytes, seqPausePressBytes]

/-! ### Operations (R90) -/

theorem lineOfByte_byteOfLine (l : Line) : lineOfByte (byteOfLine l) = some l := by cases l <;> rfl

/-- A duration in the four bytes after its operation id. -/
theorem decodeOp_delay {t : Nat} (h : t < 4294967296) : decodeOp (12 :: bytesOfNat 4 t) = .ok (.opDelay t) := by
  have hlen := bytesOfNat_length 4 t
  have hdrop : (bytesOfNat 4 t).drop 4 = [] := List.drop_eq_nil_of_le (Nat.le_of_eq hlen)
  have htake : (bytesOfNat 4 t).take 4 = bytesOfNat 4 t := List.take_of_length_le (Nat.le_of_eq hlen)
  simp [decodeOp, operandBytes, byteAt, hdrop, htake, natOfBytes_bytesOfNat 4 t h]

theorem wellFormed_withLine {c : Config} {b : Byte} {mk : Line → Instr} {i : Instr} (h : withLine b mk = .ok i)
    (hmk : ∀ l, WellFormed c (mk l) = true) : WellFormed c i = true := by
  unfold withLine at h
  split at h
  · cases h
    exact hmk _
  · cases h

/-! ### Decoding what has been encoded -/

/-- Settles O1, row by row of the opcode table: what the table of a row's format reads at the word of the row. -/
theorem decodeEncode : Obligations.DecodeEncode := by
  intro c i hwf hw
  cases i with
  | reset | resend | setDefaults | disableReporting | enableReporting | setTypematicRate | getDeviceId | setScanCodeSet
  | echo | setResetLeds =>
    simp [encode, decode, decodeHostCmd, commandOf_codes hwf]
  | unknownCommand cmd => exact congrArg Except.ok (commandOf_unknown (isUnknown_iff.1 hw))
  | parameterByte v => rfl
  | ackReply | selfTestPassed | identityByte0 | identityByte1 | echoReply =>
    have h : id1 ≠ id0 := by decide
    simp only [WellFormed, Bool.and_eq_true, decide_eq_true_eq] at hw
    simp [encode, decode, decodeReply, hw, h]
  | frameDeviceToHost b =>
    obtain ⟨hlen, hlt, hstart, hstop, hpar, hdata⟩ := frame_word_d2h b
    simp [encode, decode, decodeFrameD2H, hlen, hlt, hstart, hstop, hpar, hdata]
  | frameHostToDevice b p =>
    obtain ⟨hlen, hlt, hstart, hstop, hack, hpar, hdata⟩ := frame_word_h2d b p
    simp [encode, decode, decodeFrameH2D, hlen, hlt, hstart, hstop, hack, hpar, hdata]
  | keycodePlain l | keycodeExtended l | keycodeReserved k =>
    simp only [WellFormed, decide_eq_true_eq] at hw
    simp [encode, decode_keyBytes, keyRow, hw, lo_mkKey]
  | keycodeSpecialPrtsc => simp [encode, decode_keyBytes, keyRow, classify_prtsc hwf]
  | keycodeSpecialPause => simp [encode, decode_keyBytes, keyRow, classify_pause hwf]
  | keycodeNone => simp [encode, decode_keyBytes, keyRow, classify_none.2]
  | seqPlainPress l | seqExtendedPress l | seqPlainRelease l | seqExtendedRelease l =>
    simp only [WellFormed, decide_eq_true_eq] at hw
    simp [encode, decode, decodeSeq_short, ifClass, hw]
  | seqPrtscPress | seqPrtscRelease | seqPausePress | seqPauseRelease => rfl
  | poll | press k | release k | releaseAll => simp [encode, decode_requestBytes]
  | opPress k | opRelease k => simp [encode, decode, decodeOp, operandBytes, byteAt, keyBytes, mkKey_hi_lo]
  | opLineRelease l | opAssertLow l | opLineRead l =>
    simp [encode, decode, decodeOp, operandBytes, byteAt, withLine, lineOfByte_byteOfLine]
  | opDelay t => exact decodeOp_delay (of_decide_eq_true hw)
  | opPoll | opReleaseAll | opHandleCommand cmd | opAck | opTransmit b | opReceive => rfl
  | opSendUntilOk b | opClockCycle => rfl
  | opSendSequence bs => simpa [encode, decode, decodePseudo, WellFormed] using hw

/-! ### What is decoded is well-formed -/

section

variable {c : Config} {bs : List Byte} {i : Instr}

/-- A reply is answered once the tests for the replies before it have failed: that is what `WellFormed` asks of it. -/
theorem wellFormed_reply (h : decodeReply c bs = .ok i) : WellFormed c i = true := by
  unfold decodeReply at h
  split at h
  · repeat' split at h
    all_goals cases h
    all_goals simp_all [WellFormed]
  · cases h

theorem wellFormed_keycode (h : decodeKeycode c bs = .ok i) : WellFormed c i = true := by
  unfold decodeKeycode at h
  split at h
  · rename_i l hb
    have key := decode_keyBytes c (mkKey hb l)
    rw [keyBytes, lo_mkKey, hi_mkKey] at key
    rw [← Except.ok.inj (key.symm.trans h)]
    exact wellFormed_keyRow c _
  · cases h

theorem wellFormed_ifClass {k : Keycode} {want : KeyClass} {j : Instr} (h : ifClass c k want j = .ok i)
    (hj : WellFormed c j = decide (classify c k = want)) : WellFormed c i = true := by
  unfold ifClass at h
  split at h
  · cases h
    rw [hj]
    exact decide_eq_true ‹_›
  · cases h

theorem wellFormed_seq (h : decodeSeq c bs = .ok i) : WellFormed c i = true := by
  unfold decodeSeq at h
  iterate 3
    split at h
    · cases h
      rfl
  split at h
  · cases h
    rfl
  · exact wellFormed_ifClass h rfl
  · split at h
    · exact wellFormed_ifClass h rfl
    · split at h
      · exact wellFormed_ifClass h rfl
      · cases h
  · split at h
    · exact wellFormed_ifClass h rfl
    · cases h
  · cases h

theorem wellFormed_op (h : decodeOp bs = .ok i) : WellFormed c i = true := by
  unfold decodeOp at h
  split at h
  · cases h
  split at h
  iterate 8
    · cases h
      rfl
  iterate 3
    · exact wellFormed_withLine h fun _ => rfl
  · cases h
    have hlen : 256 ^ ((bs.drop 1).take 4).length ≤ 256 ^ 4 := Nat.pow_le_pow_right (by decide) (by simp)
    exact decide_eq_true (Nat.lt_of_lt_of_le (natOfBytes_lt _) hlen)
  · cases h

/-- R190: a sequence is answered within the bound of `WellFormed` only. -/
theorem wellFormed_pseudo (h : decodePseudo bs = .ok i) : WellFormed c i = true := by
  unfold decodePseudo at h
  repeat' split at h
  all_goals cases h
  all_goals simp_all [WellFormed]

end

/-- Settles O2, table by table. -/
theorem decodedWellFormed : Obligations.DecodedWellFormed := by
  rintro c ⟨fmt, bs⟩ i h
  cases fmt with
  | hostCmd8 =>
    simp only [decode, decodeHostCmd] at h
    split at h
    · cases h
      exact wellFormed_commandOf c _
    · cases h
  | param8 =>
    simp only [decode, decodeParam] at h
    split at h <;> cases h
    rfl
  | resp8 => exact wellFormed_reply h
  | frameD2H =>
    simp only [decode, decodeFrameD2H] at h
    repeat' split at h
    all_goals cases h
    rfl
  | frameH2D =>
    simp only [decode, decodeFrameH2D] at h
    repeat' split at h
    all_goals cases h
    rfl
  | keycode16 => exact wellFormed_keycode h
  | byteSeq => exact wellFormed_seq h
  | req18 =>
    simp only [decode, decodeRequest] at h
    repeat' split at h
    all_goals cases h
    all_goals rfl
  | opId4 => exact wellFormed_op h
  | pseudo => exact wellFormed_pseudo h

/-! ### The words of the formats -/

/-- Settles O3, by the spec lemma of the request word. -/
theorem requestCodes : Obligations.RequestCodes := fun c k =>
  ⟨decode_requestBytes c 0 k, decode_requestBytes c 1 k, decode_requestBytes c 2 k, decode_requestBytes c 3 k⟩

/-- Settles O4: the class of the halves names the row. -/
theorem keycodeClasses : Obligations.KeycodeClasses := by
  intro c k hwf
  obtain ⟨hplain, hext, hprtsc, hpause⟩ := classify_of_halves hwf k
  simp only [decode_keyBytes, keyRow]
  refine ⟨fun h => ?_, fun h h' => ?_, fun h h' => ?_, fun h h' => ?_, fun h h' => ?_, fun h h1 h2 h3 => ?_⟩
  · rw [classify_none.2 h]
  · rw [hplain h h']
  · rw [hext h h']
  · rw [hprtsc h h']
  · rw [hpause h h']
  · rw [classify_reserved h h1 h2 h3]

/-- Settles O5: the class of the key gives its bytes, and the bytes are the encoding of a well-formed row. -/
theorem sequenceWords : Obligations.SequenceWords := by
  intro c k hwf
  obtain ⟨hplain, hext, hprtsc, hpause⟩ := classify_of_halves hwf k
  have row (i : Instr) (hw : WellFormed c i = true) : decode c (encode c i) = .ok i := decodeEncode c i hwf hw
  refine ⟨fun h h' => ?_, fun h h' => ?_, fun h h' => ?_, fun h h' => ?_⟩
  · have hc := hplain h h'
    have hw : decide (classify c (mkKey plainHi (lo k)) = .plain) = true := by
      rw [mkKey_lo (h := plainHi) h', hc]
      rfl
    exact ⟨by simp [seqOf, hc], row (.seqPlainPress (lo k)) hw, by simp [seqOf, hc, breakCode],
      row (.seqPlainRelease (lo k)) hw⟩
  · have hc := hext h h'
    have hw : decide (classify c (mkKey extByte (lo k)) = .extended) = true := by
      rw [mkKey_lo (h := extByte) h', hc]
      rfl
    exact ⟨by simp [seqOf, hc, extByte], row (.seqExtendedPress (lo k)) hw, by simp [seqOf, hc, extByte, breakCode],
      row (.seqExtendedRelease (lo k)) hw⟩
  · have hc := hprtsc h h'
    exact ⟨by simp [seqOf, hc, seqPrtscPressBytes], row .seqPrtscPress rfl, by simp [seqOf, hc, seqPrtscReleaseBytes],
      row .seqPrtscRelease rfl⟩
  · have hc := hpause h h'
    exact ⟨by simp [seqOf, hc, seqPausePressBytes], row .seqPausePress rfl, by simp [seqOf, hc, seqPauseReleaseBytes],
      row .seqPauseRelease rfl⟩

/-- R72: the running parity is 1 as long as an even number of 1 bits has been taken in. -/
theorem parAfter_iff (b : Byte) (i : Nat) :
    parAfter b i = true ↔ (List.range i).countP (fun n => b.getLsbD n) % 2 = 0 := by
  induction i with
  | zero => simp [parAfter, parStart]
  | succ i ih =>
    rw [parAfter_succ, List.range_succ, List.countP_append]
    cases hb : b.getLsbD i
    · simpa [parStep, hb] using ih
    · simp [parStep, hb, ← Bool.not_eq_true, ih]
      omega

/-- Settles O6, by induction on the bits taken in. -/
theorem oddParity : Obligations.OddParity := fun b =>
  ⟨parAfter_eight b ▸ parAfter_iff b 8, (parAfter_eight b).symm, rfl, fun i _ => parAfter_succ b i,
    (parAfter_eight b).symm⟩

/-- Settles O7, word by word. -/
theorem sampleWords : Obligations.SampleWords :=
  ⟨rfl, rfl, rfl, rfl, rfl, rfl, rfl, rfl, rfl, rfl, rfl, rfl, rfl⟩

/-- Settles O8: a byte outside the table is unknown, and of 256 bytes the ten default codes are in it. -/
theorem unknownBytes : Obligations.UnknownBytes :=
  ⟨fun _ _ h => congrArg Except.ok (commandOf_unknown h), fun _ _ => rfl, by decide +kernel⟩

end Sys2Proof.Machine
end

section
/-!
The clock cycle with its record (R75), under an arbitrary host; the parameter byte (R173), a host's frame that `receive`
finds on the line (R59); and the reply bytes (R88), under a quiet host.
-/

namespace Sys2Proof.Machine

/-! ### The clock cycle -/

/-- The record of a clock cycle, newest event first: the clock is low while the device drives it; `d1`, `c2` and `d2`
are the levels the host decides. -/
def cycleEvents (d1 c2 d2 : Level) : List Event :=
  [.returned (.delay tHalf) .unit, .delayed tHalf,
    .returned (.lineRelease .clk) .unit, .drove .clk .rel c2 d2,
    .returned (.delay tHalf) .unit, .delayed tHalf,
    .returned (.assertLow .clk) .unit, .drove .clk .drvLow .low d1]

theorem step_cycleEvent (p : CyclePhase) (fs : List Frame) (t : State) :
    stepFrame (.clockCycle (some p)) fs t = t.callFrom p.primitive (.clockCycle (some p)) fs := rfl

theorem step_cycleEnd (fs : List Frame) (t : State) :
    stepFrame (.clockCycle none) fs t = t.returnFrom (.clockCycle none) .unit fs := rfl

/-- R75: two steps for each of the four events, and the return. -/
theorem runs_clockCycle {s : State} {c x : Drive} {fs : List Frame} {ev : List Event} {p : Pins} {r : Ret} {d : Nat}
    {ps : List Pins} (hd : d ≤ fs.length) (hlen : ps.length = 9) (hr : ∀ q ∈ ps, q.rst = false) :
    ∃ d1 c2 d2 q, Runs d ps (s.pt c x (.clockCycle (some .fall) :: fs) ev p r)
      ((s.returned (.clockCycle none) .unit fs).pt .rel x (deliverTo s.cfg .unit fs)
        (.returned (.clockCycle none) .unit :: (cycleEvents d1 c2 d2 ++ ev)) q .unit) := by
  match ps, hlen with
  | [q0, q1, q2, q3, q4, q5, q6, q7, q8], _ =>
    simp only [List.forall_mem_cons, List.not_mem_nil, false_implies, implies_true, and_true] at hr
    obtain ⟨h0, h1, h2, h3, h4, h5, h6, h7, h8⟩ := hr
    have hl := Nat.lt_succ_of_le hd
    have hm := Nat.lt_succ_of_lt hl
    refine ⟨wireLevel x q1.hdat, wireLevel .rel q5.hclk, wireLevel x q5.hdat, q8,
      ⟨hl, h0, hm, h1, hl, h2, hm, h3, hl, h4, hm, h5, hl, h6, hm, h7, hl, h8, trivial⟩, ?_⟩
    simp [play, pt_react, step_cycleEvent, step_cycleEnd, pt_callFrom, CyclePhase.primitive, Frame.deliver,
      CyclePhase.succ, pt_assertLow_clk, pt_lineRelease_clk, pt_delay, pt_returnFrom, cycleEvents]

/-- Settles O14, by the run of `clock_cycle()` and its return. -/
theorem clockCycle : Obligations.ClockCycle := by
  intro s ⟨hlen, hr⟩
  obtain ⟨d1, c2, d2, q, hrun⟩ := runs_clockCycle (s := { s with inject := none, done := false }) (c := s.drvClk)
    (x := s.drvDat) (ev := s.events) (p := Pins.quiet) (r := s.ret) (Nat.le_refl s.ctl.length)
    (by simpa [State.inputs] using hlen) hr
  obtain ⟨hrunning, hplay⟩ := hrun.of_engine (s' := s.start (.clockCycle (some .fall))) (List.cons_ne_nil _ _) rfl
  obtain ⟨e, sc, n, hcall⟩ := call_eq_of_play (List.take_append_drop 9 _).symm (List.cons_ne_nil _ _) hrunning
    (t := s.ended (.clockCycle none) .unit .rel s.drvDat s.slots s.enabled
      (.returned (.clockCycle none) .unit :: cycleEvents d1 c2 d2))
    ((congrArg State.engine hplay).trans rfl) ended_length
  exact ⟨_, congrArg Host.Outcome.next hcall, rfl, rfl, ⟨d1, c2, d2, rfl⟩, ended_quiescent rfl rfl, ended_port rfl⟩

/-! ### A host's frame -/

theorem State.quietFor.input {s : State} {n i : Nat} (hq : s.quietFor n) (hi : i ≤ n) :
    s.inputAt i (fun p => isQuiet p = true) := by
  obtain ⟨p, hp, _⟩ := (hq.noReset.mono hi).input
  exact ⟨p, hp, hq.2 p (List.cons_subset_cons _ (List.take_subset_take_left _ hi) (inputAt_mem hp))⟩

section

variable {s : State} {k : Nat} {b : Byte} {p : Bool}
  (h : ∀ (i : Nat) (q : Pins), (hostFrame b p)[i]? = some q → s.inputAt (k + i) (fun q' => q' = q))
include h

/-- R59: a host that puts its frame on the line as a `receive` begins has each bit there at the sample of it. -/
theorem hostFramesFrom_of_frame : s.hostFramesFrom k 0 0 b := by
  have start (i : Nat) (hi : i < 10) : s.inputAt (k + i) (fun q => q = hostDat .drvLow) := h i _ (hostFrame_start hi)
  refine ⟨⟨(start 0 (by decide)).imp fun _ _ => Nat.zero_le _, fun j hj => absurd hj (Nat.not_lt_zero j)⟩,
    (start 2 (by decide)).of_eq rfl, fun j hj => absurd hj (Nat.not_lt_zero j), (start 4 (by decide)).of_eq rfl,
    fun i hi => ?_⟩
  have bit := h _ _ (hostFrame_bit (p := p) hi (by decide : 5 < 10))
  exact ((by omega : k + 2 * 0 + 15 + 2 * 0 + 10 * i = k + (10 * (i + 1) + 5)) ▸ bit).of_eq rfl

end

/-- R59: the host's half of a frame is not the engine's. -/
theorem Completed.of_withHost {s t : State} {ps : List Pins} {r : Ret} {bytes logs : List Byte}
    (h : Completed (s.withHost ps) t r bytes logs) : Completed s t r bytes logs := by
  cases ps with
  | nil => exact h
  | cons p ps =>
    obtain ⟨hstack, hret, hsent, hlogged, hlines, hconfig, htaken⟩ := h
    exact ⟨hstack, hret, hsent, hlogged, hlines, hconfig, htaken⟩

/-! ### The parameter byte (R173) -/

/-- The state in which the host sends the frame of a parameter while the command waits in its `receive`. -/
def State.withParameter (s : State) (v : Byte) : State := s.withHost (hostDat .drvLow :: hostFrame v (parity v))

section

variable {s : State} {v : Byte}

theorem withParameter_inputs :
    (s.withParameter v).env :: (s.withParameter v).script
      = hostDat .drvLow :: (hostFrame v (parity v) ++ (s.env :: s.script)) := rfl

theorem withParameter_frame (i : Nat) (q : Pins) (hq : (hostFrame v (parity v))[i]? = some q) :
    (s.withParameter v).inputAt (1 + i) (fun q' => q' = q) := by
  have hlt := (List.getElem?_eq_some_iff.1 hq).1
  refine ⟨q, ?_, rfl⟩
  rw [withParameter_inputs, Nat.add_comm, List.getElem?_cons_succ, List.getElem?_append_left hlt, hq]

theorem withParameter_quiet {n i : Nat} (hq : s.quietFor n) (hi : i ≤ n) :
    (s.withParameter v).inputAt (118 + i) (fun q => isQuiet q = true) := by
  obtain ⟨q, hin, hquiet⟩ := hq.input hi
  refine ⟨q, ?_, hquiet⟩
  rw [withParameter_inputs, (by omega : 118 + i = (117 + i) + 1), List.getElem?_cons_succ,
    List.getElem?_append_right (by rw [hostFrame_length]; omega), hostFrame_length, Nat.add_sub_cancel_left, hin]

theorem withParameter_noReset {n : Nat} (hq : s.quietFor n) : (s.withParameter v).noReset (118 + n) := by
  obtain ⟨hlen, hquiet⟩ := hq.noReset
  have htake : (s.withParameter v).script.take (118 + n) = hostFrame v (parity v) ++ s.inputs n := by
    show (hostFrame v (parity v) ++ (s.env :: s.script)).take (118 + n) = _
    rw [(by rw [hostFrame_length]; omega : 118 + n = (hostFrame v (parity v)).length + (n + 1)),
      List.take_length_add_append]
    rfl
  refine ⟨?_, fun q hmem => ?_⟩
  · show _ ≤ (hostFrame v (parity v) ++ (s.env :: s.script)).length
    rw [List.length_append, hostFrame_length, List.length_cons]
    omega
  · rw [State.inputs, htake] at hmem
    rcases List.mem_cons.1 hmem with rfl | hmem
    · rfl
    · rcases List.mem_append.1 hmem with hmem | hmem
      · exact (hostFrame_clk hmem).2
      · exact hquiet q hmem

end

/-- Settles O31: the host's frame is clocked in, the byte is dropped, and what is left of the body is the second ack. -/
theorem parameterByte : Obligations.ParameterByte := by
  intro v s hrel hq
  obtain ⟨hc, hx⟩ := hrel
  have hr := withParameter_noReset (v := v) hq
  have start : Reached (s.withParameter v) _ False 0 ⟨s.drvClk, s.drvDat, _ :: s.ctl⟩ [] := reached_start _
    (.handleCommand s.cfg.cmdSetTypematic (.body (.receiveParam :: bodyAfterParam))) _
  rw [hc, hx] at start
  have waiting := start.next (Nat.le_refl _) (hr.mono (by omega)) fun _ _ _ => rfl
  have received := waiting.receive (b := v) (n := 0) (m := 0) (Nat.le_succ _) (hr.mono (by omega))
    (hostFramesFrom_of_frame withParameter_frame)
  have discarded := received.returns (Nat.le_refl _) (hr.mono (by omega)) (step_rx7 v _) rfl
  obtain ⟨g, ev, hg, hsent, hlogged, e, sc, j, hcall⟩ := discarded.call_completes (m := 145) (by decide)
    (fun i hi => withParameter_quiet hq (Nat.le_of_lt_succ hi)) (completes_body s.cfg.cmdSetTypematic bodyAfterParam _)
  exact ⟨_, congrArg Host.Outcome.next hcall, (ended_completed hsent hlogged).of_withHost, ⟨ended_slots, ended_enabled⟩,
    ended_port hg⟩

/-! ### The replies (R88, R161, R162) -/

/-- Settles O33, by the run of `ack` and of `send_until_ok` in a quiet world. -/
theorem replies : Obligations.Replies := by
  intro i b s hi hrel hq
  have reply (f : Frame) (hf : f.external = false) (hexec : exec i s = .next (s.call f))
      (hc : Completes { s with inject := none, done := false } f 143 .unit s.slots s.enabled [b] []) :
      ∃ t, exec i s = .next t ∧ Completed s t .unit [b] [] ∧ FramesOnWire s t [b] ∧ KeysAndFlagKept s t
        ∧ PortKept s t := by
    obtain ⟨hcompleted, hwire, hslots, henabled, hdone, hresult⟩ := call_completes hrel hq (by decide) (by decide) hc
    rw [hf, Bool.and_false] at hdone hresult
    exact ⟨_, hexec, hcompleted, hwire, ⟨hslots, henabled⟩, hdone, hresult⟩
  have send (hexec : exec i s = .next (s.call (.sendUntilOk b .s0))) := reply _ rfl hexec (completes_sendUntilOk _ b)
  rcases hi with ⟨rfl, rfl⟩ | ⟨rfl, rfl⟩ | ⟨rfl, rfl⟩ | ⟨rfl, rfl⟩ | ⟨rfl, rfl⟩ | ⟨rfl, rfl⟩ | rfl
  · exact reply (.ack .s0) rfl rfl (completes_ack _)
  iterate 6 exact send rfl

end Sys2Proof.Machine
end

section
/-!
Which instruction a step runs (R89, R250), and the `press` that has no meaning (R79, R194, R207).
-/

namespace Sys2Proof.Machine

/-- R194 K0. -/
theorem requestPress_reserved {s : State} {k : Keycode} (hidle : s.ctl = []) (hk : classify s.cfg k = .reserved) :
    requestPress k s = .refused (.reservedKeycode k) := by simp [requestPress, State.busy, hidle, hk]

/-- Settles O40: each form of `press` is the request, and the request tests the class. -/
theorem pressReserved : Obligations.PressReserved := by
  intro i k s hi hidle hk
  rcases hi with rfl | rfl | ⟨hrow, hop⟩
  · exact requestPress_reserved hidle hk
  · exact requestPress_reserved hidle hk
  · rw [exec_keycodeRow hrow, requestKey_press k hop]
    exact requestPress_reserved (s := s.offering k) hidle hk

section

variable {s : State} (hr : s.env.rst = false) (hidle : s.ctl = [])
include hr hidle

/-- An idle engine runs the instruction of the word it fetches. -/
theorem step_fetched {w : TableWord} {i : Instr} (hw : s.fetch = some w) (hi : decode s.cfg w = .ok i) :
    step s = exec i s := by simp [step, hr, hidle, hw, hi]

theorem step_undecodable {w : TableWord} {e : Reject} (hw : s.fetch = some w) (he : decode s.cfg w = .error e) :
    step s = .refused (.undecodable w) := by simp [step, hr, hidle, hw, he]

end

theorem fetch_presented {s : State} {w : TableWord} (h : s.inject = some w) : s.fetch = some w := by
  simp [State.fetch, h]

theorem fetch_port {s : State} (h : s.inject = none) (hv : s.env.reqValid = true) :
    s.fetch = some (requestWord s.env) := by simp [State.fetch, h, hv]

/-- Settles O59: a busy engine steps, an idle one fetches, from before the sequencer or else from the port. -/
theorem stepRuns : Obligations.StepRuns := by
  intro s hr
  refine ⟨fun w i hidle hw hi => ?_, fun i hidle hn hv hi => ?_, fun w e hidle hw he => ?_, fun hbusy => ?_⟩
  · exact step_fetched hr hidle (fetch_presented hw) hi
  · exact step_fetched hr hidle (fetch_port hn hv) hi
  · exact step_undecodable hr hidle (fetch_presented hw) he
  · obtain ⟨f, fs, hctl⟩ := List.exists_cons_of_ne_nil hbusy
    exact step_busy hr hctl

end Sys2Proof.Machine
end

section
/-!
The line primitives (R101 to R105) under an arbitrary host: each makes its one bus event in its one step and returns.
-/

namespace Sys2Proof.Machine

/-! ### The driver of a line -/

theorem drv_setDrv_same (s : State) (l : Line) (d : Drive) : (s.setDrv l d).drv l = d := by cases l <;> rfl

theorem drv_setDrv_other (s : State) {l m : Line} (d : Drive) (h : m ≠ l) : (s.setDrv l d).drv m = s.drv m := by
  cases l <;> cases m <;> trivial

/-- The driver of a line is one of the two drivers of the state. -/
theorem drv_congr {s t : State} (hc : t.drvClk = s.drvClk) (hd : t.drvDat = s.drvDat) (l : Line) : t.drv l = s.drv l := by
  cases l
  · exact hc
  · exact hd

/-! ### The call of a primitive -/

section

variable {s : State} (hr : s.env.rst = false)
include hr

/-- A primitive whose one step makes the event `e₁` leaves the drivers `c` and `x` and returns `r`. -/
theorem call_primitive {f : Frame} {r : Ret} {c x : Drive} {e₁ : Event}
    (hstep : stepFrame f s.ctl ((s.start f).withWorld s.env [] 0)
      = ((s.start f).pt c x (f :: s.ctl) (e₁ :: s.events) s.env s.ret).returnFrom f r s.ctl) :
    ∃ e sc n, s.call f = (s.ended f r c x s.slots s.enabled [.returned f r, e₁]).withWorld e sc n := by
  have hplay : (play [s.env] (s.start f)).engine
      = (s.ended f r c x s.slots s.enabled [.returned f r, e₁]).engine := by
    refine (congrArg State.engine hstep).trans ?_
    rw [pt_returnFrom]
    cases hctl : s.ctl <;> simp only [State.ended, hctl] <;> rfl
  exact call_eq_of_play (ps := [s.env]) rfl (List.cons_ne_nil _ _) ⟨Nat.lt_succ_self _, hr, trivial⟩ hplay ended_length

/-- R103: `BusDrive(l, d)`, whatever the host does. -/
theorem call_busDrive (l : Line) (d : Drive) :
    ∃ t, s.call (busDrive l d) = t ∧ t.drv l = d ∧ (∀ m, m ≠ l → t.drv m = s.drv m)
      ∧ t.driven = s.driven ++ [(l, d)] ∧ Quiescent s t .unit ∧ PortKept s t := by
  obtain ⟨e, sc, n, hcall⟩ := call_primitive hr (f := busDrive l d) (r := .unit) (c := (s.setDrv l d).drvClk)
    (x := (s.setDrv l d).drvDat)
    (e₁ := .drove l d ((s.setDrv l d).level .clk) ((s.setDrv l d).level .dat)) (by cases l <;> cases d <;> rfl)
  have hdrv (m : Line) : (s.call (busDrive l d)).drv m = (s.setDrv l d).drv m := by
    rw [hcall]
    exact drv_congr rfl rfl m
  have hret : (Event.returned (busDrive l d) .unit).sentByte = none ∧ (busDrive l d).external = false := by
    cases d <;> exact ⟨rfl, rfl⟩
  obtain ⟨hsent, hext⟩ := hret
  refine ⟨_, rfl, (hdrv l).trans (drv_setDrv_same s l d), fun m hm => (hdrv m).trans (drv_setDrv_other s d hm), ?_⟩
  rw [hcall]
  exact ⟨ended_driven, ended_quiescent (by rw [sentOf_returned rfl, hsent]; rfl) rfl, ended_port hext⟩

end

/-- Settles O10, by `BusDrive(l, REL)`: a released line has the level the host leaves it (R41). -/
theorem lineRelease : Obligations.LineRelease := by
  intro l s hr
  obtain ⟨t, hcall, hdrv, hother, hdriven, hquiet, hport⟩ := call_busDrive hr l .rel
  refine ⟨t, congrArg Host.Outcome.next hcall, hdrv, hother, ?_, hdriven, hquiet, hport⟩
  rw [State.level, wireLevel_high_iff]
  exact and_iff_right hdrv

/-- Settles O11, by `BusDrive(l, DRV_LOW)`: a driven line is low whatever the host does (R41). -/
theorem assertLow : Obligations.AssertLow := by
  intro l s hr
  obtain ⟨t, hcall, hdrv, hother, hdriven, hquiet, hport⟩ := call_busDrive hr l .drvLow
  refine ⟨t, congrArg Host.Outcome.next hcall, hdrv, hother, ?_, hdriven, hquiet, hport⟩
  rw [State.level, hdrv, wireLevel_drvLow]

/-- Settles O12, by the one sample of `line_read(l)`, which drives nothing. -/
theorem lineRead : Obligations.LineRead := by
  intro l s hr
  obtain ⟨e, sc, n, hcall⟩ := call_primitive hr (f := .lineRead l) (r := .level (s.level l)) (c := s.drvClk)
    (x := s.drvDat) (e₁ := .sampled l (s.level l)) (by cases l <;> rfl)
  exact ⟨_, congrArg Host.Outcome.next hcall, ended_quiescent rfl rfl, ended_undriven rfl rfl rfl, ended_port rfl⟩

/-- Settles O13, by the one event of `delay(n)`, which drives nothing. -/
theorem delay : Obligations.Delay := by
  intro n s hr
  obtain ⟨e, sc, k, hcall⟩ := call_primitive hr (f := .delay n) (r := .unit) (c := s.drvClk) (x := s.drvDat)
    (e₁ := .delayed n) rfl
  exact ⟨_, congrArg Host.Outcome.next hcall, rfl, ended_quiescent rfl rfl, ended_undriven rfl rfl rfl, ended_port rfl⟩

end Sys2Proof.Machine
end

section
/-!
The idle check of `transmit` (R121), and the results of `transmit` under an arbitrary host (R129, R130): at each point
of its run the byte has not been sent, nothing has been driven before the idle check is past, and the lines are as its
step says.
-/

namespace Sys2Proof.Machine

/-! ### The idle check -/

/-- An operation that has returned has left the stack as deep as it found it. -/
theorem resumed_length (s : State) (r : Ret) : (s.resumed r).length = s.ctl.length := by
  rw [resumed_eq_deliverTo]
  exact popped_length s.cfg r s.ctl

/-- A Collision is no byte sent. -/
theorem sentByte_collision {v : TxLocals} {l : TxLabel} {r : ResultCode}
    (h : r = .collisionClock ∨ r = .collisionData) : (Event.returned (.transmit v l) (.code r)).sentByte = none := by
  rcases h with rfl | rfl <;> rfl

/-- A `transmit` that has come to its Collision, nothing driven. -/
theorem Reached.collision {s : State} {b : Byte} {k : Nat} {r : ResultCode}
    (h : Reached s (Frame.newTransmit b) False k
      ⟨s.drvClk, s.drvDat, .transmit (TxLocals.atEntry b) (.fail r) :: s.ctl⟩ [])
    (hr : s.noReset k) (hcol : r = .collisionClock ∨ r = .collisionData) :
    ∃ t, exec (.opTransmit b) s = .next t ∧ Quiescent s t (.code r) ∧ Undriven s t ∧ PortKept s t := by
  obtain ⟨ev, hdriven, hsent, hlogged, _, e, sc, n, hcall⟩ := h.call_returns hr fun _ => rfl
  rw [sentByte_collision hcol] at hsent
  exact ⟨_, congrArg Host.Outcome.next hcall, ended_quiescent hsent hlogged, ended_undriven rfl rfl hdriven,
    ended_port rfl⟩

/-- Settles O15: the first sample, or the first and the second, then the return of the Collision. -/
theorem transmitCollision : Obligations.TransmitCollision := by
  refine ⟨fun b s hr hclk => ?_, fun b s hr hclk hdat => ?_⟩
  · have sampled := (reached_start s (Frame.newTransmit b) False).readClk (v := .low)
      (g := .transmit (TxLocals.atEntry b) (.fail .collisionClock)) (Nat.le_refl _) (hr.mono (by decide)) rfl rfl hclk
    exact sampled.collision hr (.inl rfl)
  · have first := (reached_start s (Frame.newTransmit b) False).readClk (v := .high)
      (g := .transmit (TxLocals.atEntry b) (.bus .t1)) (Nat.le_refl _) (hr.mono (by decide)) rfl rfl hclk
    have second := first.readDat (v := .low) (g := .transmit (TxLocals.atEntry b) (.fail .collisionData))
      (Nat.le_refl _) (hr.mono (by decide)) rfl rfl hdat
    exact second.collision hr (.inr rfl)

/-! ### The record as time passes and at a return -/

@[simp] theorem passTime_sent (s : State) : s.passTime.sent = s.sent := by simp [State.sent]

@[simp] theorem passTime_driven (s : State) : s.passTime.driven = s.driven := by simp [State.driven]

@[simp] theorem passTime_logged (s : State) : s.passTime.logged = s.logged := by simp [State.logged]

theorem returnFrom_sent (s : State) (f : Frame) (r : Ret) (fs : List Frame) :
    (s.returnFrom f r fs).sent = s.sent ++ (Event.returned f r).sentByte.toList := by
  cases h : (Event.returned f r).sentByte <;> simp [State.sent, h]

@[simp] theorem returnFrom_driven (s : State) (f : Frame) (r : Ret) (fs : List Frame) :
    (s.returnFrom f r fs).driven = s.driven := by simp [State.driven, Event.driven, List.filterMap_cons]

@[simp] theorem returnFrom_logged (s : State) (f : Frame) (r : Ret) (fs : List Frame) :
    (s.returnFrom f r fs).logged = s.logged := by simp [State.logged, Event.loggedByte, List.filterMap_cons]

/-! ### The log and the flag under an operation that writes neither -/

section

variable {f : Frame} {fs : List Frame} {s t : State}

/-- R176: only `handle_command` logs. -/
theorem Act.log (h : Act f s t) : t.logged = s.logged ∨ ∃ cmd l, f = .handleCommand cmd l := by
  cases h with
  | logged cmd l => exact .inr ⟨cmd, l, rfl⟩
  | flagged cmd l v => exact .inr ⟨cmd, l, rfl⟩
  | _ => exact .inl (by simp [State.logged, Event.loggedByte, List.filterMap_cons])

theorem Moves.log (h : Moves f fs s t) : t.logged = s.logged ∨ ∃ cmd l, f = .handleCommand cmd l := by
  cases h with
  | returns s' r ha => exact ha.log.imp_left (returnFrom_logged s' f r fs).trans
  | goes s' f' ha hk => exact ha.log
  | calls e f' hk hl => exact .inl rfl

/-- R25, R26, R176: a step of an operation below `handle_command` writes neither registry nor flag nor log. -/
theorem device_keeps (hctl : s.ctl = f :: fs) (hl : 5 ≤ f.level) :
    KeysAndFlagKept s s.device ∧ s.device.logged = s.logged := by
  have hno : ¬ ∃ cmd l, f = .handleCommand cmd l := by
    rintro ⟨cmd, l, rfl⟩
    exact absurd hl (by decide : ¬ 5 ≤ 4)
  obtain ⟨s', ha, _, hen, _⟩ := (device_moves hctl).act
  exact ⟨⟨device_slots hctl (by omega), hen.trans (ha.enabled.resolve_right hno)⟩,
    (device_moves hctl).log.resolve_right hno⟩

end

/-! ### The bus events of `transmit` -/

/-- A primitive makes its event, which is no byte sent, and returns to the frame that called it; `line_read` drives
nothing. -/
theorem device_primitive {p g : Frame} {fs : List Frame} {u : State} (hctl : u.ctl = p :: g :: fs)
    (hp : p.isPrimitive = true) :
    ∃ r, u.device.ctl = g.deliver u.cfg r :: fs ∧ u.device.drvClk = (p.drives u).drvClk
      ∧ u.device.drvDat = (p.drives u).drvDat ∧ u.device.sent = u.sent
      ∧ ((∃ l, p = .lineRead l) → u.device.driven = u.driven) := by
  rw [device_eq hctl]
  cases p with
  | lineRelease l => exact ⟨.unit, by cases l <;> rfl, rfl, rfl, by cases l <;> rfl, nofun⟩
  | assertLow l => exact ⟨.unit, by cases l <;> rfl, rfl, rfl, by cases l <;> rfl, nofun⟩
  | lineRead l => exact ⟨.level (u.level l), rfl, rfl, rfl, rfl, fun _ => rfl⟩
  | delay n => exact ⟨.unit, rfl, rfl, rfl, rfl, nofun⟩
  | _ => cases hp

/-- What is known at a step of `transmit` until its idle check is past, `undriven` saying that nothing has been driven:
the check has driven nothing, and what it fails with is a Collision. -/
def Frame.checking (undriven : Prop) (f : Frame) : Prop :=
  match f with
  | .transmit _ (.bus .t0) => undriven
  | .transmit _ (.bus .t1) => undriven
  | .transmit _ (.fail r) => (r = .collisionClock ∨ r = .collisionData) ∧ undriven
  | _ => True

/-- R121: the idle check samples the clock, then the data; past it no Collision can come. -/
theorem checking_txDeliver {c : Config} {v : TxLocals} {e : TxBus} {before after : Prop} (r : Ret)
    (h : (Frame.transmit v (.bus e)).checking before)
    (hread : (∃ l, e.primitive c v = .lineRead l) → before → after) : (e.deliver v r).checking after := by
  cases e with
  | t0 =>
    have hafter : after := hread ⟨.clk, rfl⟩ h
    simp only [TxBus.deliver]
    split
    · exact ⟨.inl rfl, hafter⟩
    · exact hafter
  | t1 =>
    have hafter : after := hread ⟨.dat, rfl⟩ h
    simp only [TxBus.deliver]
    split
    · exact ⟨.inr rfl, hafter⟩
    · trivial
  | t4 q =>
    simp only [TxBus.deliver]
    split
    · trivial
    · unfold TxLocals.afterCell
      split <;> trivial
  | t3 q | t5 q | t6 q => simp only [TxBus.deliver]; split <;> trivial
  | t7Low left | t7High left =>
    simp only [TxBus.deliver]
    split
    · trivial
    · cases left <;> trivial

/-! ### The run of `transmit` -/

/-- A `transmit(b)` called in `s` is in progress in `u` and goes on with the frame `f`: the byte is not yet sent, and of
released lines the drivers are as the step of `f` says. -/
structure TransmitAt (b : Byte) (s u : State) (f : Frame) : Prop where
  kind : f.kind = (Frame.newTransmit b).kind
  sent : u.sent = s.sent
  check : f.checking (u.driven = s.driven)
  lines : s.released → u.drvClk = f.clk ∧ f.datOk u.drvDat

/-- R129, R130: what a `transmit(b)` called in `s` has answered in `u`. -/
def TransmitAnswered (b : Byte) (s u : State) : Prop :=
  (u.ret = .code .ok ∧ u.sent = s.sent ++ [b]
      ∨ (u.ret = .code .collisionClock ∨ u.ret = .code .collisionData) ∧ u.sent = s.sent ∧ u.driven = s.driven)
    ∧ (s.released → u.released)

/-- A point of the run of a `transmit(b)` called in `s`: it runs, or waits for the primitive of a bus event, or has
returned. -/
inductive TransmitPoint (b : Byte) (s u : State) : Prop
  | running (f : Frame) (hctl : u.ctl = f :: s.ctl) (h : TransmitAt b s u f)
  | event (p f : Frame) (hctl : u.ctl = p :: f :: s.ctl) (hp : f.primitive u.cfg = some p) (h : TransmitAt b s u f)
  | returned (hlen : u.ctl.length = s.ctl.length) (h : TransmitAnswered b s u)

section

variable {b : Byte} {s u : State} {f : Frame}

theorem TransmitAt.passTime (h : TransmitAt b s u f) : TransmitAt b s u.passTime f :=
  ⟨h.kind, by simpa using h.sent, by simpa using h.check, by simpa using h.lines⟩

theorem TransmitPoint.passTime (h : TransmitPoint b s u) : TransmitPoint b s u.passTime := by
  cases h with
  | running f hctl h => exact .running f (by simpa) h.passTime
  | event p f hctl hp h => exact .event p f (by simpa) (by simpa) h.passTime
  | returned hlen h => exact .returned (by simpa) (by simpa [TransmitAnswered, State.released] using h)

/-- While it has not returned, what runs is `transmit` or a primitive. -/
theorem TransmitPoint.top (h : TransmitPoint b s u) (hd : s.ctl.length < u.ctl.length) :
    ∃ g gs, u.ctl = g :: gs ∧ 5 ≤ g.level := by
  cases h with
  | running f hctl h => exact ⟨f, _, hctl, level_of_kind h.kind ▸ (by decide : 5 ≤ 6)⟩
  | event p f hctl hp _ => exact ⟨p, _, hctl, level_of_isPrimitive (primitive_isPrimitive hp) ▸ (by decide : 5 ≤ 7)⟩
  | returned hlen _ => exact absurd hlen hd.ne'

/-- A return of `transmit` with its answer. -/
theorem transmitPoint_returns {r : Ret} (hsent : u.sent = s.sent) (hlines : s.released → u.released)
    (h : r = .code .ok ∧ (Event.returned f r).sentByte = some b
      ∨ (r = .code .collisionClock ∨ r = .code .collisionData) ∧ (Event.returned f r).sentByte = none
        ∧ u.driven = s.driven) :
    TransmitPoint b s (u.returnFrom f r s.ctl) := by
  refine .returned (by rw [returnFrom_ctl, popped_length]) ⟨?_, fun hrel => ?_⟩
  · rw [State.returnFrom_ret, returnFrom_sent, returnFrom_driven, hsent]
    rcases h with ⟨hok, hb⟩ | ⟨hr, hnone, hdriven⟩
    · exact .inl ⟨hok, by rw [hb]; rfl⟩
    · exact .inr ⟨hr, by rw [hnone]; exact List.append_nil _, hdriven⟩
  · rw [State.released, State.returnFrom_drvClk, State.returnFrom_drvDat]
    exact hlines hrel

/-- A step of the frame of `transmit`: the call of a bus event's primitive, T2 or T7, or a return. -/
theorem transmitPoint_running (hctl : u.ctl = f :: s.ctl) (h : TransmitAt b s u f) : TransmitPoint b s u.device := by
  obtain ⟨hkind, hsent, hcheck, hlines⟩ := h
  obtain ⟨v, l, rfl, hb⟩ := transmit_of_kind hkind
  rw [device_eq hctl]
  cases l with
  | bus e => exact .event (e.primitive u.cfg v) _ rfl rfl ⟨hkind, hsent, hcheck, hlines⟩
  | t2 => exact .running _ rfl ⟨hkind, hsent, trivial, hlines⟩
  | t7 => exact .running _ rfl ⟨hkind, hsent, trivial, hlines⟩
  | t8 => exact transmitPoint_returns hsent hlines (.inl ⟨rfl, congrArg some hb⟩)
  | fail r =>
    obtain ⟨hr, hdriven⟩ := hcheck
    exact transmitPoint_returns hsent hlines
      (.inr ⟨hr.imp (congrArg Ret.code) (congrArg Ret.code), sentByte_collision hr, hdriven⟩)

/-- A bus event: the primitive returns to `transmit`. -/
theorem transmitPoint_event {p : Frame} (hctl : u.ctl = p :: f :: s.ctl) (hp : f.primitive u.cfg = some p)
    (h : TransmitAt b s u f) : TransmitPoint b s u.device := by
  obtain ⟨hkind, hsent, hcheck, hlines⟩ := h
  obtain ⟨r, hc, hclk, hdat, hs, hread⟩ := device_primitive hctl (primitive_isPrimitive hp)
  refine .running _ hc ⟨(deliver_kind u.cfg r f).trans hkind, hs.trans hsent, ?_, fun hrel => ?_⟩
  · obtain ⟨v, l, rfl, _⟩ := transmit_of_kind hkind
    cases l with
    | bus e =>
      cases hp
      exact checking_txDeliver r hcheck fun hl hdr => (hread hl).trans hdr
    | _ => cases hp
  · obtain ⟨hc, hd⟩ := hlines hrel
    rw [hclk, hdat]
    exact lines_event u r hp hc hd

theorem transmitPoint_device (h : TransmitPoint b s u) (hd : s.ctl.length < u.ctl.length) :
    TransmitPoint b s u.device := by
  cases h with
  | running f hctl h => exact transmitPoint_running hctl h
  | event p f hctl hp h => exact transmitPoint_event hctl hp h
  | returned hlen _ => exact absurd hlen hd.ne'

theorem TransmitPoint.answered (h : TransmitPoint b s u) (hlen : u.ctl.length = s.ctl.length) :
    TransmitAnswered b s u := by
  cases h with
  | running f hctl _ => simp [hctl] at hlen
  | event p f hctl _ _ =>
    rw [hctl, List.length_cons, List.length_cons] at hlen
    omega
  | returned _ h => exact h

end

/-- A point of the run of a `transmit(b)` called in `s`, registry, flag and log untouched. -/
structure TransmitRun (b : Byte) (s u : State) : Prop where
  point : TransmitPoint b s u
  keys : KeysAndFlagKept s u
  log : u.logged = s.logged

theorem transmitRun_tick {b : Byte} {s u : State} (hd : s.ctl.length < u.ctl.length) (h : TransmitRun b s u) :
    TransmitRun b s u.tick := by
  obtain ⟨hpoint, ⟨hslots, hflag⟩, hlog⟩ := h
  obtain ⟨g, gs, hctl, hl⟩ := hpoint.top hd
  obtain ⟨⟨hslots', hflag'⟩, hlog'⟩ := device_keeps hctl hl
  refine ⟨(transmitPoint_device hpoint hd).passTime, ⟨?_, ?_⟩, ?_⟩
  · rw [State.tick, State.passTime_slots, hslots', hslots]
  · rw [State.tick, State.passTime_enabled, hflag', hflag]
  · rw [State.tick, passTime_logged, hlog', hlog]

/-- R130: whatever the host does, and wherever the described inputs end. -/
theorem transmit_call (b : Byte) (s : State) : TransmitRun b s (s.call (Frame.newTransmit b)) :=
  call_induct ⟨.running _ rfl ⟨rfl, rfl, rfl, id⟩, ⟨rfl, rfl⟩, rfl⟩ fun _ hd h => transmitRun_tick hd h

/-- R121, R129: `transmit` returns, by a Collision at one of the two samples of the idle check, or else from lines that
both samples found high and that are therefore released. -/
theorem transmit_ends {b : Byte} {m : Nat} {s : State} (hr : s.noReset (142 + 2 * m))
    (hm : s.inputAt 137 (fun p => p.bound ≤ m)) :
    ∃ t, exec (.opTransmit b) s = .next t ∧ t.ctl.length = s.ctl.length := by
  obtain ⟨clock, data⟩ := transmitCollision
  obtain ⟨p, hp, _⟩ := (hr.mono (k := 1) (by omega)).input
  obtain ⟨q, hq, _⟩ := (hr.mono (k := 3) (by omega)).input
  cases hclk : wireLevel s.drvClk p.hclk with
  | low =>
    obtain ⟨t, hexec, hquiet, _⟩ := clock b s (hr.mono (by omega)) ⟨p, hp, hclk⟩
    exact ⟨t, hexec, hquiet.stack ▸ resumed_length s _⟩
  | high =>
    cases hdat : wireLevel s.drvDat q.hdat with
    | low =>
      obtain ⟨t, hexec, hquiet, _⟩ := data b s (hr.mono (by omega)) ⟨p, hp, hclk⟩ ⟨q, hq, hdat⟩
      exact ⟨t, hexec, hquiet.stack ▸ resumed_length s _⟩
    | high =>
      obtain ⟨hc, hpc⟩ := (wireLevel_high_iff _ _).1 hclk
      obtain ⟨hx, hqx⟩ := (wireLevel_high_iff _ _).1 hdat
      obtain ⟨t, hexec, hdone, _⟩ := transmit_ok (b := b) ⟨hc, hx⟩ hr ⟨p, hp, hpc⟩ ⟨q, hq, hqx⟩ hm
      exact ⟨t, hexec, hdone.stack ▸ resumed_length s _⟩

/-- Settles O19: the answer by the points of the run, the end by the two samples of the idle check. -/
theorem transmitResults : Obligations.TransmitResults := by
  refine ⟨fun b s t hexec hlen => ?_, fun b m s hr hm => transmit_ends hr hm⟩
  obtain rfl : s.call (Frame.newTransmit b) = t := Host.Outcome.next.inj hexec
  obtain ⟨hpoint, hkeys, hlog⟩ := transmit_call b s
  obtain ⟨hanswer, hreleased⟩ := hpoint.answered hlen
  exact ⟨hanswer, hreleased, hkeys, hlog⟩

end Sys2Proof.Machine
end

section
/-!
`receive` while the host holds the clock (R142): its clock-high wait goes on for as long as the inputs are described, and
the call leaves it in progress there.
-/

namespace Sys2Proof.Machine

/-! ### A call that is still in progress as the described inputs end -/

section

variable {s : State}

theorem noReset_of_all (h : ∀ p ∈ s.env :: s.script, p.rst = false) : s.noReset s.script.length :=
  ⟨Nat.le_refl _, by rwa [State.inputs, List.take_length]⟩

/-- What holds of all the described inputs holds at each of them. -/
theorem inputAt_of_all {q : Pins → Prop} {i : Nat} (h : ∀ p ∈ s.env :: s.script, q p) (hi : i ≤ s.script.length) :
    s.inputAt i q :=
  have hlt : i < (s.env :: s.script).length := Nat.lt_succ_of_le hi
  ⟨_, List.getElem?_eq_getElem hlt, h _ (List.getElem_mem hlt)⟩

/-- A run that has not returned within the described inputs is the call, at the place it has come to. -/
theorem Reached.call_inProgress {f₀ : Frame} {off : Prop} {a : Place} {dr : List (Line × Drive)}
    (h : Reached s f₀ off s.horizon a dr) :
    (s.call f₀).ctl = a.ctl ∧ (s.call f₀).drvClk = a.clk ∧ (s.call f₀).drvDat = a.dat
      ∧ (s.call f₀).driven = s.driven ++ dr ∧ s.sameStore (s.call f₀) := by
  obtain ⟨hrun, _, ev, r, hrec, hplay⟩ := h
  have hall : (s.env :: s.script).take s.horizon = s.env :: s.script := List.take_of_length_le (Nat.le_refl _)
  rw [hall] at hrun hplay
  have hcall : s.call f₀ = (s.start f₀).worldAfter [] (play (s.env :: s.script) (s.start f₀)) :=
    runUntil_play s.ctl.length 0 _ [] (s.start f₀) (List.append_nil _).symm hrun
  rw [hcall, State.worldAfter, withWorld_of_engine hplay]
  exact ⟨rfl, rfl, rfl, (drivenOf_append ev s.events).trans (congrArg _ hrec.driven), rfl, rfl, rfl⟩

/-! ### The clock-high wait -/

/-- R142: under a host that holds the clock in all the described inputs the clock-high wait, once entered, is where
they end: about to sample the clock, or in the sample. -/
theorem Reached.clockHeldToEnd {f₀ : Frame} {off : Prop} {k : Nat} {c x : Drive} {v : RxLocals} {fs : List Frame}
    {dr : List (Line × Drive)} (h : Reached s f₀ off k ⟨c, x, .receive v (.bus .rx1) :: fs⟩ dr)
    (hd : s.ctl.length ≤ fs.length) (hk : k ≤ s.horizon)
    (hheld : ∀ p ∈ s.env :: s.script, p.rst = false ∧ p.hclk = .drvLow) :
    ∃ ctl, (ctl = .receive v (.bus .rx1) :: fs ∨ ctl = .lineRead .clk :: .receive v (.bus .rx1) :: fs)
      ∧ Reached s f₀ off s.horizon ⟨c, x, ctl⟩ dr := by
  have hr : s.noReset s.script.length := noReset_of_all fun p hp => (hheld p hp).1
  have hlow {i : Nat} (hi : i ≤ s.script.length) : s.inputAt i (fun p => p.hclk = .drvLow) :=
    inputAt_of_all (fun p hp => (hheld p hp).2) hi
  obtain rfl | hlt := hk.eq_or_lt
  · exact ⟨_, .inl rfl, h⟩
  obtain ⟨n, hn⟩ := Nat.exists_eq_add_of_le (Nat.le_of_lt_succ hlt)
  obtain ⟨m, hm⟩ := n.even_or_odd'
  have samples := h.clockHeld (m := m) hd (hr.mono (by omega)) fun j hj => hlow (by omega)
  rw [State.horizon, hn]
  obtain rfl | rfl := hm
  · exact ⟨_, .inr rfl, samples.next hd (hr.mono (by omega)) fun _ _ _ => rfl⟩
  · exact ⟨_, .inl rfl, samples.readClk (v := .low) hd (hr.mono (by omega)) rfl rfl ((hlow (by omega)).low c)⟩

end

/-- Settles O23: the start bit at the first sample, then the clock-high wait to the end of the described inputs. -/
theorem receiveWaits : Obligations.ReceiveWaits := fun s hheld hdat => by
  have hr : s.noReset 2 := by
    obtain ⟨p, hp, _⟩ := hdat
    exact (noReset_of_all fun p hp => (hheld p hp).1).mono (Nat.le_of_lt_succ (List.getElem?_eq_some_iff.1 hp).1)
  have entered := (reached_start s Frame.newReceive False).startWait (Nat.le_refl _) (hr.mono (by decide))
    ⟨s.env, rfl, rfl⟩
  have start := entered.readDat (v := .low) (g := .receive RxLocals.atEntry (.bus .rx1)) (Nat.le_refl _) hr rfl rfl
    (hdat.low s.drvDat)
  obtain ⟨ctl, hwait, run⟩ := start.clockHeldToEnd (Nat.le_refl _) (Nat.succ_le_succ hr.1) hheld
  obtain ⟨hctl, hclk, hdrv, hdriven, hstore⟩ := run.call_inProgress
  exact ⟨_, RxLocals.atEntry, rfl, hctl ▸ hwait, ⟨hclk, hdrv, hdriven.trans (List.append_nil _)⟩, hstore⟩

end Sys2Proof.Machine
end

section
/-!
The host commands (R160 to R177): under a quiet host each does what its body says; the parameter-taking commands under a
host that sends the parameter (R173); an unknown command under every host (R176).
-/

namespace Sys2Proof.Machine

/-! ### Under a quiet host -/

theorem ticksOf_pos (c : Config) (acts : List HandlerAction) : 0 < ticksOf c acts := by
  rcases acts with _ | ⟨_ | _ | _ | _ | _, _⟩ <;> simp only [ticksOf] <;> omega

section

variable {s : State} {N : Nat} (hrel : s.released) (hq : s.quietFor N)
include hrel hq

/-- The call of an internal operation that completes in a quiet world. -/
theorem callOp_quiet {f : Frame} {n : Nat} {sl : Registry} {en : Bool} {bytes logs : List Byte}
    (hf : f.external = false) (hn : n ≤ N + 1) (hpos : 0 < n)
    (hc : Completes { s with inject := none, done := false } f n .unit sl en bytes logs) :
    ∃ t, callOp f s = .next t ∧ Completed s t .unit bytes logs ∧ FramesOnWire s t bytes ∧ t.slots = sl ∧ t.enabled = en
      ∧ PortKept s t := by
  obtain ⟨hcompleted, hwire, hslots, henabled, hdone, hresult⟩ := call_completes hrel hq hn hpos hc
  rw [hf, Bool.and_false] at hdone hresult
  exact ⟨_, rfl, hcompleted, hwire, hslots, henabled, hdone, hresult⟩

/-- R160: the body of a command. -/
theorem runBody_quiet (cmd : Byte) (acts : List HandlerAction) (hn : ticksOf s.cfg acts ≤ N + 1) :
    ∃ t, runBody cmd acts s = .next t ∧ Completed s t .unit (bytesOf s.cfg acts) (logOf s.cfg cmd acts)
      ∧ FramesOnWire s t (bytesOf s.cfg acts) ∧ t.slots = s.slots ∧ t.enabled = flagOf s.cfg s.enabled acts
      ∧ PortKept s t :=
  callOp_quiet hrel hq rfl hn (ticksOf_pos _ _) (completes_body cmd acts _)

/-- The body of a command that leaves the flag as it was, and logs nothing. -/
theorem runBody_quiet_keeps {cmd : Byte} {acts : List HandlerAction} (bytes : List Byte)
    (hn : ticksOf s.cfg acts ≤ N + 1) (hbytes : bytesOf s.cfg acts = bytes) (hlogs : logOf s.cfg cmd acts = [])
    (hflag : flagOf s.cfg s.enabled acts = s.enabled) :
    ∃ t, runBody cmd acts s = .next t ∧ Completed s t .unit bytes [] ∧ FramesOnWire s t bytes ∧ KeysAndFlagKept s t
      ∧ PortKept s t := by
  obtain ⟨t, hrun, hcompleted, hwire, hslots, henabled, hport⟩ := runBody_quiet hrel hq cmd acts hn
  rw [hbytes] at hcompleted hwire
  rw [hlogs] at hcompleted
  exact ⟨t, hrun, hcompleted, hwire, ⟨hslots, henabled.trans hflag⟩, hport⟩

end

/-- Settles O24, by the body of both, one ack. -/
theorem ackOnlyCommands : Obligations.AckOnlyCommands := by
  rintro i s (rfl | rfl) hrel hq
  · exact runBody_quiet_keeps hrel hq (acts := bodyResend) [s.cfg.ackByte] (Nat.le_refl _) rfl rfl rfl
  · exact runBody_quiet_keeps hrel hq (acts := bodySetDefaults) [s.cfg.ackByte] (Nat.le_refl _) rfl rfl rfl

/-- Settles O27, by the body: the ack and the two identity bytes. -/
theorem getDeviceId : Obligations.GetDeviceId := fun s hrel hq =>
  runBody_quiet_keeps hrel hq (acts := bodyGetId) [s.cfg.ackByte, id0, id1] (Nat.le_refl _) rfl rfl rfl

/-- Settles O28, by the body: the command byte itself. -/
theorem echoCommand : Obligations.EchoCommand := fun s hrel hq =>
  runBody_quiet_keeps hrel hq (acts := bodyEcho s.cfg.cmdEcho) [s.cfg.cmdEcho] (Nat.le_refl _) rfl rfl rfl

/-- Settles O32: H0 and the body it goes to, against the table. -/
theorem handleCommand : Obligations.HandleCommand := by
  intro cmd s hrel hq
  obtain ⟨hreplies, hflag, hlogs, hticks⟩ := bodyOf_command s.cfg cmd
  rw [← hreplies, ← hflag, ← hlogs]
  exact callOp_quiet hrel hq rfl (Nat.add_le_add_left hticks 1) (Nat.add_pos_left Nat.one_pos _)
    (completes_handle cmd _)

/-! ### The flag is written first (R166, R167) -/

/-- A call with the inputs of one step described is that step. -/
theorem call_one {s : State} (f : Frame) (hr : s.env.rst = false) (hscript : s.script = []) :
    s.call f = (s.start f).tick := by
  have hrun : ¬ ((s.start f).ctl.length ≤ s.ctl.length ∨ (s.start f).env.rst = true) := by simp [State.start, hr]
  have hone : s.horizon = 1 := by rw [State.horizon, hscript]; rfl
  rw [State.call, hone]
  exact if_neg hrun

/-- The body of `disable-reporting` and `enable-reporting`, completed and after its first step. -/
theorem runBody_reporting (cmd : Byte) (v : Bool) (s : State) :
    (s.released → s.quietFor 145 →
      ∃ t, runBody cmd [.setEnabled v, .ack] s = .next t ∧ Completed s t .unit [s.cfg.ackByte] []
        ∧ FramesOnWire s t [s.cfg.ackByte] ∧ t.slots = s.slots ∧ t.enabled = v ∧ PortKept s t)
    ∧ (s.env.rst = false → s.script = [] →
      ∃ t, runBody cmd [.setEnabled v, .ack] s = .next t ∧ t.enabled = v ∧ t.sent = s.sent
        ∧ t.ctl.length = s.ctl.length + 1) := by
  refine ⟨fun hrel hq => runBody_quiet hrel hq cmd [.setEnabled v, .ack] (Nat.le_refl _), fun hr hscript => ?_⟩
  have hcall := call_one (.handleCommand cmd (.body [.setEnabled v, .ack])) hr hscript
  rw [State.tick, device_eq rfl] at hcall
  refine ⟨_, congrArg Host.Outcome.next hcall, ?_, ?_, ?_⟩
  · exact State.passTime_enabled _
  · exact passTime_sent _
  · exact congrArg List.length (State.passTime_ctl _)

/-- Settles O25: both bodies are the write of the flag and one ack. -/
theorem reportingCommands : Obligations.ReportingCommands := by
  rintro i v s (⟨rfl, rfl⟩ | ⟨rfl, rfl⟩)
  · exact runBody_reporting s.cfg.cmdDisable false s
  · exact runBody_reporting s.cfg.cmdEnable true s

/-! ### An unknown command (R176) -/

/-- The return of the operation that was called, at a point of its run. -/
theorem returnFrom_ended (s : State) (f₀ f : Frame) (r r' : Ret) (c x : Drive) (ctl : List Frame) (ev : List Event)
    (p : Pins) :
    (((s.start f₀).pt c x ctl (ev ++ s.events) p r').returnFrom f r s.ctl).engine
      = (s.ended f r c x s.slots s.enabled (.returned f r :: ev)).engine := by
  rw [pt_returnFrom]
  cases hctl : s.ctl <;> simp only [State.ended, hctl] <;> rfl

/-- Settles O29: two steps, whatever the host does: the log and the return. -/
theorem unknownCommand : Obligations.UnknownCommand := by
  intro cmd s ⟨hlen, hr⟩
  obtain ⟨p, ps, hscript⟩ := List.exists_cons_of_ne_nil (List.ne_nil_of_length_pos hlen)
  have hin : s.env :: s.script = [s.env, p] ++ ps := congrArg (s.env :: ·) hscript
  rw [State.inputs, hscript] at hr
  have hplay : (play [s.env, p] (s.start (.handleCommand cmd (.body bodyUnknown)))).engine
      = (s.ended (.handleCommand cmd (.body [])) .unit s.drvClk s.drvDat s.slots s.enabled
        [.returned (.handleCommand cmd (.body [])) .unit, .logUnknown cmd]).engine :=
    returnFrom_ended s (.handleCommand cmd (.body bodyUnknown)) (.handleCommand cmd (.body [])) .unit s.ret s.drvClk
      s.drvDat (.handleCommand cmd (.body []) :: s.ctl) [.logUnknown cmd] p
  obtain ⟨e, sc, n, hcall⟩ := call_eq_of_play hin (List.cons_ne_nil _ _)
    ⟨Nat.lt_succ_self _, hr _ (by simp), Nat.lt_succ_self _, hr _ (by simp), trivial⟩ hplay ended_length
  exact ⟨_, congrArg Host.Outcome.next hcall, (withWorld_ctl _ _ _ _).trans ended_ctl, rfl, ended_logged,
    ended_sent.trans (List.append_nil _), ended_undriven rfl rfl rfl,
    ⟨returned_cfg _ _ _ _, ended_slots, ended_enabled⟩, ended_port rfl⟩

/-! ### A call after its first ack -/

/-- The state from which a call that began in `s` goes on: the events `ev` have been made, the callee that returned last
returned `r`, the inputs are `p` now and `ps` after. -/
def State.later (s : State) (ev : List Event) (r : Ret) (p : Pins) (ps : List Pins) : State :=
  { s with events := ev ++ s.events, ret := r, env := p, script := ps }

section

variable {s t : State} {ev : List Event} {r r' : Ret} {p : Pins} {ps : List Pins} {bytes logs bytes' logs' : List Byte}

theorem Completed.of_later (hshow : Shows ev bytes logs) (h : Completed (s.later ev r p ps) t r' bytes' logs') :
    Completed s t r' (bytes ++ bytes') (logs ++ logs') := by
  obtain ⟨hstack, hret, hsent, hlogged, hlines, hconfig, htaken⟩ := h
  have hs : (s.later ev r p ps).sent = s.sent ++ sentOf ev := sentOf_append ev s.events
  have hl : (s.later ev r p ps).logged = s.logged ++ loggedOf ev := loggedOf_append ev s.events
  rw [hs, hshow.sent, List.append_assoc] at hsent
  rw [hl, hshow.logged, List.append_assoc] at hlogged
  exact ⟨hstack, hret, hsent, hlogged, hlines, hconfig, htaken⟩

/-- A call that has come to the frame `f'` on top of its callers is the call of `f'` from there. -/
theorem call_later {f f' : Frame} {before : List Pins} (hin : s.env :: s.script = before ++ p :: ps)
    (hne : before ≠ []) (hrun : running s.ctl.length before (s.start f))
    (hplay : (play before (s.start f)).engine = ((s.later ev r p ps).start f').engine) :
    s.call f = (s.later ev r p ps).call f' := by
  have hlen : s.horizon = before.length + (s.later ev r p ps).horizon := by
    have := congrArg List.length hin
    rwa [List.length_append] at this
  have hcall := runUntil_play s.ctl.length (s.later ev r p ps).horizon before (p :: ps) (s.start f) hin hrun
  rw [if_neg hne, State.worldAfter, withWorld_of_engine hplay] at hcall
  rw [State.call, hlen]
  exact hcall

/-- R161: the first ack of a body, in a quiet world. -/
theorem runs_ack {d : Nat} (u : State) (cmd : Byte) (acts : List HandlerAction) (fs : List Frame) (ev : List Event)
    (p : Pins) (x : Ret) (hd : d ≤ fs.length) :
    ∃ ev', Shows ev' [u.cfg.ackByte] [] ∧
      Runs d (quiets 144) (u.pt .rel .rel (.handleCommand cmd (.body (.ack :: acts)) :: fs) ev p x)
        (u.pt .rel .rel (.handleCommand cmd (.body acts) :: fs) (ev' ++ ev) .quiet .unit) := by
  obtain ⟨g, ev', _, hshow, hruns⟩ := completes_ack u d (.handleCommand cmd (.body (.ack :: acts)) :: fs) ev .quiet x
    (Nat.le_succ_of_le hd)
  exact ⟨ev', hshow, (Runs.one u .rel .rel _ fs ev p .quiet x hd rfl).quiet hruns rfl⟩

/-- A body that begins with an ack, under a host that is quiet until it has been sent. -/
theorem call_ack {cmd : Byte} {acts : List HandlerAction} {before : List Pins} (hrel : s.released)
    (hin : s.env :: s.script = before ++ p :: ps) (hlen : before.length = 144)
    (hquiet : ∀ q ∈ before, isQuiet q = true) :
    ∃ ev, Shows ev [s.cfg.ackByte] []
      ∧ s.call (.handleCommand cmd (.body (.ack :: acts)))
        = (s.later ev .unit p ps).call (.handleCommand cmd (.body acts)) := by
  obtain ⟨ev, hshow, hruns⟩ := runs_ack { s with inject := none, done := false } cmd acts s.ctl s.events s.env s.ret
    (Nat.le_refl _)
  have hruns' := hruns.withWorld s.env s.script s.envCount (List.cons_ne_nil _ _)
  rw [← released_start s _ hrel] at hruns'
  obtain ⟨hrun, hplay⟩ := hruns'.sameQuiet before hlen hquiet Pins.quiet [] 0
  refine ⟨ev, hshow, call_later hin (List.ne_nil_of_length_pos (by omega)) hrun (hplay.trans ?_)⟩
  rw [released_start (s.later ev .unit p ps) _ hrel]
  rfl

end

/-! ### The parameter (R173) -/

section

variable {s : State} {before after rest : List Pins}

theorem noReset_of_inputs {n : Nat} (hin : s.env :: s.script = before ++ rest) (hlen : before.length = n + 1)
    (hr : ∀ q ∈ before, q.rst = false) : s.noReset n := by
  have hcount := congrArg List.length hin
  rw [List.length_cons, List.length_append] at hcount
  refine ⟨by omega, fun q hq => hr q ?_⟩
  rwa [State.inputs, ← List.take_succ_cons, hin, List.take_left' hlen] at hq

/-- An input of those that stand `before.length` steps from now. -/
theorem inputAt_append {i : Nat} {q : Pins} (hin : s.env :: s.script = before ++ (after ++ rest))
    (hq : after[i]? = some q) : s.inputAt (before.length + i) (fun q' => q' = q) := by
  have hlt := (List.getElem?_eq_some_iff.1 hq).1
  refine ⟨q, ?_, rfl⟩
  rw [hin, List.getElem?_append_right (Nat.le_add_right _ _), Nat.add_sub_cancel_left,
    List.getElem?_append_left hlt, hq]

/-- A command that waits for its parameter takes one of any value and parity, and what is left of it is the second
ack. -/
theorem call_parameter {cmd v : Byte} {b : Bool} {p : Pins} (hrel : s.released)
    (hin : s.env :: s.script = p :: (hostFrame v b ++ (after ++ rest))) (hp : p.rst = false) (hlen : after.length = 145)
    (hquiet : ∀ q ∈ after, isQuiet q = true) :
    ∃ t, s.call (.handleCommand cmd (.body (.receiveParam :: bodyAfterParam))) = t
      ∧ Completed s t .unit [s.cfg.ackByte] [] ∧ KeysAndFlagKept s t ∧ PortKept s t := by
  obtain ⟨hc, hx⟩ := hrel
  have hr : s.noReset 262 := by
    refine noReset_of_inputs (before := p :: (hostFrame v b ++ after)) (rest := rest) (by simpa using hin)
      (by simp [hostFrame_length, hlen]) (List.forall_mem_cons.2 ⟨hp, List.forall_mem_append.2 ⟨?_, ?_⟩⟩)
    · exact fun q hq => (hostFrame_clk hq).2
    · exact fun q hq => (isQuiet_iff.1 (hquiet q hq)).2.2.2
  have hframe (i : Nat) (q : Pins) (hq : (hostFrame v b)[i]? = some q) : s.inputAt (1 + i) (fun q' => q' = q) :=
    inputAt_append (before := [p]) hin hq
  have hrest (i : Nat) (hi : i < 145) : s.inputAt (118 + i) (fun q => isQuiet q = true) := by
    have hlt : i < after.length := hlen ▸ hi
    have := inputAt_append (s := s) (before := p :: hostFrame v b) (by simpa using hin) (List.getElem?_eq_getElem hlt)
    rw [List.length_cons, hostFrame_length] at this
    exact this.of_eq (hquiet _ (List.getElem_mem hlt))
  have start : Reached s _ False 0 ⟨s.drvClk, s.drvDat, _ :: s.ctl⟩ [] := reached_start _
    (.handleCommand cmd (.body (.receiveParam :: bodyAfterParam))) _
  rw [hc, hx] at start
  have waiting := start.next (Nat.le_refl _) (hr.mono (by omega)) fun _ _ _ => rfl
  have received := waiting.receive (b := v) (n := 0) (m := 0) (Nat.le_succ _) (hr.mono (by omega))
    (hostFramesFrom_of_frame hframe)
  have discarded := received.returns (Nat.le_refl _) (hr.mono (by omega)) (step_rx7 v _) rfl
  obtain ⟨g, ev, hg, hsent, hlogged, e, sc, j, hcall⟩ := discarded.call_completes (m := 145) (by decide) hrest
    (completes_body cmd bodyAfterParam _)
  exact ⟨_, hcall, ended_completed hsent hlogged, ⟨ended_slots, ended_enabled⟩, ended_port hg⟩

end

/-- R168, R170, R172: a command whose parameter arrives. -/
theorem runBody_param {s : State} {cmd v : Byte} {b : Bool} (hrel : s.released) (h : s.hostParameter 145 v b 145) :
    ∃ t, runBody cmd bodyParam s = .next t ∧ Completed s t .unit [s.cfg.ackByte, s.cfg.ackByte] [] ∧ KeysAndFlagKept s t
      ∧ PortKept s t := by
  obtain ⟨before, after, rest, hin, hbefore, hafter, hquiet⟩ := h
  obtain ⟨hquiet, hquiet'⟩ := List.forall_mem_append.1 hquiet
  obtain rfl | ⟨before, p, rfl⟩ := before.eq_nil_or_concat'
  · cases hbefore
  obtain ⟨hquiet, hp⟩ := List.forall_mem_append.1 hquiet
  obtain ⟨ev, hshow, hcall⟩ := call_ack (cmd := cmd) (acts := .receiveParam :: bodyAfterParam)
    (p := p) (ps := hostFrame v b ++ (after ++ rest)) hrel (by simpa using hin) (by simpa using hbefore) hquiet
  obtain ⟨t, hcall', hcompleted, hkeys, hport⟩ := call_parameter (s := s.later ev .unit p _) (cmd := cmd) hrel rfl
    (isQuiet_iff.1 (hp p (List.mem_singleton_self p))).2.2.2 hafter hquiet'
  exact ⟨t, congrArg Host.Outcome.next (hcall.trans hcall'), hcompleted.of_later hshow, hkeys, hport⟩

/-- Settles O30: the three share one body; a parameter that does not arrive is a Timeout of its `receive`. -/
theorem parameterCommands : Obligations.ParameterCommands := by
  intro i s hi hrel
  obtain ⟨cmd, hexec⟩ : ∃ cmd, exec i s = runBody cmd bodyParam s := by
    rcases hi with rfl | rfl | rfl
    · exact ⟨s.cfg.cmdSetTypematic, rfl⟩
    · exact ⟨s.cfg.cmdSetScancodeSet, rfl⟩
    · exact ⟨s.cfg.cmdSetLeds, rfl⟩
  rw [hexec]
  refine ⟨fun v b h => runBody_param hrel h, fun hq h => ?_, fun hq h => ?_⟩
  · exact runBody_quiet_keeps hrel hq [s.cfg.ackByte, s.cfg.ackByte] (by simp [bodyParam, ticksOf, h])
      (by simp [bodyParam, bytesOf, h]) (by simp [bodyParam, logOf]) (by simp [bodyParam, flagOf])
  · exact runBody_quiet_keeps hrel hq [s.cfg.ackByte] (by simp [bodyParam, ticksOf, h])
      (by simp [bodyParam, bytesOf, h]) (by simp [bodyParam, logOf]) (by simp [bodyParam, flagOf])

end Sys2Proof.Machine
end

section
/-!
The reply loops under an arbitrary host (R161, R162, R277): a byte is sent only as its `transmit` returns `Ok`, and that
ends the loop. The command reset is two of them and the write of the flag after both (R163).
-/

namespace Sys2Proof.Machine

/-! ### A frame that calls `transmit` until it returns `Ok` -/

/-- The frame `caller` calls `transmit(b)`, again and again, and goes on as `after` once that has returned `Ok`. -/
structure Retries (c : Config) (b : Byte) (caller after : Frame) : Prop where
  calls : ∀ (fs : List Frame) (u : State), u.cfg = c →
    stepFrame caller fs u = u.callFrom (Frame.newTransmit b) caller fs
  delivers : ∀ r, caller.deliver c r = if r = .code .ok then after else caller

/-- R161. -/
theorem retries_ack (c : Config) : Retries c c.ackByte (.ack .s0) (.ack .s2) :=
  ⟨fun _ _ hcfg => hcfg ▸ rfl, fun _ => apply_ite Frame.ack _ _ _⟩

/-- R162. -/
theorem retries_sendUntilOk (c : Config) (b : Byte) : Retries c b (.sendUntilOk b .s0) (.sendUntilOk b .s2) :=
  ⟨fun _ _ _ => rfl, fun _ => apply_ite (Frame.sendUntilOk b) _ _ _⟩

/-- R162 as a part of a command's body. -/
theorem retries_send (c : Config) (cmd b : Byte) (acts : List HandlerAction) :
    Retries c b (.handleCommand cmd (.body (.send b :: acts))) (.handleCommand cmd (.body acts)) :=
  ⟨fun _ _ _ => rfl, fun _ => apply_ite (fun acts => Frame.handleCommand cmd (.body acts)) _ _ _⟩

/-- The frame `caller`, on top of `base`, is at its `transmit(b)`, which has not returned `Ok`; by now `before` has been
sent. -/
def Replying (b : Byte) (caller : Frame) (base : List Frame) (before : List Byte) (u : State) : Prop :=
  ∃ above, u.ctl = above ++ caller :: base ∧ Transmitting b above ∧ u.sent = before

section

variable {c : Config} {b : Byte} {caller after : Frame} {above base : List Frame} {before : List Byte} {u : State}

theorem replying_start (hctl : u.ctl = caller :: base) (hsent : u.sent = before) : Replying b caller base before u :=
  ⟨[], hctl, .waiting, hsent⟩

theorem Replying.passTime (h : Replying b caller base before u) : Replying b caller base before u.passTime := by
  simpa [Replying] using h

/-- A step of the `transmit` of a byte: it goes on and nothing is sent, or it returns, the byte being sent if that is
`Ok`. -/
theorem device_transmitting_sent (ht : Transmitting b above) (hne : above ≠ []) (hctl : u.ctl = above ++ base) :
    (∃ above', Transmitting b above' ∧ u.device.ctl = above' ++ base ∧ u.device.sent = u.sent)
      ∨ ∃ r, u.device.ctl = popped u.cfg r base ∧ u.device.sent = u.sent ++ if r = .code .ok then [b] else [] := by
  cases ht with
  | waiting => exact absurd rfl hne
  | running v l hb =>
    have returns (r : ResultCode) :
        (u.returnFrom (.transmit v l) (.code r) base).ctl = popped u.cfg (.code r) base
          ∧ (u.returnFrom (.transmit v l) (.code r) base).sent
            = u.sent ++ if Ret.code r = .code .ok then [b] else [] := by
      refine ⟨returnFrom_ctl _ _ _ _, ?_⟩
      rw [returnFrom_sent, ← hb]
      cases r <;> rfl
    rw [device_eq (fs := base) hctl]
    cases l with
    | bus e =>
      have hp : (e.primitive u.cfg v).isPrimitive = true := primitive_isPrimitive (g := .transmit v (.bus e)) rfl
      exact .inl ⟨_, .event _ v _ hp hb, rfl, rfl⟩
    | t2 => exact .inl ⟨_, .running { v with sh := v.b, par := parStart, i := 0 } _ hb, rfl, rfl⟩
    | t7 => exact .inl ⟨_, .running _ _ hb, rfl, rfl⟩
    | t8 => exact .inr ⟨_, returns .ok⟩
    | fail r => exact .inr ⟨_, returns r⟩
  | event p v l hp hb =>
    obtain ⟨r, hc, _, _, hsent, _⟩ := device_primitive (fs := base) hctl hp
    obtain ⟨v', l', hf, hv⟩ := transmit_of_kind (deliver_kind u.cfg r (.transmit v l))
    exact .inl ⟨_, .running v' l' (hv.trans hb), hf ▸ hc, hsent⟩

/-- R161, R162: one step at the `transmit` of a reply, whatever the host does. -/
theorem replying_device (hr : Retries c b caller after) (hcfg : u.cfg = c) (h : Replying b caller base before u) :
    Replying b caller base before u.device ∨ u.device.ctl = after :: base ∧ u.device.sent = before ++ [b] := by
  obtain ⟨above, hctl, ht, hsent⟩ := h
  by_cases hne : above = []
  · subst hne
    rw [device_eq hctl, hr.calls base u hcfg]
    exact .inl ⟨_, rfl, .running (TxLocals.atEntry b) (.bus .t0) rfl, hsent⟩
  · rcases device_transmitting_sent ht hne hctl with ⟨above', ht', hc, hs⟩ | ⟨r, hc, hs⟩
    · exact .inl ⟨above', hc, ht', hs.trans hsent⟩
    · rw [popped, hcfg, hr.delivers] at hc
      rw [hsent] at hs
      split at hc
      · exact .inr ⟨hc, by rwa [if_pos ‹_›] at hs⟩
      · exact .inl (replying_start hc (by rwa [if_neg ‹_›, List.append_nil] at hs))

/-- R26: neither the call of `transmit` nor `transmit` writes the flag. -/
theorem replying_flag (hr : Retries c b caller after) (hcfg : u.cfg = c) (h : Replying b caller base before u) :
    u.device.enabled = u.enabled := by
  obtain ⟨above, hctl, ht, _⟩ := h
  have below {f : Frame} {fs : List Frame} (hctl : u.ctl = f :: fs) (hl : 5 ≤ f.level) : u.device.enabled = u.enabled :=
    (device_keeps hctl hl).1.2
  cases ht with
  | waiting => rw [device_eq hctl, hr.calls base u hcfg]; rfl
  | running v l _ => exact below hctl (by decide : 5 ≤ 6)
  | event p v l hp _ => exact below hctl (level_of_isPrimitive hp ▸ (by decide : 5 ≤ 7))

end

/-! ### What stands below `handle_command` -/

/-- What stands above `base` in `u`, if anything does, stands at the level `n` or further from the client. -/
def StandsAbove (base : List Frame) (n : Nat) (u : State) : Prop :=
  u.ctl.length ≤ base.length ∨ ∃ above, u.ctl = above ++ base ∧ above ≠ [] ∧ ∀ g ∈ above, n ≤ g.level

theorem standsAbove_tick {base : List Frame} {n : Nat} {u : State} (hd : base.length < u.ctl.length)
    (h : StandsAbove base n u) : StandsAbove base n u.tick := by
  obtain ⟨above, hctl, hne, hl⟩ := h.resolve_left (Nat.not_le.2 hd)
  rw [StandsAbove, State.tick, State.passTime_ctl]
  refine (device_above hctl hne hl).imp_left ?_
  rintro ⟨r, hr⟩
  rw [hr, popped_length]

/-- What every step of an operation of level `n` or further keeps, the call of one keeps. -/
theorem call_level_induct {P : State → Prop} {s : State} {f : Frame} {n : Nat} (hf : n ≤ f.level) (h0 : P (s.start f))
    (hstep : ∀ u g gs, u.ctl = g :: gs → n ≤ g.level → P u → P u.tick) : P (s.call f) := by
  have h : P (s.call f) ∧ StandsAbove s.ctl n (s.call f) := by
    refine call_induct (P := fun u => P u ∧ StandsAbove s.ctl n u) ⟨h0, .inr ⟨[f], rfl, by simp, by simpa⟩⟩ ?_
    rintro u hd ⟨hu, habove⟩
    obtain ⟨above, hctl, hne, hl⟩ := habove.resolve_left (Nat.not_le.2 hd)
    obtain ⟨g, gs, rfl⟩ := List.exists_cons_of_ne_nil hne
    exact ⟨hstep u g (gs ++ s.ctl) hctl (hl g (by simp)) hu, standsAbove_tick hd habove⟩
  exact h.1

/-- R25, R26, R176: the call of an operation below `handle_command` writes neither registry nor flag nor log. -/
theorem call_keeps (s : State) {f : Frame} (hf : 5 ≤ f.level) :
    KeysAndFlagKept s (s.call f) ∧ (s.call f).logged = s.logged := by
  refine call_level_induct (P := fun u => KeysAndFlagKept s u ∧ u.logged = s.logged) hf ⟨⟨rfl, rfl⟩, rfl⟩ ?_
  rintro u g gs hctl hl ⟨⟨hslots, hflag⟩, hlog⟩
  obtain ⟨⟨hslots', hflag'⟩, hlog'⟩ := device_keeps hctl hl
  refine ⟨⟨?_, ?_⟩, ?_⟩
  · rw [State.tick, State.passTime_slots, hslots', hslots]
  · rw [State.tick, State.passTime_enabled, hflag', hflag]
  · rw [State.tick, passTime_logged, hlog', hlog]

/-! ### The reply loop as an operation -/

/-- A point of the run of a reply loop called in `s`: at its `transmit`, at its return, or returned. -/
inductive ReplyPoint (b : Byte) (caller after : Frame) (s u : State) : Prop
  | replying (h : Replying b caller s.ctl s.sent u)
  | accepted (hctl : u.ctl = after :: s.ctl) (hsent : u.sent = s.sent ++ [b])
  | returned (hlen : u.ctl.length = s.ctl.length) (hret : u.ret = .unit) (hsent : u.sent = s.sent ++ [b])

/-- A return of nothing is no byte sent. -/
theorem returnFrom_unit_sent (s : State) (f : Frame) (fs : List Frame) : (s.returnFrom f .unit fs).sent = s.sent := by
  have hnone : (Event.returned f .unit).sentByte = none := by cases f <;> rfl
  rw [returnFrom_sent, hnone]
  exact List.append_nil _

section

variable {b : Byte} {caller after : Frame} {s u : State}

theorem ReplyPoint.passTime (h : ReplyPoint b caller after s u) : ReplyPoint b caller after s u.passTime := by
  cases h with
  | replying h => exact .replying h.passTime
  | accepted hctl hsent => exact .accepted (by simpa) (by simpa)
  | returned hlen hret hsent => exact .returned (by simpa) (by simpa) (by simpa)

variable (hr : Retries s.cfg b caller after)
  (hend : ∀ fs u, stepFrame after fs u = u.returnFrom after .unit fs)
include hr hend

theorem replyPoint_device (hcfg : u.cfg = s.cfg) (hd : s.ctl.length < u.ctl.length)
    (h : ReplyPoint b caller after s u) : ReplyPoint b caller after s u.device := by
  cases h with
  | replying h =>
    rcases replying_device hr hcfg h with h | ⟨hctl, hsent⟩
    · exact .replying h
    · exact .accepted hctl hsent
  | accepted hctl hsent =>
    rw [device_eq hctl, hend]
    exact .returned (by rw [returnFrom_ctl, popped_length]) (State.returnFrom_ret _ _ _ _)
      ((returnFrom_unit_sent _ _ _).trans hsent)
  | returned hlen _ _ => exact absurd hlen hd.ne'

theorem replyPoint_call : ReplyPoint b caller after s (s.call caller) :=
  (call_induct (P := fun u => u.cfg = s.cfg ∧ ReplyPoint b caller after s u) ⟨rfl, .replying (replying_start rfl rfl)⟩
    fun u hd ⟨hcfg, h⟩ =>
      ⟨by simpa [State.tick] using hcfg, (replyPoint_device hr hend hcfg hd h).passTime⟩).2

/-- What the call of a reply loop has sent, whatever the host does and wherever the described inputs end. -/
theorem reply_call :
    ((s.call caller).ctl.length = s.ctl.length → (s.call caller).ret = .unit ∧ (s.call caller).sent = s.sent ++ [b])
      ∧ ((s.call caller).sent = s.sent ∨ (s.call caller).sent = s.sent ++ [b]) := by
  cases replyPoint_call hr hend with
  | replying h =>
    obtain ⟨above, hctl, _, hsent⟩ := h
    refine ⟨fun hlen => ?_, .inl hsent⟩
    rw [hctl, List.length_append, List.length_cons] at hlen
    omega
  | accepted hctl hsent => exact ⟨fun hlen => by simp [hctl] at hlen, .inr hsent⟩
  | returned _ hret hsent => exact ⟨fun _ => ⟨hret, hsent⟩, .inr hsent⟩

end

/-- Settles O34: what has been sent by the points of the loop, the rest by the level of what runs. -/
theorem retryLoop : Obligations.RetryLoop := by
  intro i b s t hi hexec
  rcases hi with ⟨rfl, rfl⟩ | rfl
  · obtain rfl : s.call (.ack .s0) = t := Host.Outcome.next.inj hexec
    obtain ⟨hend, hsent⟩ := reply_call (retries_ack s.cfg) fun _ _ => rfl
    exact ⟨hend, hsent, call_keeps s (by decide : 5 ≤ 5)⟩
  · obtain rfl : s.call (.sendUntilOk b .s0) = t := Host.Outcome.next.inj hexec
    obtain ⟨hend, hsent⟩ := reply_call (retries_sendUntilOk s.cfg b) fun _ _ => rfl
    exact ⟨hend, hsent, call_keeps s (by decide : 5 ≤ 5)⟩

/-! ### The command reset (R163) -/

/-- The frame of the command reset called in `s`, the actions `acts` of its body being left. -/
def State.resetting (s : State) (acts : List HandlerAction) : Frame := .handleCommand s.cfg.cmdReset (.body acts)

/-- A point `u` of the run of the command reset, called in `s`, before it writes the flag. -/
inductive ResetReplying (s u : State) : Prop
  | start (hctl : u.ctl = s.resetting (bodyReset s.cfg) :: s.ctl) (hsent : u.sent = s.sent)
  | acking (h : Replying s.cfg.ackByte (.ack .s0) (s.resetting (bodyReset s.cfg) :: s.ctl) s.sent u)
  | acked (hctl : u.ctl = .ack .s2 :: s.resetting (bodyReset s.cfg) :: s.ctl)
    (hsent : u.sent = s.sent ++ [s.cfg.ackByte])
  | testing (h : Replying s.cfg.batOk (s.resetting [.send s.cfg.batOk, .setEnabled true]) s.ctl
      (s.sent ++ [s.cfg.ackByte]) u)
  | tested (hctl : u.ctl = s.resetting [.setEnabled true] :: s.ctl)
    (hsent : u.sent = s.sent ++ [s.cfg.ackByte, s.cfg.batOk])

/-- A point `u` of the run of the command reset, called in `s`: the flag is as it was, or both replies have been sent
and it is set. -/
inductive ResetPoint (s u : State) : Prop
  | replying (h : ResetReplying s u) (hflag : u.enabled = s.enabled)
  | written (hflag : u.enabled = true) (hsent : u.sent = s.sent ++ [s.cfg.ackByte, s.cfg.batOk])
    (hctl : u.ctl = s.resetting [] :: s.ctl ∨ u.ctl.length = s.ctl.length)

section

variable {s u : State}

theorem ResetPoint.passTime (h : ResetPoint s u) : ResetPoint s u.passTime := by
  cases h with
  | replying h hflag =>
    refine .replying ?_ (by simpa)
    cases h with
    | start hctl hsent => exact .start (by simpa) (by simpa)
    | acking h => exact .acking h.passTime
    | acked hctl hsent => exact .acked (by simpa) (by simpa)
    | testing h => exact .testing h.passTime
    | tested hctl hsent => exact .tested (by simpa) (by simpa)
  | written hflag hsent hctl => exact .written (by simpa) (by simpa) (by simpa)

variable (hcfg : u.cfg = s.cfg)
include hcfg

/-- R163: each action of the body after the one before it, the write of the flag last. -/
theorem resetPoint_replying (hflag : u.enabled = s.enabled) (h : ResetReplying s u) : ResetPoint s u.device := by
  cases h with
  | start hctl hsent =>
    rw [device_eq hctl]
    exact .replying (.acking (replying_start rfl hsent)) hflag
  | acking h =>
    refine .replying ?_ ((replying_flag (retries_ack s.cfg) hcfg h).trans hflag)
    rcases replying_device (retries_ack s.cfg) hcfg h with h | ⟨hctl, hsent⟩
    · exact .acking h
    · exact .acked hctl hsent
  | acked hctl hsent =>
    rw [device_eq hctl]
    exact .replying (.testing (replying_start rfl hsent)) hflag
  | testing h =>
    have hr := retries_send s.cfg s.cfg.cmdReset s.cfg.batOk [.setEnabled true]
    refine .replying ?_ ((replying_flag hr hcfg h).trans hflag)
    rcases replying_device hr hcfg h with h | ⟨hctl, hsent⟩
    · exact .testing h
    · exact .tested hctl (by rw [hsent, List.append_assoc]; rfl)
  | tested hctl hsent =>
    rw [device_eq hctl]
    exact .written rfl hsent (.inl rfl)

theorem resetPoint_device (hd : s.ctl.length < u.ctl.length) (h : ResetPoint s u) : ResetPoint s u.device := by
  cases h with
  | replying h hflag => exact resetPoint_replying hcfg hflag h
  | written hflag hsent hctl =>
    obtain hctl := hctl.resolve_right hd.ne'
    rw [device_eq hctl]
    refine .written ?_ ?_ (.inr ?_)
    · exact (State.returnFrom_enabled _ _ _ _).trans hflag
    · exact (returnFrom_unit_sent _ _ _).trans hsent
    · exact (congrArg List.length (returnFrom_ctl _ _ _ _)).trans (popped_length _ _ _)

end

theorem resetPoint_call (s : State) : ResetPoint s (s.call (s.resetting (bodyReset s.cfg))) :=
  (call_induct (P := fun u => u.cfg = s.cfg ∧ ResetPoint s u) ⟨rfl, .replying (.start rfl rfl) rfl⟩
    fun u hd ⟨hcfg, h⟩ => ⟨by simpa [State.tick] using hcfg, (resetPoint_device hcfg hd h).passTime⟩).2

/-- Settles O26: under a quiet host by the body, under every host by the points of its run. -/
theorem resetCommand : Obligations.ResetCommand := by
  refine ⟨fun s hrel hq => runBody_quiet hrel hq s.cfg.cmdReset (bodyReset s.cfg) (Nat.le_refl _), fun s t hexec => ?_⟩
  obtain rfl : s.call (s.resetting (bodyReset s.cfg)) = t := Host.Outcome.next.inj hexec
  refine ⟨call_slots s (by decide : 2 ≤ 4), fun hne => ?_⟩
  cases resetPoint_call s with
  | replying _ hflag => exact absurd hflag hne
  | written hflag hsent _ => exact ⟨hflag, hsent⟩

end Sys2Proof.Machine
end

section
/-!
The Reporting Enabled flag gates nothing (R26, R197, R275): every operation over the state commutes with a change of the
flag, up to what it leaves the flag at; so does a step of the running frame, a run, and the execution of an instruction.
-/

namespace Sys2Proof.Machine

/-- The state with the flag at `e`. -/
def State.withFlag (s : State) (e : Bool) : State := { s with enabled := e }

/-- `t` differs from `s` in the flag alone. -/
def FlagApart (s t : State) : Prop := ∃ e, t = s.withFlag e

/-- Two answers that differ in the flag alone: two such states, or the same refusal. -/
inductive AnswersApart : Host.Outcome State Fault Refusal → Host.Outcome State Fault Refusal → Prop
  | next {s t : State} (h : FlagApart s t) : AnswersApart (.next s) (.next t)
  | refused (r : Refusal) : AnswersApart (.refused r) (.refused r)

/-! ### The operations over the state -/

section

variable (s : State) (e : Bool)

@[simp] theorem withFlag_cfg : (s.withFlag e).cfg = s.cfg := rfl
@[simp] theorem withFlag_slots : (s.withFlag e).slots = s.slots := rfl
@[simp] theorem withFlag_ctl : (s.withFlag e).ctl = s.ctl := rfl
@[simp] theorem withFlag_script : (s.withFlag e).script = s.script := rfl
@[simp] theorem withFlag_envCount : (s.withFlag e).envCount = s.envCount := rfl

theorem returnFrom_withFlag (f : Frame) (r : Ret) (fs : List Frame) :
    (s.withFlag e).returnFrom f r fs = (s.returnFrom f r fs).withFlag e := by cases fs <;> rfl

theorem drive_withFlag (l : Line) (d : Drive) : (s.withFlag e).drive l d = (s.drive l d).withFlag e := by
  cases l <;> rfl

theorem record_withFlag (k : Keycode) : (s.withFlag e).record k = (s.record k).withFlag e := by
  simp only [State.record, withFlag_slots, withFlag_cfg]
  split <;> rfl

theorem clear_withFlag (k : Keycode) : (s.withFlag e).clear k = (s.clear k).withFlag e := by
  simp only [State.clear, withFlag_slots, withFlag_cfg]
  split <;> rfl

theorem passTime_withFlag : (s.withFlag e).passTime = s.passTime.withFlag e := by
  simp only [State.passTime, withFlag_script, withFlag_envCount]
  split <;> rfl

theorem withHost_withFlag (ps : List Pins) : (s.withFlag e).withHost ps = (s.withHost ps).withFlag e := by
  cases ps <;> rfl

end

/-! ### One step -/

section

variable (s : State) (e : Bool) (fs : List Frame)

theorem loopStep_withFlag (q : List Byte) (l : LoopLabel) (at_ : LoopLabel → Frame) (exit : State) :
    (s.withFlag e).loopStep q l at_ (exit.withFlag e) fs = (s.loopStep q l at_ exit fs).withFlag e := by
  cases l with
  | l2 j =>
    simp only [State.loopStep]
    split <;> rfl
  | _ => rfl

theorem stepPress_withFlag (k : Keycode) (q : List Byte) (l : KeyLabel) :
    stepPress k q l fs (s.withFlag e) = (stepPress k q l fs s).withFlag e := by
  cases l with
  | entry =>
    by_cases hk : k = s.cfg.keyNone <;> simp only [stepPress, withFlag_cfg, withFlag_slots, hk, if_true, if_false]
    · exact returnFrom_withFlag ..
    · split
      · exact returnFrom_withFlag ..
      · rfl
  | loop m => exact loopStep_withFlag s e fs q m (fun m => .press k q (.loop m)) (s.goto (.press k q .write) fs)
  | write => exact congrArg (State.goto · _ _) (record_withFlag s e k)
  | finish => exact returnFrom_withFlag ..

theorem stepRelease_withFlag (k : Keycode) (q : List Byte) (l : KeyLabel) :
    stepRelease k q l fs (s.withFlag e) = (stepRelease k q l fs s).withFlag e := by
  cases l with
  | entry =>
    simp only [stepRelease, withFlag_cfg, withFlag_slots]
    split
    · exact returnFrom_withFlag ..
    · rfl
  | loop m => exact loopStep_withFlag s e fs q m (fun m => .release k q (.loop m)) (s.goto (.release k q .write) fs)
  | write => exact congrArg (State.goto · _ _) (clear_withFlag s e k)
  | finish => exact returnFrom_withFlag ..

theorem stepReleaseAll_withFlag (n : Nat) :
    stepReleaseAll n fs (s.withFlag e) = (stepReleaseAll n fs s).withFlag e := by
  cases n with
  | zero => exact returnFrom_withFlag ..
  | succ i =>
    by_cases hk : s.slots.get i = s.cfg.keyNone <;>
      simp only [stepReleaseAll, withFlag_cfg, withFlag_slots, hk, if_true, if_false] <;> rfl

/-- R163, R166, R167: `handle_command` writes the flag and does not read it. -/
theorem stepHandle_flagApart (cmd : Byte) (l : HandlerLabel) :
    FlagApart (stepHandle cmd l fs s) (stepHandle cmd l fs (s.withFlag e)) := by
  rcases l with _ | (_ | ⟨_ | _ | _ | v | _, _⟩)
  · exact ⟨e, rfl⟩
  · exact ⟨e, returnFrom_withFlag ..⟩
  · exact ⟨e, rfl⟩
  · exact ⟨e, rfl⟩
  · exact ⟨e, rfl⟩
  · exact ⟨v, rfl⟩
  · exact ⟨e, rfl⟩

/-- One spec lemma of a step: it reads the flag nowhere. -/
theorem stepFrame_flagApart (f : Frame) : FlagApart (stepFrame f fs s) (stepFrame f fs (s.withFlag e)) := by
  have returns {r : Ret} : FlagApart (s.returnFrom f r fs) ((s.withFlag e).returnFrom f r fs) :=
    ⟨e, returnFrom_withFlag ..⟩
  have calls {g : Frame} : FlagApart (s.callFrom g f fs) ((s.withFlag e).callFrom g f fs) := ⟨e, rfl⟩
  have drives {l : Line} {d : Drive} :
      FlagApart ((s.drive l d).returnFrom f .unit fs) (((s.withFlag e).drive l d).returnFrom f .unit fs) :=
    ⟨e, by rw [drive_withFlag, returnFrom_withFlag]⟩
  cases f with
  | handleCommand cmd l => exact stepHandle_flagApart s e fs cmd l
  | press k q l => exact ⟨e, stepPress_withFlag s e fs k q l⟩
  | release k q l => exact ⟨e, stepRelease_withFlag s e fs k q l⟩
  | releaseAll n => exact ⟨e, stepReleaseAll_withFlag s e fs n⟩
  | poll l =>
    cases l with
    | out v => exact returns
    | _ => exact calls
  | transmit v l =>
    cases l with
    | bus b => exact calls
    | t2 => exact ⟨e, rfl⟩
    | t7 => exact ⟨e, rfl⟩
    | t8 => exact returns
    | fail r => exact returns
  | receive v l =>
    cases l with
    | rx0 => exact ⟨e, rfl⟩
    | bus b => exact calls
    | rx0Out => exact returns
    | rx2 => exact ⟨e, rfl⟩
    | rx7 => exact returns
  | ack l =>
    cases l with
    | s0 => exact calls
    | s2 => exact returns
  | sendUntilOk b l =>
    cases l with
    | s0 => exact calls
    | s2 => exact returns
  | sendSequence q l =>
    refine ⟨e, ?_⟩
    simp only [stepFrame, stepSendSequence, returnFrom_withFlag]
    exact loopStep_withFlag s e fs q l _ _
  | clockCycle p =>
    cases p with
    | none => exact returns
    | some p => exact calls
  | lineRelease l => exact drives
  | assertLow l => exact drives
  | lineRead l => exact ⟨e, returnFrom_withFlag (s.sample l) e ..⟩
  | delay n => exact ⟨e, returnFrom_withFlag (s.wait n) e ..⟩

end

/-! ### A run -/

theorem FlagApart.tick {s t : State} (h : FlagApart s t) : FlagApart s.tick t.tick := by
  obtain ⟨e, rfl⟩ := h
  have hd : FlagApart s.device (s.withFlag e).device := by
    cases hctl : s.ctl with
    | nil => exact ⟨e, by simp [State.device, hctl]⟩
    | cons f fs =>
      rw [device_eq hctl, device_eq (s := s.withFlag e) hctl]
      exact stepFrame_flagApart s e fs f
  obtain ⟨e', hd⟩ := hd
  exact ⟨e', by rw [State.tick, hd, passTime_withFlag]; rfl⟩

theorem runUntil_flagApart (d n : Nat) :
    ∀ {s t : State}, FlagApart s t → FlagApart (runUntil d n s) (runUntil d n t) := by
  induction n with
  | zero => exact id
  | succ n ih =>
    intro s t h
    have hseen : t.ctl = s.ctl ∧ t.env = s.env := by
      obtain ⟨e, rfl⟩ := h
      exact ⟨rfl, rfl⟩
    simp only [runUntil, hseen]
    split
    · exact h
    · exact ih h.tick

/-! ### What a request, and what a step does in its cases -/

section

variable {s : State}

/-- R194 K0, R250: a `press` that is not refused is a call. -/
theorem requestPress_idle {k : Keycode} (hidle : s.ctl = []) (hk : classify s.cfg k ≠ .reserved) :
    requestPress k s = .next (s.call (Frame.newPress s.cfg k)) := by
  simp [requestPress, State.busy, hidle, hk]

theorem step_reset (hr : s.env.rst = true) : step s = .next s.hardReset.passTime := by simp [step, hr]

theorem step_idle (hr : s.env.rst = false) (hidle : s.ctl = []) (hf : s.fetch = none) : step s = .next s.idle := by
  simp [step, hr, hidle, hf]

end

/-! ### The execution of an instruction, and a step of the machine -/

section

variable {s t : State} (h : FlagApart s t)
include h

theorem FlagApart.call (f : Frame) : FlagApart (s.call f) (t.call f) := by
  obtain ⟨e, rfl⟩ := h
  exact runUntil_flagApart _ _ ⟨e, rfl⟩

theorem callOp_flagApart (f : Frame) : AnswersApart (callOp f s) (callOp f t) := .next (h.call f)

theorem request_flagApart (f : Frame) : AnswersApart (request f s) (request f t) := by
  have hc := h.call f
  obtain ⟨e, rfl⟩ := h
  by_cases hidle : s.ctl = []
  · rw [request_idle f hidle, request_idle (s := s.withFlag e) f hidle]
    exact .next hc
  · rw [request_busy hidle, request_busy (s := s.withFlag e) hidle]
    exact .refused _

/-- R195, R197: whether a `press` is accepted does not depend on the flag. -/
theorem requestPress_flagApart (k : Keycode) : AnswersApart (requestPress k s) (requestPress k t) := by
  have hc := h.call (Frame.newPress s.cfg k)
  obtain ⟨e, rfl⟩ := h
  by_cases hidle : s.ctl = []
  · by_cases hk : classify s.cfg k = .reserved
    · rw [requestPress_reserved hidle hk, requestPress_reserved (s := s.withFlag e) hidle hk]
      exact .refused _
    · rw [requestPress_idle hidle hk, requestPress_idle (s := s.withFlag e) hidle hk]
      exact .next hc
  · rw [requestPress_busy hidle, requestPress_busy (s := s.withFlag e) hidle]
    exact .refused _

theorem FlagApart.offering (k : Keycode) : FlagApart (s.offering k) (t.offering k) := by
  obtain ⟨e, rfl⟩ := h
  exact ⟨e, rfl⟩

theorem FlagApart.withHost (ps : List Pins) : FlagApart (s.withHost ps) (t.withHost ps) := by
  obtain ⟨e, rfl⟩ := h
  exact ⟨e, withHost_withFlag s e ps⟩

theorem FlagApart.cfg : t.cfg = s.cfg := by
  obtain ⟨e, rfl⟩ := h
  rfl

theorem FlagApart.env : t.env = s.env := by
  obtain ⟨e, rfl⟩ := h
  rfl

theorem requestRelease_flagApart (k : Keycode) : AnswersApart (requestRelease k s) (requestRelease k t) := by
  rw [requestRelease, requestRelease, h.cfg]
  exact request_flagApart h _

theorem requestKey_flagApart (k : Keycode) : AnswersApart (requestKey k s) (requestKey k t) := by
  have ht : t.env.reqOp = s.env.reqOp := by rw [h.env]
  have hk := h.offering k
  rcases requestCode_cases s.env.reqOp with ho | ho | ho | ho
  · rw [requestKey_poll k ho, requestKey_poll k (ht.trans ho)]
    exact request_flagApart hk _
  · rw [requestKey_press k ho, requestKey_press k (ht.trans ho)]
    exact requestPress_flagApart hk k
  · rw [requestKey_release k ho, requestKey_release k (ht.trans ho)]
    exact requestRelease_flagApart hk k
  · rw [requestKey_releaseAll k ho, requestKey_releaseAll k (ht.trans ho)]
    exact request_flagApart hk _

/-- Every row of the opcode table is the call of an operation, a request, or a Keycode on the port; none of them reads
the flag. -/
theorem exec_flagApart (i : Instr) : AnswersApart (exec i s) (exec i t) := by
  obtain ⟨e, rfl⟩ := h
  have h : FlagApart s (s.withFlag e) := ⟨e, rfl⟩
  cases i with
  | keycodePlain l => exact requestKey_flagApart h _
  | keycodeExtended l => exact requestKey_flagApart h _
  | keycodeSpecialPrtsc => exact requestKey_flagApart h _
  | keycodeSpecialPause => exact requestKey_flagApart h _
  | keycodeNone => exact requestKey_flagApart h _
  | keycodeReserved k => exact requestKey_flagApart h _
  | press k => exact requestPress_flagApart h k
  | opPress k => exact requestPress_flagApart h k
  | release k => exact requestRelease_flagApart h k
  | poll => exact request_flagApart h _
  | releaseAll => exact request_flagApart h _
  | opReleaseAll => exact request_flagApart h _
  | parameterByte v => exact callOp_flagApart (h.withHost _) _
  | frameHostToDevice b p => exact callOp_flagApart (h.withHost _) _
  | _ => exact callOp_flagApart h _

/-- Whether a step resets, goes on, idles, or runs which instruction, does not depend on the flag. -/
theorem step_flagApart : AnswersApart (step s) (step t) := by
  have hexec := exec_flagApart h
  have htick := h.tick
  obtain ⟨e, rfl⟩ := h
  cases hr : s.env.rst with
  | true =>
    rw [step_reset hr, step_reset (s := s.withFlag e) hr]
    exact .next ⟨s.cfg.enabledReset, passTime_withFlag s.hardReset _⟩
  | false =>
    cases hctl : s.ctl with
    | cons f fs =>
      rw [step_busy hr hctl, step_busy (s := s.withFlag e) hr hctl]
      exact .next htick
    | nil =>
      cases hf : s.fetch with
      | none =>
        rw [step_idle hr hctl hf, step_idle (s := s.withFlag e) hr hctl hf]
        exact .next ⟨e, passTime_withFlag { s with done := false } e⟩
      | some w =>
        cases hd : decode s.cfg w with
        | ok i =>
          rw [step_fetched hr hctl hf hd, step_fetched (s := s.withFlag e) hr hctl hf hd]
          exact hexec i
        | error x =>
          rw [step_undecodable hr hctl hf hd, step_undecodable (s := s.withFlag e) hr hctl hf hd]
          exact .refused _

end

theorem AnswersApart.next_inv {s : State} {o : Host.Outcome State Fault Refusal} (h : AnswersApart (.next s) o) :
    ∃ t, o = .next t ∧ FlagApart s t := by
  cases h with
  | next h => exact ⟨_, rfl, h⟩

theorem AnswersApart.refused_inv {r : Refusal} {o : Host.Outcome State Fault Refusal}
    (h : AnswersApart (.refused r) o) : o = .refused r := by
  cases h
  rfl

/-- Settles O53: a step of the one state and a step of the other answer alike but for the flag. -/
theorem flagGatesNothing : Obligations.FlagGatesNothing := by
  intro s e
  have h : AnswersApart (step s) (step (s.withFlag e)) := step_flagApart ⟨e, rfl⟩
  refine ⟨fun t ht => ?_, fun r hr => ?_⟩
  · obtain ⟨t', ht', e', rfl⟩ := (ht ▸ h).next_inv
    exact ⟨_, ht', rfl⟩
  · exact (hr ▸ h).refused_inv

end Sys2Proof.Machine
end

section
/-!
The retry loop of a key sequence taken back to its beginning (R190, R239, R240): a Collision of a byte, or a serviced
host command, sends it to L0, and from there it starts again at byte 0.
-/

namespace Sys2Proof.Machine

/-! ### A step that touches nothing -/

/-- The lines, the registry, the flag and the parameters are as they were, and nothing has been driven or sent. -/
def Untouched (s t : State) : Prop := Undriven s t ∧ s.sameStore t ∧ t.sent = s.sent

theorem Untouched.refl (s : State) : Untouched s s := ⟨⟨rfl, rfl, rfl⟩, ⟨rfl, rfl, rfl⟩, rfl⟩

theorem untouched_sample (s : State) (l : Line) : Untouched s (s.sample l) := ⟨⟨rfl, rfl, rfl⟩, ⟨rfl, rfl, rfl⟩, rfl⟩

theorem untouched_goto (s : State) (f : Frame) (fs : List Frame) : Untouched s (s.goto f fs) :=
  ⟨⟨rfl, rfl, rfl⟩, ⟨rfl, rfl, rfl⟩, rfl⟩

section

variable {s t : State} (h : Untouched s t)
include h

theorem Untouched.passTime : Untouched s t.passTime := by
  obtain ⟨hd, ⟨hc, hs, he⟩, hb⟩ := h
  exact ⟨hd.trans (undriven_passTime t), ⟨by simpa, by simpa, by simpa⟩, by simpa⟩

theorem Untouched.returnFrom {f : Frame} {r : Ret} (fs : List Frame) (hsent : (Event.returned f r).sentByte = none) :
    Untouched s (t.returnFrom f r fs) := by
  obtain ⟨⟨hc, hx, hd⟩, ⟨hcfg, hs, he⟩, hb⟩ := h
  refine ⟨⟨by simpa, by simpa, by simpa⟩, ⟨by simpa, by simpa, by simpa⟩, ?_⟩
  rw [returnFrom_sent, hsent, hb]
  exact List.append_nil _

end

section

variable {s : State} (hr : s.env.rst = false)
include hr

theorem step_untouched {f : Frame} {fs ctl : List Frame} (hctl : s.ctl = f :: fs) (hc : s.device.ctl = ctl)
    (hu : Untouched s s.device) : ∃ t, step s = .next t ∧ t.ctl = ctl ∧ Untouched s t :=
  ⟨s.tick, step_busy hr hctl, (State.passTime_ctl _).trans hc, hu.passTime⟩

/-- A step that returns to the frame `g`, its own act `s'` touching nothing. -/
theorem step_returned {f g : Frame} {fs : List Frame} {s' : State} {r : Ret} (hctl : s.ctl = f :: g :: fs)
    (hf : stepFrame f (g :: fs) s = s'.returnFrom f r (g :: fs)) (hu : Untouched s s')
    (hsent : (Event.returned f r).sentByte = none) :
    ∃ t, step s = .next t ∧ t.ctl = g.deliver s.cfg r :: fs ∧ Untouched s t := by
  have hdev : s.device = s'.returnFrom f r (g :: fs) := (device_eq hctl).trans hf
  refine step_untouched hr hctl ?_ (hdev ▸ hu.returnFrom _ hsent)
  obtain ⟨_, ⟨hcfg, _⟩, _⟩ := hu
  rw [hdev, returnFrom_ctl, hcfg, popped]

end

/-! ### The loop of `press`, of `release` and of `send_sequence` -/

/-- The three frames that run the retry loop of R190. -/
def RunsLoop (k : Keycode) (q : List Byte) (at_ : LoopLabel → Frame) : Prop :=
  (at_ = fun l => .press k q (.loop l)) ∨ (at_ = fun l => .release k q (.loop l)) ∨ (at_ = fun l => .sendSequence q l)

section

variable {k : Keycode} {q : List Byte} {at_ : LoopLabel → Frame} (h : RunsLoop k q at_)
include h

theorem RunsLoop.deliver (c : Config) (r : Ret) (l : LoopLabel) : (at_ l).deliver c r = at_ (l.deliver r) := by
  rcases h with rfl | rfl | rfl <;> rfl

/-- R240: from L1 to byte 0. -/
theorem RunsLoop.restarts (fs : List Frame) (s : State) : stepFrame (at_ .l1) fs s = s.goto (at_ (.l2 0)) fs := by
  rcases h with rfl | rfl | rfl <;> rfl

end

/-- R239: what is no `Ok` sends the loop from the `transmit` of any byte to L0. -/
theorem deliver_collision {r : ResultCode} (j : Nat) (h : r = .collisionClock ∨ r = .collisionData) :
    (LoopLabel.l3Send j).deliver (.code r) = .l0 := by
  rcases h with rfl | rfl <;> rfl

/-- Settles O36: the sample that meets the Collision, its return, and the return of a `poll` that has serviced the host
are each one step, and the last two are delivered to the loop as L0. -/
theorem sequenceAbandoned : Obligations.SequenceAbandoned := by
  intro k q j v at_ fs s hat hr
  have hat : RunsLoop k q at_ := hat
  refine ⟨fun hctl hlow => ?_, fun hctl hlow => ?_, fun r hcol hctl => ?_, fun hctl => ?_⟩
  · obtain ⟨t, hstep, hc, hu⟩ := step_returned hr hctl rfl (untouched_sample s .clk) rfl
    rw [hlow] at hc
    exact ⟨t, hstep, hc, hu⟩
  · obtain ⟨t, hstep, hc, hu⟩ := step_returned hr hctl rfl (untouched_sample s .dat) rfl
    rw [hlow] at hc
    exact ⟨t, hstep, hc, hu⟩
  · obtain ⟨t, hstep, hc, hu⟩ := step_returned hr hctl rfl (.refl s) (sentByte_collision hcol)
    rw [hat.deliver, deliver_collision j hcol] at hc
    exact ⟨t, hstep, hc, hu⟩
  · obtain ⟨t, hstep, hc, hu⟩ := step_returned hr hctl rfl (.refl s) rfl
    rw [hat.deliver] at hc
    exact ⟨t, hstep, hc, hu⟩

/-- Settles O37: the return of a `poll` that has found nothing is delivered to the loop as L1, whose step is byte 0. -/
theorem sequenceRestarted : Obligations.SequenceRestarted := by
  intro k q at_ fs s hat hr
  have hat : RunsLoop k q at_ := hat
  refine ⟨fun hctl => ?_, fun hctl => ?_⟩
  · obtain ⟨t, hstep, hc, hdriven, hstore, _⟩ := step_returned hr hctl rfl (.refl s) rfl
    rw [hat.deliver] at hc
    exact ⟨t, hstep, hc, hdriven, hstore⟩
  · have hdev : s.device = s.goto (at_ (.l2 0)) fs := (device_eq hctl).trans (hat.restarts fs s)
    obtain ⟨t, hstep, hc, hdriven, hstore, _⟩ := step_untouched hr hctl (congrArg State.ctl hdev)
      (hdev ▸ untouched_goto s _ fs)
    exact ⟨t, hstep, hc, hdriven, hstore⟩

end Sys2Proof.Machine
end

section
/-!
`press` and `release` (R194 to R201) read as one operation of two directions: its steps, the rows that ask for it, what
it does when there is nothing to do (R195, R199), what under a quiet host, and what under every host (R191, R206).
-/

namespace Sys2Proof.Machine

/-! ### One operation of two directions -/

/-- The frame of `press` or `release` at a step. -/
def keyFrame (d : Direction) (k : Keycode) (q : List Byte) (l : KeyLabel) : Frame :=
  match d with
  | .press => .press k q l
  | .release => .release k q l

/-- R194 K5, R199 K13: the write of the registry. -/
def State.keyWrite (s : State) (d : Direction) (k : Keycode) : State :=
  match d with
  | .press => s.record k
  | .release => s.clear k

/-- R195, R199: there is nothing to do. -/
def State.keyVoid (s : State) (d : Direction) (k : Keycode) : Prop :=
  match d with
  | .press => k = s.cfg.keyNone ∨ s.slots.find k ≠ none ∨ s.slots.free s.cfg = none
  | .release => k = s.cfg.keyNone ∨ s.slots.find k = none

theorem pressCheck_eq_none {c : Config} {r : Registry} {k : Keycode} :
    pressCheck c r k = none ↔ r.find k = none ∧ r.free c ≠ none := by
  unfold pressCheck
  split
  · simp [*]
  · split <;> simp_all

theorem releaseCheck_eq_none {c : Config} {r : Registry} {k : Keycode} :
    releaseCheck c r k = none ↔ k ≠ c.keyNone ∧ r.find k ≠ none := by
  unfold releaseCheck
  split
  · simp [*]
  · split <;> simp_all

section

variable (d : Direction) (k : Keycode) (q : List Byte) (s : State) (fs : List Frame)

theorem keyFrame_external (l : KeyLabel) : (keyFrame d k q l).external = true := by cases d <;> rfl

/-- R194 K1 to K3, R199 K10, K11. -/
theorem keyFrame_void (h : s.keyVoid d k) :
    stepFrame (keyFrame d k q .entry) fs s = s.returnFrom (keyFrame d k q .entry) (.bit false) fs := by
  cases d with
  | press =>
    simp only [keyFrame, stepFrame, stepPress]
    split
    · rfl
    · rename_i hk
      split
      · rfl
      · rename_i hc
        obtain ⟨hfind, hfree⟩ := pressCheck_eq_none.1 hc
        rcases h with h | h | h
        · exact absurd h hk
        · exact absurd hfind h
        · exact absurd h hfree
  | release =>
    simp only [keyFrame, stepFrame, stepRelease]
    split
    · rfl
    · rename_i hc
      obtain ⟨hk, hfind⟩ := releaseCheck_eq_none.1 hc
      exact absurd h (not_or.2 ⟨hk, hfind⟩)

theorem keyFrame_begins (h : ¬ s.keyVoid d k) :
    stepFrame (keyFrame d k q .entry) fs s = s.goto (keyFrame d k q (.loop .l0)) fs := by
  cases d with
  | press =>
    obtain ⟨hk, h⟩ := not_or.1 h
    obtain ⟨hfind, hfree⟩ := not_or.1 h
    simp only [keyFrame, stepFrame, stepPress]
    rw [if_neg hk, pressCheck_eq_none.2 ⟨not_not.1 hfind, hfree⟩]
  | release =>
    simp only [keyFrame, stepFrame, stepRelease]
    rw [releaseCheck_eq_none.2 (not_or.1 h)]

theorem keyFrame_loop (l : LoopLabel) :
    stepFrame (keyFrame d k q (.loop l)) fs s
      = s.loopStep q l (fun m => keyFrame d k q (.loop m)) (s.goto (keyFrame d k q .write) fs) fs := by cases d <;> rfl

theorem keyFrame_deliver (c : Config) (r : Ret) (l : LoopLabel) :
    (keyFrame d k q (.loop l)).deliver c r = keyFrame d k q (.loop (l.deliver r)) := by cases d <;> rfl

theorem keyFrame_write :
    stepFrame (keyFrame d k q .write) fs s = (s.keyWrite d k).goto (keyFrame d k q .finish) fs := by cases d <;> rfl

theorem keyFrame_finish :
    stepFrame (keyFrame d k q .finish) fs s = s.returnFrom (keyFrame d k q .finish) (.bit true) fs := by cases d <;> rfl

theorem keyWrite_transfers : (s.keyWrite d k).transfers = s.transfers := by
  cases d <;> simp [State.keyWrite, State.transfers]

end

/-- What is written depends on the registry and the parameters alone. -/
theorem keyWrite_slots {s u : State} (d : Direction) (k : Keycode) (hcfg : u.cfg = s.cfg) (hslots : u.slots = s.slots) :
    (u.keyWrite d k).slots = (s.keyWrite d k).slots := by
  cases d <;> simp only [State.keyWrite, State.record_slots, State.clear_slots, hcfg, hslots]

theorem keyVoid_congr {s u : State} (d : Direction) (k : Keycode) (hcfg : u.cfg = s.cfg) (hslots : u.slots = s.slots) :
    u.keyVoid d k ↔ s.keyVoid d k := by
  cases d <;> simp only [State.keyVoid, hcfg, hslots]

/-! ### The rows that ask for it -/

section

variable {i : Instr} {k : Keycode} {s : State}

/-- R89, R90, R194: each row that asks for a `press` which is not refused calls it. -/
theorem exec_pressForm (hi : PressForm s i k) (hidle : s.ctl = []) (hk : classify s.cfg k ≠ .reserved) :
    ∃ x, exec i s = .next ((s.offering x).call (Frame.newPress s.cfg k)) := by
  rcases hi with rfl | rfl | ⟨hrow, hop⟩
  · exact ⟨s.env.reqKey, requestPress_idle hidle hk⟩
  · exact ⟨s.env.reqKey, requestPress_idle hidle hk⟩
  · refine ⟨k, ?_⟩
    rw [exec_keycodeRow hrow, requestKey_press k hop]
    exact requestPress_idle (s := s.offering k) hidle hk

/-- R89, R90, R199: each row that asks for a `release` calls it, `op.release` whatever runs below it. -/
theorem exec_releaseForm (hi : ReleaseForm s i k) (hctl : s.ctl = [] ∨ i = .opRelease k) :
    ∃ x, exec i s = .next ((s.offering x).call (Frame.newRelease s.cfg k)) := by
  rcases hi with rfl | rfl | ⟨hrow, hop⟩
  · exact ⟨s.env.reqKey, request_idle _ (hctl.resolve_right nofun)⟩
  · exact ⟨s.env.reqKey, rfl⟩
  · have hidle : s.ctl = [] := hctl.resolve_right (by rintro rfl; exact hrow)
    refine ⟨k, ?_⟩
    rw [exec_keycodeRow hrow, requestKey_release k hop]
    exact request_idle (s := s.offering k) _ hidle

end

/-! ### Nothing to do -/

section

variable {s : State} {f : Frame} {r : Ret}

/-- The call of an operation whose first step returns. -/
theorem call_returns_at_once (hr : s.env.rst = false)
    (hf : stepFrame f s.ctl (s.start f) = (s.start f).returnFrom f r s.ctl) :
    s.call f = ((s.start f).returnFrom f r s.ctl).passTime := by
  have htick : (s.start f).tick = ((s.start f).returnFrom f r s.ctl).passTime := by rw [State.tick, device_eq rfl, hf]
  have hrun : ¬ ((s.start f).ctl.length ≤ s.ctl.length ∨ (s.start f).env.rst = true) := by simp [State.start, hr]
  have hstop : (s.start f).tick.ctl.length ≤ s.ctl.length := by
    rw [htick, State.passTime_ctl, returnFrom_ctl, popped_length]
  exact (if_neg hrun).trans ((runUntil_stop _ _ _ (.inl hstop)).trans htick)

/-- R250: an external operation that returns to the client of an idle engine. -/
theorem returnFrom_answered (u : State) (hext : f.external = true) : Answered (u.returnFrom f r []) (resultBit r) :=
  ⟨rfl, hext, if_pos hext⟩

theorem Answered.passTime {u : State} {v : Bool} (h : Answered u v) : Answered u.passTime v := by
  simpa [Answered] using h

/-- R195, R199: `press` and `release` with nothing to do. -/
theorem call_keyVoid {d : Direction} {k : Keycode} {q : List Byte} (hr : s.env.rst = false) (h : s.keyVoid d k) :
    ∃ f, (s.call (keyFrame d k q .entry)).events = .returned f (.bit false) :: s.events
      ∧ (s.call (keyFrame d k q .entry)).ctl = s.resumed (.bit false)
      ∧ Undriven s (s.call (keyFrame d k q .entry)) ∧ s.sameStore (s.call (keyFrame d k q .entry))
      ∧ (s.ctl = [] → Answered (s.call (keyFrame d k q .entry)) false) := by
  rw [call_returns_at_once hr (keyFrame_void d k q (s.start (keyFrame d k q .entry)) s.ctl h)]
  have hstart : Untouched s (s.start (keyFrame d k q .entry)) := ⟨⟨rfl, rfl, rfl⟩, ⟨rfl, rfl, rfl⟩, rfl⟩
  have hnone : (Event.returned (keyFrame d k q .entry) (.bit false)).sentByte = none := by cases d <;> rfl
  obtain ⟨hdriven, hstore, _⟩ := (hstart.returnFrom s.ctl hnone).passTime
  refine ⟨keyFrame d k q .entry, ?_, ?_, hdriven, hstore, fun hidle => ?_⟩
  · rw [State.passTime_events, State.returnFrom_events]
    rfl
  · rw [State.passTime_ctl, returnFrom_ctl, resumed_eq_deliverTo]
    rfl
  · rw [hidle]
    exact (returnFrom_answered _ (keyFrame_external d k q .entry)).passTime

end

/-- Settles O39: every form calls `press`, whose first step returns 0. -/
theorem pressNoEffect : Obligations.PressNoEffect := by
  intro i k s hi hidle hr hres hvoid
  obtain ⟨x, hexec⟩ := exec_pressForm hi hidle hres
  obtain ⟨f, hev, _, hdriven, hstore, hans⟩ :=
    call_keyVoid (s := s.offering x) (d := .press) (q := seqOf s.cfg k .press) hr hvoid
  exact ⟨_, f, hexec, hev, hdriven, hstore, hans hidle⟩

/-- Settles O43: every form calls `release`, whose first step returns 0. -/
theorem releaseNoEffect : Obligations.ReleaseNoEffect := by
  intro i k s hi hctl hr hvoid
  obtain ⟨x, hexec⟩ := exec_releaseForm hi hctl
  obtain ⟨f, hev, hc, hdriven, hstore, hans⟩ :=
    call_keyVoid (s := s.offering x) (d := .release) (q := seqOf s.cfg k .release) hr hvoid
  exact ⟨_, f, hexec, hev, hc, hdriven, hstore, hans⟩

/-! ### Under a quiet host -/

section

variable {s : State} {f : Frame} {n : Nat} {v : Keycode} {bytes : List Byte}

theorem slotWritten_set {t : State} (hn : n < nSlots) (h : t.slots = s.slots.set n v) : SlotWritten s t n v := by
  refine ⟨?_, fun j hj hne => ?_⟩
  · rw [h, Registry.get_set _ hn hn, if_pos rfl]
  · rw [h, Registry.get_set _ hn hj, if_neg hne]

/-- A `press` or `release` that completes in a quiet world, having sent its sequence and written its slot. -/
theorem call_key_quiet (hext : f.external = true) (hrel : s.released) (hq : s.quietFor (144 * bytes.length + 10))
    (hn : n < nSlots)
    (hc : Completes { s with inject := none, done := false } f (1 + (7 + 144 * bytes.length + 3)) (.bit true)
      (s.slots.set n v) s.enabled bytes []) :
    Completed s (s.call f) (.bit true) bytes [] ∧ FramesOnWire s (s.call f) bytes ∧ SlotWritten s (s.call f) n v
      ∧ (s.call f).enabled = s.enabled ∧ (s.ctl = [] → Answered (s.call f) true) := by
  obtain ⟨hcompleted, hwire, hslots, henabled, hdone, hresult⟩ :=
    call_completes hrel hq (by omega) (by omega) hc
  refine ⟨hcompleted, hwire, slotWritten_set hn hslots, henabled, fun hidle => ⟨?_, ?_, ?_⟩⟩
  · rw [hcompleted.stack, State.resumed, hidle]
  · simpa [hidle, hext] using hdone
  · simpa [hidle, hext, resultBit] using hresult

/-- R89: what stands on `req_key` is not the engine's. -/
theorem Completed.of_offering {t : State} {x : Keycode} {r : Ret} {logs : List Byte}
    (h : Completed (s.offering x) t r bytes logs) : Completed s t r bytes logs :=
  ⟨h.stack, h.ret, h.sent, h.logged, h.lines, h.config, h.taken⟩

end

/-- R79: a well-formed Keycode is neither the sentinel nor reserved. -/
theorem wfKey_class {c : Config} {k : Keycode} (h : wfKey c k = true) : k ≠ c.keyNone ∧ classify c k ≠ .reserved := by
  refine ⟨?_, fun hk => ?_⟩
  · rintro rfl
    simp [wfKey, classify] at h
  · simp [wfKey, hk] at h

/-- Settles O38, by the run of `press` in a quiet world. -/
theorem pressSucceeds : Obligations.PressSucceeds := by
  intro i k n s hi hidle hrel hwf hfind hfree hq
  obtain ⟨hk, hres⟩ := wfKey_class hwf
  obtain ⟨x, hexec⟩ := exec_pressForm hi hidle hres
  obtain ⟨hn, _⟩ := Registry.find_some hfree
  obtain ⟨hc, hwire, hslot, henabled, hans⟩ := call_key_quiet (s := s.offering x) rfl hrel (quietFor_offering x hq) hn
    (completes_press { s.offering x with inject := none, done := false } k n hk hfind hfree)
  exact ⟨_, hexec, hc.of_offering, hwire, hslot, henabled, hans hidle⟩

/-- Settles O42, by the run of `release` in a quiet world. -/
theorem releaseSucceeds : Obligations.ReleaseSucceeds := by
  intro i k n s hi hctl hrel hk hfind hq
  obtain ⟨x, hexec⟩ := exec_releaseForm hi hctl
  obtain ⟨hn, _⟩ := Registry.find_some hfind
  obtain ⟨hc, hwire, hslot, henabled, hans⟩ := call_key_quiet (s := s.offering x) rfl hrel (quietFor_offering x hq) hn
    (completes_release { s.offering x with inject := none, done := false } k n hk hfind)
  exact ⟨_, hexec, hc.of_offering, hwire, hslot, henabled, hans⟩

end Sys2Proof.Machine
end

section
/-!
`press` and `release` under an arbitrary host (R191, R192, R206): the registry is written after the whole sequence has
been sent without interruption, and not before; an answer 0 has sent nothing.
-/

namespace Sys2Proof.Machine

/-- Since `s` the sequence `q` has been sent without interruption, as the last transfers (R191). -/
def SentLast (q : List Byte) (s u : State) : Prop :=
  ∃ before, u.transfers = s.transfers ++ before ++ uninterrupted q

/-- A point `u` of the run of `press` or `release` that an idle engine began in `s`. -/
inductive KeyPoint (d : Direction) (k : Keycode) (q : List Byte) (s u : State) : Prop
  | entering (hctl : u.ctl = [keyFrame d k q .entry]) (hslots : u.slots = s.slots) (ht : u.transfers = s.transfers)
  | declined (hres : u.result = false) (hctl : u.ctl = []) (hslots : u.slots = s.slots) (ht : u.transfers = s.transfers)
  | sending (hdo : ¬ s.keyVoid d k)
    (hloop : SendingAt q (fun l => keyFrame d k q (.loop l)) [] s.slots s.transfers u)
  | writing (hdo : ¬ s.keyVoid d k) (hctl : u.ctl = [keyFrame d k q .write]) (hslots : u.slots = s.slots)
    (hsent : SentLast q s u)
  | finishing (hdo : ¬ s.keyVoid d k) (hctl : u.ctl = [keyFrame d k q .finish])
    (hslots : u.slots = (s.keyWrite d k).slots) (hsent : SentLast q s u)
  | answered (hdo : ¬ s.keyVoid d k) (hres : u.result = true) (hctl : u.ctl = [])
    (hslots : u.slots = (s.keyWrite d k).slots) (hsent : SentLast q s u)

section

variable {d : Direction} {k : Keycode} {q : List Byte} {s u : State}

theorem KeyPoint.passTime (h : KeyPoint d k q s u) : KeyPoint d k q s u.passTime := by
  cases h with
  | entering hctl hslots ht => exact .entering (by simpa) (by simpa) (by simpa)
  | declined hres hctl hslots ht => exact .declined (by simpa) (by simpa) (by simpa) (by simpa)
  | sending hdo hloop => exact .sending hdo (by simpa [SendingAt] using hloop)
  | writing hdo hctl hslots hsent => exact .writing hdo (by simpa) (by simpa) (by simpa [SentLast] using hsent)
  | finishing hdo hctl hslots hsent => exact .finishing hdo (by simpa) (by simpa) (by simpa [SentLast] using hsent)
  | answered hdo hres hctl hslots hsent =>
    exact .answered hdo (by simpa) (by simpa) (by simpa) (by simpa [SentLast] using hsent)

/-- A return of 0 or 1 is no transfer. -/
theorem returnFrom_bit_transfers (u : State) (f : Frame) (v : Bool) (fs : List Frame) :
    (u.returnFrom f (.bit v) fs).transfers = u.transfers := by
  have hnone : (Event.returned f (.bit v)).transfer = none := by cases f <;> rfl
  rw [returnFrom_transfers, hnone]
  exact List.append_nil _

/-- R194 K1 to K3, R199 K10, K11: nothing to do and the return of 0, or the retry loop. -/
theorem keyPoint_entry (hcfg : u.cfg = s.cfg) (hctl : u.ctl = [keyFrame d k q .entry]) (hslots : u.slots = s.slots)
    (ht : u.transfers = s.transfers) : KeyPoint d k q s u.device := by
  rw [device_eq hctl]
  by_cases h : s.keyVoid d k
  · rw [keyFrame_void d k q u [] ((keyVoid_congr d k hcfg hslots).2 h)]
    obtain ⟨hidle, _, hres⟩ := returnFrom_answered (r := .bit false) u (keyFrame_external d k q .entry)
    exact .declined hres hidle hslots ((returnFrom_bit_transfers _ _ _ _).trans ht)
  · rw [keyFrame_begins d k q u [] (mt (keyVoid_congr d k hcfg hslots).1 h)]
    exact .sending h ⟨hslots, .l0, [], [], rfl, ht.trans (List.append_nil _).symm, List.forall_mem_nil _⟩

/-- One step of `press` or `release` or of what it has called, whatever the host does. -/
theorem keyPoint_device (hcfg : u.cfg = s.cfg) (hd : 0 < u.ctl.length) (h : KeyPoint d k q s u) :
    KeyPoint d k q s u.device := by
  cases h with
  | entering hctl hslots ht => exact keyPoint_entry hcfg hctl hslots ht
  | sending hdo hloop =>
    rcases sendingAt_device (exit := fun _ u fs => u.goto (keyFrame d k q .write) fs)
      (fun l fs u => keyFrame_loop d k q u fs l) (keyFrame_deliver d k q) hloop with h | ⟨l, passed, hd, hr, ht, hlast⟩
    · exact .sending hdo h
    · obtain ⟨before, rfl⟩ := hlast
      rw [hd]
      exact .writing hdo rfl hr ⟨before, ht.trans (List.append_assoc ..).symm⟩
  | writing hdo hctl hslots hsent =>
    rw [device_eq hctl, keyFrame_write]
    obtain ⟨before, ht⟩ := hsent
    exact .finishing hdo rfl (keyWrite_slots d k hcfg hslots) ⟨before, (keyWrite_transfers d k u).trans ht⟩
  | finishing hdo hctl hslots hsent =>
    rw [device_eq hctl, keyFrame_finish]
    obtain ⟨before, ht⟩ := hsent
    obtain ⟨hidle, _, hres⟩ := returnFrom_answered (r := .bit true) u (keyFrame_external d k q .finish)
    exact .answered hdo hres hidle hslots ⟨before, (returnFrom_bit_transfers _ _ _ _).trans ht⟩
  | declined _ hctl => simp [hctl] at hd
  | answered _ _ hctl => simp [hctl] at hd

/-- The run from an idle engine, whatever stands on `req_key` and wherever the described inputs end. -/
theorem keyPoint_call (x : Keycode) (hidle : s.ctl = []) :
    KeyPoint d k q s ((s.offering x).call (keyFrame d k q .entry)) :=
  (call_induct (s := s.offering x) (P := fun u => u.cfg = s.cfg ∧ KeyPoint d k q s u)
    ⟨rfl, .entering (congrArg (keyFrame d k q .entry :: ·) hidle) rfl rfl⟩ fun u hd ⟨hcfg, h⟩ =>
      ⟨by simpa [State.tick] using hcfg, (keyPoint_device hcfg (Nat.zero_lt_of_lt hd) h).passTime⟩).2

/-- R191, R196, R200: what a point of the run shows. -/
theorem KeyPoint.atomic (h : KeyPoint d k q s u) :
    (u.slots = s.slots ∨ u.slots = (s.keyWrite d k).slots ∧ SentLast q s u)
      ∧ (Answered u true → ¬ s.keyVoid d k ∧ u.slots = (s.keyWrite d k).slots ∧ SentLast q s u)
      ∧ (Answered u false → u.slots = s.slots ∧ u.transfers = s.transfers) := by
  have busy {v : Bool} {P : Prop} (hctl : u.ctl ≠ []) (h : Answered u v) : P := absurd h.1 hctl
  have wrong {v w : Bool} {P : Prop} (hne : v ≠ w) (hres : u.result = v) (h : Answered u w) : P :=
    absurd (hres.symm.trans h.2.2) hne
  cases h with
  | entering hctl hslots ht => exact ⟨.inl hslots, busy (by simp [hctl]), busy (by simp [hctl])⟩
  | declined hres hctl hslots ht => exact ⟨.inl hslots, wrong (by decide) hres, fun _ => ⟨hslots, ht⟩⟩
  | sending hdo hloop =>
    obtain ⟨hslots, l, above, passed, hctl, _⟩ := hloop
    exact ⟨.inl hslots, busy (by simp [hctl]), busy (by simp [hctl])⟩
  | writing hdo hctl hslots hsent => exact ⟨.inl hslots, busy (by simp [hctl]), busy (by simp [hctl])⟩
  | finishing hdo hctl hslots hsent =>
    exact ⟨.inr ⟨hslots, hsent⟩, busy (by simp [hctl]), busy (by simp [hctl])⟩
  | answered hdo hres hctl hslots hsent =>
    exact ⟨.inr ⟨hslots, hsent⟩, fun _ => ⟨hdo, hslots, hsent⟩, wrong (by decide) hres⟩

end

/-- Settles O45, by the points of the run of `press`. -/
theorem pressAtomic : Obligations.PressAtomic := by
  intro i k s t hi hidle hexec
  have hres : classify s.cfg k ≠ .reserved := fun hk => by
    rw [pressReserved i k s hi hidle hk] at hexec
    cases hexec
  obtain ⟨x, he⟩ := exec_pressForm hi hidle hres
  obtain rfl := Host.Outcome.next.inj (he.symm.trans hexec)
  obtain ⟨hslots, hone, hzero⟩ := (keyPoint_call (d := .press) (k := k) (q := seqOf s.cfg k .press) x hidle).atomic
  refine ⟨hslots, fun hans => ?_, hzero⟩
  obtain ⟨hdo, hwritten, hsent⟩ := hone hans
  exact ⟨not_not.1 fun hfind => hdo (.inr (.inl hfind)), hwritten, hsent⟩

/-- Settles O46, by the points of the run of `release`. -/
theorem releaseAtomic : Obligations.ReleaseAtomic := by
  intro i k s t hi hidle hexec
  obtain ⟨x, he⟩ := exec_releaseForm hi (.inl hidle)
  obtain rfl := Host.Outcome.next.inj (he.symm.trans hexec)
  obtain ⟨hslots, hone, hzero⟩ := (keyPoint_call (d := .release) (k := k) (q := seqOf s.cfg k .release) x hidle).atomic
  refine ⟨hslots, fun hans => ?_, hzero⟩
  obtain ⟨hdo, hwritten, hsent⟩ := hone hans
  exact ⟨fun hfind => hdo (.inr hfind), hwritten, hsent⟩

end Sys2Proof.Machine
end

section
/-!
`poll` that finds nothing (R221, R222, R224, R225): on an idle bus, after an inhibit that sends nothing, and when the
start bit it saw is gone; and `poll` while the host holds the clock (R221, R276).
-/

namespace Sys2Proof.Machine

/-! ### The clock-release wait -/

section

variable {e : PollBus} (he : e = .p0 ∨ e = .p0Wait) (c : Config)
include he

/-- R221: both tests of P0 sample the clock. -/
theorem pollWait_primitive : (Frame.poll (.bus e)).primitive c = some (.lineRead .clk) := by
  rcases he with rfl | rfl <;> rfl

theorem pollWait_low : (Frame.poll (.bus e)).deliver c (.level .low) = .poll (.bus .p0Wait) := by
  rcases he with rfl | rfl <;> rfl

theorem pollWait_high : (Frame.poll (.bus e)).deliver c (.level .high) = .poll (.bus .p1) := by
  rcases he with rfl | rfl <;> rfl

end

section

variable {s : State} {f₀ : Frame} {off : Prop} {k h : Nat} {c x : Drive} {fs : List Frame} {dr : List (Line × Drive)}
  (hd : s.ctl.length ≤ fs.length)
include hd

/-- R221: `h` samples of a clock that the host holds, whatever the device drives. -/
theorem Reached.pollSamplesLow (hp : Reached s f₀ off k ⟨c, x, Frame.newPoll :: fs⟩ dr) (hr : s.noReset (k + 2 * h - 1))
    (hlow : ∀ j, j < h → s.inputAt (k + 2 * j + 1) (fun q => q.hclk = .drvLow)) :
    ∃ e, (e = .p0 ∨ e = .p0Wait) ∧ Reached s f₀ off (k + 2 * h) ⟨c, x, .poll (.bus e) :: fs⟩ dr := by
  induction h with
  | zero => exact ⟨.p0, .inl rfl, hp⟩
  | succ h ih =>
    obtain ⟨e, he, before⟩ := ih (hr.mono (by omega)) fun j hj => hlow j (Nat.lt_succ_of_lt hj)
    exact ⟨.p0Wait, .inr rfl, before.readClk hd (hr.mono (by omega)) (pollWait_primitive he _) (pollWait_low he _)
      ((hlow h (Nat.lt_succ_self h)).low c)⟩

/-- R221, R222: the host releases the clock after `h` samples, and data is high then. -/
theorem Reached.pollFindsNothing (hp : Reached s f₀ off k ⟨.rel, .rel, Frame.newPoll :: fs⟩ dr)
    (hr : s.noReset (k + 2 * h + 3)) (hlow : ∀ j, j < h → s.inputAt (k + 2 * j + 1) (fun q => q.hclk = .drvLow))
    (hclk : s.inputAt (k + 2 * h + 1) (fun q => q.hclk = .rel))
    (hdat : s.inputAt (k + 2 * h + 3) (fun q => q.hdat = .rel)) :
    Reached s f₀ off (k + 2 * h + 4) ⟨.rel, .rel, .poll (.out false) :: fs⟩ dr := by
  obtain ⟨e, he, waited⟩ := hp.pollSamplesLow hd (hr.mono (by omega)) hlow
  have p1 := waited.readClk hd (hr.mono (by omega)) (pollWait_primitive he _) (pollWait_high he _) hclk.high
  exact p1.readDat hd hr rfl rfl hdat.high

/-- R141: `receive` runs out of its start-bit wait at the `n + 1`-st unmet sample. -/
theorem Reached.receiveExpires {n : Nat} {g : Frame}
    (hp : Reached s f₀ off k ⟨c, .rel, Frame.newReceive :: g :: fs⟩ dr) (hr : s.noReset (k + 2 * n + 3))
    (hexp : s.startExpires k n) :
    Reached s f₀ off (k + 2 * n + 4) ⟨c, .rel, g.deliver s.cfg (.code .timeout) :: fs⟩ dr := by
  obtain ⟨hbound, hunmet⟩ := hexp
  have hd' : s.ctl.length ≤ (g :: fs).length := Nat.le_succ_of_le hd
  have entered := hp.startWait (left := 0 + n) hd' (hr.mono (by omega)) ((Nat.zero_add n).symm ▸ hbound)
  have unmet := entered.startUnmet hd' (hr.mono (by omega)) fun j hj =>
    (by omega : k + 2 * j + 2 = k + 1 + 2 * j + 1) ▸ hunmet j hj.le
  have expired := unmet.readDat (v := .high) (g := .receive RxLocals.atEntry .rx0Out) hd' (hr.mono (by omega)) rfl rfl
    ((by omega : k + 2 * n + 2 = k + 1 + 2 * n + 1) ▸ (hunmet n le_rfl).high)
  have returned := expired.returns hd (hr.mono (by omega)) (fun _ => rfl) rfl
  exact (by omega : k + 1 + 2 * n + 2 + 1 = k + 2 * n + 4) ▸ returned

end

/-! ### What `poll` leaves that has found nothing -/

/-- R224, R225: `poll` called in `s` has returned false; nothing is driven, sent or logged and no state has changed. -/
structure FoundNothing (s t : State) : Prop where
  completed : Completed s t (.bit false) [] []
  undriven : Undriven s t
  keys : KeysAndFlagKept s t
  answered : s.ctl = [] → Answered t false

/-- R89: what stands on `req_key` is ignored. -/
theorem FoundNothing.of_offering {s t : State} {x : Keycode} (h : FoundNothing (s.offering x) t) : FoundNothing s t :=
  ⟨h.completed.of_offering, h.undriven, h.keys, h.answered⟩

/-- R89: there is no reset whatever stands on `req_key`. -/
theorem noReset_offering {s : State} {n : Nat} (x : Keycode) (h : s.noReset n) : (s.offering x).noReset n := by
  obtain ⟨hn, hr⟩ := h
  exact ⟨hn, List.forall_mem_cons.2 (List.forall_mem_cons.1 hr)⟩

/-- R89, R90, R250: each row that asks for a `poll` calls it, `op.poll` whatever runs below it. -/
theorem exec_pollForm {i : Instr} {s : State} (hi : PollForm s i) (hctl : s.ctl = [] ∨ i = .opPoll) :
    ∃ x, exec i s = .next ((s.offering x).call Frame.newPoll) := by
  rcases hi with rfl | rfl | ⟨⟨k, hk⟩, hop⟩
  · exact ⟨s.env.reqKey, request_idle _ (hctl.resolve_right nofun)⟩
  · exact ⟨s.env.reqKey, rfl⟩
  · have hidle : s.ctl = [] := hctl.resolve_right (by rintro rfl; exact hk)
    refine ⟨k, ?_⟩
    rw [exec_keycodeRow hk, requestKey_poll k hop]
    exact request_idle (s := s.offering k) _ hidle

section

variable {s : State} (hrel : s.released)
include hrel

theorem ended_foundNothing {ev : List Event} {p : Pins} {sc : List Pins} {n : Nat} (hdriven : drivenOf ev = [])
    (hsent : sentOf ev = []) (hlogged : loggedOf ev = []) :
    FoundNothing s
      ((s.ended (.poll (.out false)) (.bit false) .rel .rel s.slots s.enabled ev).withWorld p sc n) where
  completed := ended_completed hsent hlogged
  undriven := by
    obtain ⟨hc, hx⟩ := hrel
    exact ended_undriven hc.symm hx.symm hdriven
  keys := ⟨ended_slots, ended_enabled⟩
  answered := ended_answered rfl

theorem reached_poll : Reached s Frame.newPoll False 0 ⟨.rel, .rel, Frame.newPoll :: s.ctl⟩ [] := by
  obtain ⟨hc, hx⟩ := hrel
  have start := reached_start s Frame.newPoll False
  rwa [hc, hx] at start

/-- A `poll` that has reached the return of false. -/
theorem Reached.foundNothing {k : Nat} {off : Prop}
    (h : Reached s Frame.newPoll off k ⟨.rel, .rel, .poll (.out false) :: s.ctl⟩ []) (hr : s.noReset k) :
    FoundNothing s (s.call Frame.newPoll) := by
  obtain ⟨ev, hdriven, hsent, hlogged, _, p, sc, n, hcall⟩ := h.call_returns hr fun _ => rfl
  exact hcall ▸ ended_foundNothing hrel hdriven hsent hlogged

/-- R221, R222: the host inhibits for `m` samples and then sends nothing. -/
theorem poll_inhibited {m : Nat} (hr : s.noReset (2 * m + 4))
    (hlow : ∀ j, j < m → s.inputAt (2 * j + 1) (fun p => p.hclk = .drvLow))
    (hclk : s.inputAt (2 * m + 1) (fun p => p.hclk = .rel)) (hdat : s.inputAt (2 * m + 3) (fun p => p.hdat = .rel)) :
    FoundNothing s (s.call Frame.newPoll) := by
  rw [← Nat.zero_add (2 * m)] at hr hclk hdat
  have nothing := (reached_poll hrel).pollFindsNothing le_rfl (hr.mono (Nat.le_succ _))
    (fun j hj => (Nat.zero_add (2 * j)).symm ▸ hlow j hj) hclk hdat
  exact nothing.foundNothing hrel hr

/-- R223, R225: the start bit seen at P1 is gone when `receive` looks for it, at `n + 1` samples. -/
theorem poll_timeout {m n : Nat} (hr : s.noReset (2 * m + 2 * n + 9))
    (hlow : ∀ j, j < m → s.inputAt (2 * j + 1) (fun p => p.hclk = .drvLow))
    (hclk : s.inputAt (2 * m + 1) (fun p => p.hclk = .rel)) (hdat : s.inputAt (2 * m + 3) (fun p => p.hdat = .drvLow))
    (hexp : s.startExpires (2 * m + 5) n) : FoundNothing s (s.call Frame.newPoll) := by
  rw [← Nat.zero_add (2 * m)] at hr hclk hdat hexp
  have polled := (reached_poll hrel).polled le_rfl (hr.mono (by omega))
    (fun j hj => (Nat.zero_add (2 * j)).symm ▸ hlow j hj) hclk hdat
  have expired := polled.receiveExpires le_rfl (hr.mono (by omega)) hexp
  exact expired.foundNothing hrel (hr.mono (by omega))

end

/-! ### An idle bus -/

/-- The record of a `poll` on an idle bus, newest event first. -/
def idlePollEvents : List Event :=
  .returned (.poll (.out false)) (.bit false) :: (sampleEvents .dat .high ++ sampleEvents .clk .high)

/-- A bus event of a quiet world that samples a line: the line is high. -/
theorem runs_sampleHigh {s : State} {f : Frame} {l : Line} (fs : List Frame) (ev : List Event) (p : Pins) (r : Ret)
    {d : Nat} (hd : d ≤ fs.length) (hf : f.primitive s.cfg = some (.lineRead l)) :
    Runs d (quiets 2) (s.pt .rel .rel (f :: fs) ev p r)
      (s.pt .rel .rel (f.deliver s.cfg (.level .high) :: fs) (sampleEvents l .high ++ ev) .quiet (.level .high)) := by
  have called := Runs.one s .rel .rel f fs ev p .quiet r hd rfl
  rw [stepFrame_of_primitive (t := s.pt _ _ _ _ _ _) fs hf, pt_callFrom] at called
  have sampled := Runs.one s .rel .rel (.lineRead l) (f :: fs) ev .quiet .quiet r (Nat.le_succ_of_le hd) rfl
  cases l with
  | clk => exact called.trans sampled
  | dat => exact called.trans sampled

/-- R221, R222, R224: both samples find the line high. -/
theorem runs_poll (s : State) (fs : List Frame) (ev : List Event) (p : Pins) (r : Ret) {d : Nat} (hd : d ≤ fs.length) :
    Runs d (quiets 5) (s.pt .rel .rel (Frame.newPoll :: fs) ev p r)
      ((s.returned (.poll (.out false)) (.bit false) fs).pt .rel .rel (deliverTo s.cfg (.bit false) fs)
        (idlePollEvents ++ ev) .quiet (.bit false)) := by
  have clock := runs_sampleHigh (s := s) (f := Frame.newPoll) (l := .clk) fs ev p r hd rfl
  have data := runs_sampleHigh (s := s) (f := .poll (.bus .p1)) (l := .dat) fs (sampleEvents .clk .high ++ ev) .quiet
    (.level .high) hd rfl
  have returns := Runs.one (d := d) s .rel .rel (.poll (.out false)) fs
    (sampleEvents .dat .high ++ (sampleEvents .clk .high ++ ev)) .quiet .quiet (.level .high) hd rfl
  rw [stepFrame, stepPoll, pt_returnFrom] at returns
  exact (clock.trans data).trans returns

/-- The call of an operation that returns in a quiet world, the inputs being quiet for as long. -/
theorem call_eq_of_quietRun {s t : State} {f : Frame} {n : Nat} (hrel : s.released) (hq : s.quietFor n)
    (h : Runs s.ctl.length (quiets (n + 1))
      (({ s with inject := none, done := false } : State).pt .rel .rel (f :: s.ctl) s.events s.env s.ret) t)
    (hstop : t.ctl.length = s.ctl.length) : ∃ e sc k, s.call f = t.withWorld e sc k := by
  obtain ⟨hn, hquiet⟩ := hq
  have hlen : (s.inputs n).length = n + 1 := by simp [State.inputs, hn]
  obtain ⟨hrun, hplay⟩ := (h.of_engine nofun (congrArg State.engine (released_start s f hrel) :)).sameQuiet (s.inputs n)
    hlen hquiet Pins.quiet [] 0
  exact call_eq_of_play (ps := s.inputs n) (rest := s.script.drop n) (by simp [State.inputs]) nofun hrun hplay hstop

theorem poll_idle {s : State} (hrel : s.released) (hq : s.quietFor 4) :
    FoundNothing s (s.call Frame.newPoll) ∧ (s.call Frame.newPoll).events = idlePollEvents ++ s.events := by
  obtain ⟨p, sc, n, hcall⟩ := call_eq_of_quietRun
    (t := s.ended (.poll (.out false)) (.bit false) .rel .rel s.slots s.enabled idlePollEvents) hrel hq
    (runs_poll _ _ _ _ _ le_rfl) ended_length
  rw [hcall]
  exact ⟨ended_foundNothing hrel rfl rfl rfl, rfl⟩

/-- Settles O47: the record of the two samples, the wait for the clock's release, and the expiry of `receive`. -/
theorem pollIdle : Obligations.PollIdle := by
  intro i s hi hctl hrel
  obtain ⟨x, hexec⟩ := exec_pollForm hi hctl
  have hrel' : (s.offering x).released := hrel
  refine ⟨fun hq => ?_, fun m hr hlow hclk hdat => ?_, fun m n hr hlow hclk hdat hexp => ?_⟩
  · obtain ⟨hfound, hevents⟩ := poll_idle hrel' (quietFor_offering x hq)
    obtain ⟨hdone, _, hkeys, hans⟩ := hfound.of_offering
    exact ⟨_, _, hexec, hdone, hevents, hkeys, hans⟩
  · obtain ⟨hdone, hundriven, hkeys, hans⟩ := (poll_inhibited hrel' (noReset_offering x hr) hlow hclk hdat).of_offering
    exact ⟨_, hexec, hdone, hundriven, hkeys, hans⟩
  · obtain ⟨hdone, hundriven, hkeys, hans⟩ := (poll_timeout hrel' (noReset_offering x hr) hlow hclk hdat hexp).of_offering
    exact ⟨_, hexec, hdone, hundriven, hkeys, hans⟩

/-! ### A host that holds the clock -/

/-- Settles O48: the clock-release wait lasts to the end of the described inputs, which falls before a sample or in
it. -/
theorem pollWaits : Obligations.PollWaits := fun s hheld => by
  have hr : s.noReset s.script.length := noReset_of_all fun p hp => (hheld p hp).1
  have hlow {i : Nat} (hi : i ≤ s.script.length) : s.inputAt i (fun p => p.hclk = .drvLow) :=
    inputAt_of_all (fun p hp => (hheld p hp).2) hi
  have start := reached_start s Frame.newPoll False
  obtain ⟨h, hh⟩ := s.horizon.even_or_odd'
  have hlen : s.horizon = s.script.length + 1 := rfl
  obtain ⟨e, he, waited⟩ := start.pollSamplesLow (h := h) le_rfl (hr.mono (by omega)) fun j hj => hlow (by omega)
  rw [Nat.zero_add] at waited
  obtain ⟨ctl, hwait, run⟩ : ∃ ctl, (ctl = .poll (.bus e) :: s.ctl ∨ ctl = .lineRead .clk :: .poll (.bus e) :: s.ctl)
      ∧ Reached s Frame.newPoll False s.horizon ⟨s.drvClk, s.drvDat, ctl⟩ [] := by
    rcases hh with hh | hh
    · exact ⟨_, .inl rfl, hh ▸ waited⟩
    · exact ⟨_, .inr rfl, hh ▸ waited.next le_rfl (hr.mono (by omega)) fun _ _ _ =>
        stepFrame_of_primitive _ (pollWait_primitive he _)⟩
  obtain ⟨hctl, hclk, hdat, hdriven, hstore⟩ := run.call_inProgress
  exact ⟨_, e, rfl, he, hctl ▸ hwait, ⟨hclk, hdat, hdriven.trans (List.append_nil _)⟩, hstore⟩

end Sys2Proof.Machine
end

section
/-!
The request port (R250): a busy engine does not look at it, and an idle engine that finds nothing there lets time pass.
-/

namespace Sys2Proof.Machine

/-! ### A busy engine (R250, R271) -/

section

variable {s : State} {e : Pins}

/-- The inputs of a step are gone after it. -/
theorem passTime_withEnv (s : State) (e : Pins) : (s.withWorld e s.script s.envCount).passTime = s.passTime := by
  rw [State.passTime, withWorld_script, State.passTime]
  split <;> rfl

theorem hardReset_passTime_withEnv (s : State) (e : Pins) :
    (s.withWorld e s.script s.envCount).hardReset.passTime = s.hardReset.passTime :=
  passTime_withEnv s.hardReset e

/-- The device's part of a step reads the bus alone, and the inputs pass with the step. -/
theorem tick_withEnv (hbus : SameBus e s.env) : (s.withWorld e s.script s.envCount).tick = s.tick := by
  have hdevice : (s.withWorld e s.script s.envCount).device
      = s.device.withWorld e s.device.script s.device.envCount := by
    rw [device_withWorld s.script s.envCount hbus, device_script, device_envCount]
  rw [State.tick, hdevice, passTime_withEnv, State.tick]

/-- Of its inputs a busy engine's step reads the bus and the reset alone. -/
theorem step_withEnv_of_busy (hbusy : s.ctl ≠ []) (hrst : e.rst = s.env.rst) (hbus : SameBus e s.env) :
    step (s.withWorld e s.script s.envCount) = step s := by
  obtain ⟨f, fs, hctl⟩ := List.exists_cons_of_ne_nil hbusy
  cases hr : s.env.rst with
  | true =>
    have hr' : (s.withWorld e s.script s.envCount).env.rst = true := hrst.trans hr
    rw [step_reset hr', step_reset hr, hardReset_passTime_withEnv]
  | false =>
    have hr' : (s.withWorld e s.script s.envCount).env.rst = false := hrst.trans hr
    rw [step_busy hr' hctl, step_busy hr hctl, tick_withEnv hbus]

end

/-- Settles O52: the request port is no part of the bus, and not the reset. -/
theorem busyIgnoresPort : Obligations.BusyIgnoresPort := fun s v op k hbusy =>
  step_withEnv_of_busy (e := { s.env with reqValid := v, reqOp := op, reqKey := k }) hbusy rfl ⟨rfl, rfl, rfl⟩

/-! ### An idle engine (R250, R262, R270) -/

theorem fetch_none {s : State} (h : s.inject = none) (hv : s.env.reqValid = false) : s.fetch = none := by
  simp [State.fetch, h, hv]

/-- Settles O60: the step is the idle one, in which only the `done` pulse ends and time passes. -/
theorem idleStep : Obligations.IdleStep := by
  intro s hr hidle hinject hvalid
  have hundriven : Undriven s s.idle := undriven_passTime { s with done := false }
  have hstore : s.sameStore s.idle := ⟨State.idle_cfg s, State.idle_slots s, State.idle_enabled s⟩
  exact ⟨s.idle, step_idle hr hidle (fetch_none hinject hvalid), State.idle_events s, (State.idle_ctl s).trans hidle,
    hundriven, hstore, State.idle_done s, State.idle_result s⟩

end Sys2Proof.Machine
end

section
/-!
Reset (R260 to R263): the state it leaves, and the step that leads there from every state.
-/

namespace Sys2Proof.Machine

@[simp] theorem Registry.get_empty (c : Config) (n : Nat) : (Registry.empty c).get n = c.keyNone := by
  unfold Registry.get
  split <;> rfl

/-- Settles O57: every slot of the empty registry reads KEY_NONE; the other fields are those `resetWith` gives. -/
theorem resetState : Obligations.ResetState := fun c =>
  ⟨fun n _ => Registry.get_empty c n, rfl, ⟨rfl, rfl⟩, rfl, rfl, rfl, rfl⟩

/-- R261: reset releases both lines, and the time that passes with the step drives none. -/
theorem released_hardReset_passTime (s : State) : s.hardReset.passTime.released :=
  ⟨State.passTime_drvClk _, State.passTime_drvDat _⟩

/-- Settles O58: the step is `hardReset`, whatever is running, and the passing of time changes the inputs alone. -/
theorem resetAbandons : Obligations.ResetAbandons := fun s hrst =>
  ⟨s.hardReset.passTime, step_reset hrst, State.passTime_ctl _, released_hardReset_passTime s, State.passTime_slots _,
    State.passTime_enabled _, State.passTime_done _, State.passTime_events _, State.passTime_cfg _⟩

end Sys2Proof.Machine
end

section
/-!
The two frame rows (R57, R71, R73): a device's frame is `transmit` behind its idle check, and a host's frame is one that
`receive` finds on the line and uses up.
-/

namespace Sys2Proof.Machine

/-! ### A device's frame -/

/-- R71: the edges of one frame. -/
theorem framesOnWire_singleton {s t : State} {b : Byte} :
    FramesOnWire s t [b] ↔ t.edges = s.edges ++ (frameCells b).map levelOfBit := by
  rw [FramesOnWire, List.flatMap_singleton]

/-- Settles O17: the eleven cells from T2 on, the acknowledgment window, and the return. -/
theorem frameDeviceToHost : Obligations.FrameDeviceToHost := fun b m s ⟨hc, hx⟩ hr hm => by
  have start := reached_start s (.transmit (TxLocals.atEntry b) .t2) (s.hostOff 132)
  rw [hc, hx] at start
  have cells := start.frame (Nat.le_refl _) (hr.mono (by omega)) id
  obtain ⟨j, hj, t8⟩ := cells.ackWindow (Nat.le_refl _) (hr.mono (by omega)) hm
  obtain ⟨ev, hdriven, hsent, hlogged, hedges, e, sc, n, hcall⟩ := t8.call_returns (hr.mono (by omega)) fun _ => rfl
  refine ⟨_, congrArg Host.Outcome.next hcall, ?_, ?_, fun ho => ?_, ⟨ended_slots, ended_enabled⟩, ended_port rfl⟩
  · exact ended_completed hsent hlogged
  · rw [ended_driven]
    exact congrArg _ hdriven
  · rw [framesOnWire_singleton, ended_edges]
    exact congrArg _ ((hedges ho).trans (fallLevels_frame _ b))

/-! ### A host's frame -/

/-- R62: a call that returns in its `k`-th step, counted from 0, leaves the inputs after that step where they are. -/
theorem Reached.call_world {s : State} {f₀ f : Frame} {off : Prop} {k : Nat} {c x : Drive} {dr : List (Line × Drive)}
    {r : Ret} {before rest : List Pins} {q : Pins} (h : Reached s f₀ off k ⟨c, x, f :: s.ctl⟩ dr) (hr : s.noReset k)
    (hf : ∀ t, stepFrame f s.ctl t = t.returnFrom f r s.ctl) (hin : s.env :: s.script = before ++ q :: rest)
    (hlen : before.length = k + 1) : (s.call f₀).env = q ∧ (s.call f₀).script = rest := by
  obtain ⟨hrun, _, ev, r', _, hplay⟩ := h
  obtain ⟨p, hp, hrst⟩ := hr.input
  have hbefore : before = (s.env :: s.script).take k ++ [p] := by
    rw [← take_succ_of_getElem? hp, hin, List.take_left' hlen]
  have hrunning : Machine.running s.ctl.length before (s.start f₀) := by
    rw [hbefore, running_append]
    exact ⟨hrun, by rw [ctl_of_engine hplay]; exact Nat.lt_succ_self _, hrst, trivial⟩
  have hreact : ((play ((s.env :: s.script).take k) (s.start f₀)).react p).ctl.length = s.ctl.length := by
    rw [← react_engine, hplay, react_engine, pt_react, hf, returnFrom_ctl, popped_length]
  have hreturned : (play before (s.start f₀)).ctl.length = s.ctl.length := by
    rw [hbefore, play_append]
    exact hreact
  rw [call_runs hin (List.ne_nil_of_length_eq_add_one hlen) ⟨hrunning, rfl⟩ hreturned.le]
  exact ⟨rfl, rfl⟩

section

variable {s : State} {ps : List Pins}

theorem withHost_inputs : (s.withHost ps).env :: (s.withHost ps).script = ps ++ s.env :: s.script := by cases ps <;> rfl

@[simp] theorem withHost_drvClk : (s.withHost ps).drvClk = s.drvClk := by cases ps <;> rfl
@[simp] theorem withHost_drvDat : (s.withHost ps).drvDat = s.drvDat := by cases ps <;> rfl
@[simp] theorem withHost_enabled : (s.withHost ps).enabled = s.enabled := by cases ps <;> rfl
@[simp] theorem withHost_result : (s.withHost ps).result = s.result := by cases ps <;> rfl
@[simp] theorem withHost_driven : (s.withHost ps).driven = s.driven := by cases ps <;> rfl

theorem withHost_released (h : s.released) : (s.withHost ps).released := by
  obtain ⟨hc, hx⟩ := h
  exact ⟨withHost_drvClk.trans hc, withHost_drvDat.trans hx⟩

variable {b : Byte} {p : Bool}

theorem withHost_frame_noReset : (s.withHost (hostFrame b p)).noReset 116 :=
  noReset_of_inputs withHost_inputs hostFrame_length fun _ hq => (hostFrame_clk hq).2

theorem withHost_framesFrom : (s.withHost (hostFrame b p)).hostFramesFrom 0 0 0 b :=
  hostFramesFrom_of_frame fun _ _ hq => inputAt_append (before := []) withHost_inputs hq

/-- R62: `receive` uses up the host's frame and no input behind it. -/
theorem call_receive_world (hrel : s.released) :
    ((s.withHost (hostFrame b p)).call Frame.newReceive).env = s.env
      ∧ ((s.withHost (hostFrame b p)).call Frame.newReceive).script = s.script := by
  obtain ⟨hc, hx⟩ := withHost_released (ps := hostFrame b p) hrel
  have start := reached_start (s.withHost (hostFrame b p)) Frame.newReceive False
  rw [hc, hx] at start
  have run := start.receive (Nat.le_refl _) (withHost_frame_noReset.mono (by decide)) withHost_framesFrom
  exact run.call_world withHost_frame_noReset (step_rx7 b _) withHost_inputs hostFrame_length

end

/-- Settles O22: the row is `receive` with the host's frame on the line, which comes neither late nor with the clock
held. -/
theorem frameHostToDevice : Obligations.FrameHostToDevice := fun b p s hrel => by
  obtain ⟨t, hexec, hdone, hdriven, ⟨hslots, henabled⟩, hpulse, hresult⟩ := receiveByte 0 0 b _
    (withHost_released hrel) withHost_frame_noReset ((hostFramesFrom_zero _ 0 0 b).1 (withHost_framesFrom (p := p)))
  obtain rfl : (s.withHost (hostFrame b p)).call Frame.newReceive = t := Host.Outcome.next.inj hexec
  obtain ⟨henv, hscript⟩ := call_receive_world (b := b) (p := p) hrel
  exact ⟨_, rfl, hdone.of_withHost, hdriven.trans (by rw [withHost_driven]), henv, hscript,
    ⟨hslots.trans (withHost_slots s _), henabled.trans withHost_enabled⟩, hpulse, hresult.trans withHost_result⟩

end Sys2Proof.Machine
end
